-- ==== Sys2Proof/Word.lean ====
section
/-!
DEFINITION. The widths QARB works in: bytes of memory, 16-bit pixels and coordinates, 32-bit registers and
addresses (spec 00_scope.md R5, 10_state.md R10 to R14).
-/

namespace Sys2Proof

/-- One byte of memory (20_memory.md R40). -/
abbrev Byte := BitVec 8

/-- A 16-bit quantity: a pixel, a coordinate component, a glyph width (10_state.md R10, R12). -/
abbrev Half := BitVec 16

/-- A 32-bit quantity: a register or a byte address (10_state.md R13, R31). -/
abbrev Word := BitVec 32

end Sys2Proof
end

