-- ==== Sys2Proof/Syntax.lean ====
section
/-!
DEFINITION. The 23 commands of QARB (30_encoding.md R64), one constructor per row of spec/opcode_table.json. An
operand that travels in `imm16` is a field here; operands that travel in A0 to A4 are read when the command runs
(R62).
-/

namespace Sys2Proof

/-- A command of the block. The layer operand of a format L command is its whole `imm16`; `Instr.wellFormed` says
which values are legal (R63). -/
inductive Instr where
  | nop
  | init
  | deinit
  | setDrawBuffer (layer : Half)
  | setDrawColor (raw : Half)
  | setDrawColorArgb
  | queryBack (layer : Half)
  | flip (layer : Half)
  | clear
  | drawPixel
  | drawLine
  | drawRect
  | drawRectFill
  | fontClear
  | fontAdd
  | setFontIndex (idx : Half)
  | setFontName
  | measureChar (ch : Half)
  | measureStr (len : Half)
  | drawChar (ch : Half)
  | drawStrL (len : Half)
  | drawStrC (len : Half)
  | drawStrR (len : Half)
  deriving DecidableEq, Repr

/-- The mnemonic of 30_encoding.md R64. -/
def Instr.mnemonic : Instr → String
  | .nop => "NOP"
  | .init => "INIT"
  | .deinit => "DEINIT"
  | .setDrawBuffer _ => "SET_DRAW_BUFFER"
  | .setDrawColor _ => "SET_DRAW_COLOR"
  | .setDrawColorArgb => "SET_DRAW_COLOR_ARGB"
  | .queryBack _ => "QUERY_BACK"
  | .flip _ => "FLIP"
  | .clear => "CLEAR"
  | .drawPixel => "DRAW_PIXEL"
  | .drawLine => "DRAW_LINE"
  | .drawRect => "DRAW_RECT"
  | .drawRectFill => "DRAW_RECT_FILL"
  | .fontClear => "FONT_CLEAR"
  | .fontAdd => "FONT_ADD"
  | .setFontIndex _ => "SET_FONT_INDEX"
  | .setFontName => "SET_FONT_NAME"
  | .measureChar _ => "MEASURE_CHAR"
  | .measureStr _ => "MEASURE_STR"
  | .drawChar _ => "DRAW_CHAR"
  | .drawStrL _ => "DRAW_STR_L"
  | .drawStrC _ => "DRAW_STR_C"
  | .drawStrR _ => "DRAW_STR_R"

end Sys2Proof
end

