-- ==== Sys2Proof/WellFormed.lean ====
section
/-!
DEFINITION. Which instructions are well formed: the one operand constraint of 30_encoding.md R62 that the syntax
does not already enforce is format L's, "layer index, must be 0 or 1".
-/

namespace Sys2Proof

/-- Format L's constraint on `imm16` (R62, R63, D25). -/
def layerLegal (layer : Half) : Bool := decide (layer.toNat ≤ 1)

/-- The instruction is one that a legal command word spells (R65). -/
def Instr.wellFormed : Instr → Bool
  | .setDrawBuffer l => layerLegal l
  | .queryBack l => layerLegal l
  | .flip l => layerLegal l
  | .nop => true
  | .init => true
  | .deinit => true
  | .setDrawColor _ => true
  | .setDrawColorArgb => true
  | .clear => true
  | .drawPixel => true
  | .drawLine => true
  | .drawRect => true
  | .drawRectFill => true
  | .fontClear => true
  | .fontAdd => true
  | .setFontIndex _ => true
  | .setFontName => true
  | .measureChar _ => true
  | .measureStr _ => true
  | .drawChar _ => true
  | .drawStrL _ => true
  | .drawStrC _ => true
  | .drawStrR _ => true

end Sys2Proof
end

