-- ==== Sys2Proof/Decode.lean ====
section
/-!
DEFINITION. The command word (30_encoding.md R60 to R65): a total decoder that names why it rejects a word, and
the encoder. The decoder and the encoder are written separately from the tables of R62 and R64.
-/

namespace Sys2Proof

/-- Why a word is illegal (30_encoding.md R65). -/
inductive DecodeError where
  /-- `op` is none of the 23 values of R64. -/
  | unknownOpcode
  /-- bits 15:8 are not zero. -/
  | reservedNotZero
  /-- a format N, A1, A2 or A5 word whose `imm16` is not zero. -/
  | immediateNotZero
  /-- a format L word whose `imm16` is above 1. -/
  | layerOutOfRange
  deriving DecidableEq, Repr

/-- The nine formats of 30_encoding.md R62. -/
inductive Format where
  | n | l | i | a1 | a2 | a5 | is | ia1 | ia2
  deriving DecidableEq, Repr

/-- `op`, bits 7:0 (R60). -/
def opField (w : Word) : Byte := w.extractLsb' 0 8

/-- `z`, bits 15:8 (R60). -/
def zField (w : Word) : Byte := w.extractLsb' 8 8

/-- `imm16`, bits 31:16 (R60). -/
def immField (w : Word) : Half := w.extractLsb' 16 16

/-- The format's constraint on `imm16`, and the name of its violation (R62, R65). -/
def Format.check (f : Format) (imm : Half) : Option DecodeError :=
  match f with
  | .n => if imm = 0 then none else some .immediateNotZero
  | .a1 => if imm = 0 then none else some .immediateNotZero
  | .a2 => if imm = 0 then none else some .immediateNotZero
  | .a5 => if imm = 0 then none else some .immediateNotZero
  | .l => if imm.toNat ≤ 1 then none else some .layerOutOfRange
  | .i => none
  | .is => none
  | .ia1 => none
  | .ia2 => none

/-- The row of 30_encoding.md R64 with this `op`: its format, and its command as a function of `imm16`. -/
def opcodeRow (op : Byte) : Option (Format × (Half → Instr)) :=
  match op with
  | 0x00#8 => some (.n, fun _ => .nop)
  | 0x01#8 => some (.n, fun _ => .init)
  | 0x02#8 => some (.n, fun _ => .deinit)
  | 0x08#8 => some (.l, fun imm => .setDrawBuffer imm)
  | 0x09#8 => some (.i, fun imm => .setDrawColor imm)
  | 0x0A#8 => some (.a1, fun _ => .setDrawColorArgb)
  | 0x0C#8 => some (.l, fun imm => .queryBack imm)
  | 0x0D#8 => some (.l, fun imm => .flip imm)
  | 0x10#8 => some (.n, fun _ => .clear)
  | 0x11#8 => some (.a1, fun _ => .drawPixel)
  | 0x12#8 => some (.a2, fun _ => .drawLine)
  | 0x13#8 => some (.a2, fun _ => .drawRect)
  | 0x14#8 => some (.a2, fun _ => .drawRectFill)
  | 0x20#8 => some (.n, fun _ => .fontClear)
  | 0x21#8 => some (.a5, fun _ => .fontAdd)
  | 0x22#8 => some (.i, fun imm => .setFontIndex imm)
  | 0x23#8 => some (.a1, fun _ => .setFontName)
  | 0x24#8 => some (.i, fun imm => .measureChar imm)
  | 0x25#8 => some (.is, fun imm => .measureStr imm)
  | 0x28#8 => some (.ia1, fun imm => .drawChar imm)
  | 0x29#8 => some (.ia2, fun imm => .drawStrL imm)
  | 0x2A#8 => some (.ia2, fun imm => .drawStrC imm)
  | 0x2B#8 => some (.ia2, fun imm => .drawStrR imm)
  | _ => none

/-- The decoder of 30_encoding.md R60: look `op` up, check `z`, check the format's constraint. Total on every word. -/
def decode (w : Word) : Except DecodeError Instr :=
  match opcodeRow (opField w) with
  | none => .error .unknownOpcode
  | some (f, build) =>
    if zField w ≠ 0 then .error .reservedNotZero
    else match f.check (immField w) with
      | some e => .error e
      | none => .ok (build (immField w))

/-- The command word with these fields, `op | (imm << 16)` (R60, R68). -/
def commandWord (op : Byte) (imm : Half) : Word := op.setWidth 32 ||| (imm.setWidth 32 <<< 16)

/-- The word of a command (30_encoding.md R64). -/
def encode : Instr → Word
  | .nop => commandWord 0x00 0
  | .init => commandWord 0x01 0
  | .deinit => commandWord 0x02 0
  | .setDrawBuffer l => commandWord 0x08 l
  | .setDrawColor raw => commandWord 0x09 raw
  | .setDrawColorArgb => commandWord 0x0A 0
  | .queryBack l => commandWord 0x0C l
  | .flip l => commandWord 0x0D l
  | .clear => commandWord 0x10 0
  | .drawPixel => commandWord 0x11 0
  | .drawLine => commandWord 0x12 0
  | .drawRect => commandWord 0x13 0
  | .drawRectFill => commandWord 0x14 0
  | .fontClear => commandWord 0x20 0
  | .fontAdd => commandWord 0x21 0
  | .setFontIndex idx => commandWord 0x22 idx
  | .setFontName => commandWord 0x23 0
  | .measureChar ch => commandWord 0x24 ch
  | .measureStr len => commandWord 0x25 len
  | .drawChar ch => commandWord 0x28 ch
  | .drawStrL len => commandWord 0x29 len
  | .drawStrC len => commandWord 0x2A len
  | .drawStrR len => commandWord 0x2B len

/-- The 32-bit word whose low `nbits` bits are those of `w` and whose other bits are 0. Every command is one 32-bit
word (R60, R67). -/
def tableWord (nbits w : Nat) : Word := BitVec.ofNat 32 (w % 2 ^ nbits)

/-- The command the decoder reads from an instruction whose bits are `w` (bit 0 the least significant). -/
def decodeTableWord (nbits w : Nat) : Option Instr :=
  match decode (tableWord nbits w) with
  | .ok i => some i
  | .error _ => none

end Sys2Proof
end

