-- ==== Sys2Proof/Config.lean ====
section
/-!
DEFINITION. What an implementation of QARB fixes (00_scope.md R4, the rows marked parameter), as plain data that
`State` carries and no step changes, and the one free value of the model, the panel driver's answer (U12).
-/

namespace Sys2Proof

/-- What the panel bring-up driver answers to `PanelInit` (60_exceptions.md R184). -/
inductive PanelAnswer where
  | ok
  | fail
  deriving DecidableEq, Repr, Inhabited

/-- The byte addresses `lo` to `hi`, both included. -/
structure AddrRange where
  lo : Nat
  hi : Nat
  deriving DecidableEq, Repr

/-- The parameters of 00_scope.md R4 (93_implementation_defined.md U15). The set `Backed` is given by its
complement: every address is backed but those in `unbacked`. Any set of addresses can be written so. -/
structure Config where
  /-- FIRST_CHAR: the first character code with a stored glyph. -/
  firstChar : Nat
  /-- LAST_CHAR: the last character code with a stored glyph. -/
  lastChar : Nat
  /-- MAX_FONTS: the capacity of the font table. -/
  maxFonts : Nat
  /-- The addresses that answer a memory access with an error (R42, R43). -/
  unbacked : List AddrRange
  deriving DecidableEq, Repr

/-- The defaults of 00_scope.md R4: characters 0x21 to 0x7E, 16 fonts, all of memory backed. -/
def Config.standard : Config :=
  { firstChar := 0x21, lastChar := 0x7E, maxFonts := 16, unbacked := [] }

/-- SPACE_CHAR, fixed at 0x20 (00_scope.md R4). -/
def Config.spaceChar : Half := 0x20

/-- The legal parameter values (U15, D27): SPACE_CHAR < FIRST_CHAR ≤ LAST_CHAR ≤ 255 and MAX_FONTS from 1 to 255. -/
def Config.legal (c : Config) : Bool :=
  decide (Config.spaceChar.toNat < c.firstChar) && decide (c.firstChar ≤ c.lastChar) &&
    decide (c.lastChar ≤ 255) && decide (1 ≤ c.maxFonts) && decide (c.maxFonts ≤ 255)

/-- FREE VALUE (U12, D19; notes/assumptions/3.md): the answer to the `n`-th `PanelInit` request since the model
started, where the environment has queued none. No body: nothing can be proved of which answer it is. -/
opaque Config.freePanelAnswer : Nat → PanelAnswer

end Sys2Proof
end

