-- ==== Sys2Proof/Machine/State.lean ====
section
/-!
DEFINITION. The whole state of QARB as plain data (10_state.md R14 to R29, 00_scope.md R9), with what stands around
the block: memory, the panel port's event list, and the inputs the environment has queued.
-/

namespace Sys2Proof.Machine

/-- The two display layers (00_scope.md R4, LAYERS = 2). -/
inductive LayerId where
  | layer0
  | layer1
  deriving DecidableEq, Repr

/-- The two frame-buffer slots of a layer (00_scope.md R4, SLOTS = 2). -/
inductive Slot where
  | slot0
  | slot1
  deriving DecidableEq, Repr

/-- STATE, the top-level state machine (10_state.md R27). -/
inductive TopState where
  | uninit
  | initializing
  | ready
  | failed
  deriving DecidableEq, Repr

/-- What FAULT_CAUSE records (60_exceptions.md R172). Codes 5 to 7 never occur. -/
inductive FaultCause where
  | none
  | illegalCmd
  | illegalOperand
  | busRead
  | busWrite
  deriving DecidableEq, Repr

/-- The DoubleBufferLayer state of one layer (10_state.md R28). -/
structure Layer where
  init : Bool
  front : Slot
  back : Slot
  buf0 : Word
  buf1 : Word
  deriving DecidableEq, Repr

/-- One entry of the font table (10_state.md R29). -/
structure Font where
  name : Word
  desc : Word
  blob : Word
  height : Half
  spaceWidth : Half
  charGap : Half
  deriving DecidableEq, Repr

/-- A table entry after reset: every field 0 (R29, R35). -/
def Font.blank : Font :=
  { name := 0, desc := 0, blob := 0, height := 0, spaceWidth := 0, charGap := 0 }

/-- An event of the panel port (60_exceptions.md R184). -/
inductive PanelEvent where
  | panelInit (width height : Half)
  | setScanout (layer : LayerId) (addr : Word)
  | panelDeinit
  deriving DecidableEq, Repr

/-- The width of a host access: 8, 16 or 32 bits (10_state.md R30, 20_memory.md R41). -/
inductive AccessWidth where
  | byte
  | half
  | word
  deriving DecidableEq, Repr

/-- One input from outside the block (00_scope.md R7, R8): a host access to the register block or, by the host's own
path, to memory (R31), or the reset input (70_reset_and_hazards.md R190). The register space is 0x80 bytes (R13), so
an offset has 7 bits. -/
inductive HostAccess where
  | regRead (offset : BitVec 7) (width : AccessWidth)
  | regWrite (offset : BitVec 7) (width : AccessWidth) (value : Word)
  | memRead (addr : Word) (width : AccessWidth)
  | memWrite (addr : Word) (width : AccessWidth) (value : Word)
  | hardReset
  deriving DecidableEq, Repr

/-- What the host bus answered to the latest access (10_state.md R30). -/
inductive BusResponse where
  /-- no access has been answered. -/
  | none
  /-- a write completed. -/
  | done
  /-- a read returned this value. -/
  | data (value : Word)
  /-- an error response. -/
  | error
  deriving DecidableEq, Repr

/-- Memory: (address, byte) pairs in the canonical form that `Memory.wf` states. -/
abbrev Mem := List Host.Cell

/-- The state of the machine. The fields from `guard` to `faultCmd` are the block's own (10_state.md) and are what a
reset resets; the rest is the world the block acts on and the model's own bookkeeping (notes/assumptions/1.md to 5.md). -/
structure State where
  /-- CTRL.GUARD (R17). -/
  guard : Bool
  /-- Operand register A0 (R14). -/
  a0 : Word
  /-- Operand register A1 (R14). -/
  a1 : Word
  /-- Operand register A2 (R14). -/
  a2 : Word
  /-- Operand register A3 (R14). -/
  a3 : Word
  /-- Operand register A4 (R14). -/
  a4 : Word
  /-- RESULT (R16). -/
  result : Word
  /-- STATUS.RV: RESULT is valid (R16, R18). -/
  rv : Bool
  /-- STATUS.OOB, sticky: a pixel store was dropped by GUARD (R18). -/
  oob : Bool
  /-- STATE (R27). -/
  state : TopState
  /-- PANEL_W (R20). -/
  panelW : Half
  /-- PANEL_H (R20). -/
  panelH : Half
  /-- `L[0]`, with L0BUF0 and L0BUF1 (R28, R21). -/
  layer0 : Layer
  /-- `L[1]`, with L1BUF0 and L1BUF1 (R28, R21). -/
  layer1 : Layer
  /-- SCAN0 (R22). -/
  scan0 : Word
  /-- SCAN1 (R22). -/
  scan1 : Word
  /-- COLOR, the current draw colour (R24). -/
  color : Half
  /-- TVALID (R25). -/
  tvalid : Bool
  /-- TARGET (R25). -/
  target : Word
  /-- FVALID (R26). -/
  fvalid : Bool
  /-- FCUR (R26). -/
  fcur : Nat
  /-- FCOUNT (R29). -/
  fcount : Nat
  /-- The font table FT[0 .. MAX_FONTS-1] (R29). -/
  fonts : List Font
  /-- STATUS.FAULT, sticky: a fault is latched (R18, 60_exceptions.md R174). -/
  faulted : Bool
  /-- FAULT_CAUSE (R23). -/
  faultCause : FaultCause
  /-- FAULT_ADDR (R23). -/
  faultAddr : Word
  /-- FAULT_CMD (R23). -/
  faultCmd : Word
  /-- The memory space (R31). -/
  mem : Mem
  /-- The panel-port events emitted so far, oldest first (00_scope.md R9, 60_exceptions.md R184). -/
  events : List PanelEvent
  /-- The parameters of 00_scope.md R4. No step changes them. -/
  cfg : Config
  /-- MODEL'S OWN: the accesses the host has still to make, in order (00_scope.md R8). -/
  pending : List HostAccess
  /-- MODEL'S OWN: the answers the panel driver has ready for the next `PanelInit` requests (U12). -/
  panelAnswers : List PanelAnswer
  /-- MODEL'S OWN: how many `PanelInit` requests have been made; the free answer is read at it (U12). -/
  panelInits : Nat
  /-- MODEL'S OWN: the host bus's answer to the latest access (R30). -/
  response : BusResponse
  deriving DecidableEq, Repr

/-- Why `step` stops with a fault. There is no such reason: the block's only trap-like event, the fault latch
(60_exceptions.md R174), is entered as a next state, and the spec leaves nothing the host can do undefined (R192). The
type has no constructor on purpose (safe: nothing is cut off). -/
inductive Fault where
  deriving DecidableEq, Repr

/-- Why `exec` refuses an instruction. -/
inductive Refusal where
  /-- Raised by an arm of `exec` whose instruction has no meaning yet; safe. No arm raises it: all 23 commands have
  their meaning. -/
  | notModelled (mnemonic : String)
  deriving DecidableEq, Repr

/-- The outcome of a command or of a step. -/
abbrev Result := Host.Outcome State Fault Refusal

/-- A layer after reset: not initialised, front slot 0, back slot 1, both bases 0 (10_state.md R28, R35). -/
def Layer.reset : Layer :=
  { init := false, front := .slot0, back := .slot1, buf0 := 0, buf1 := 0 }

/-- The machine right after reset, with parameters `cfg`: the table of 10_state.md R35, memory with nothing listed, no
event emitted, no input queued. -/
def State.resetWith (cfg : Config) : State :=
  { guard := false
    a0 := 0, a1 := 0, a2 := 0, a3 := 0, a4 := 0
    result := 0, rv := false, oob := false
    state := .uninit
    panelW := 800, panelH := 480
    layer0 := Layer.reset, layer1 := Layer.reset
    scan0 := 0, scan1 := 0
    color := 0
    tvalid := false, target := 0
    fvalid := false, fcur := 0, fcount := 0
    fonts := List.replicate cfg.maxFonts Font.blank
    faulted := false, faultCause := .none, faultAddr := 0, faultCmd := 0
    mem := []
    events := []
    cfg := cfg
    pending := [], panelAnswers := [], panelInits := 0
    response := .none }

/-- The machine right after reset, with the default parameters of 00_scope.md R4. -/
def State.reset : State := State.resetWith Config.standard

end Sys2Proof.Machine
end

