-- ==== Sys2Proof/Machine/Flags.lean ====
section
/-!
DEFINITION. The condition codes of the block, STATUS (10_state.md R18), its codes, and the packed views CTRL and
FONTSEL (R17, R26).
-/

namespace Sys2Proof.Machine

/-- A flag at bit `n` of a 32-bit register. -/
def flagAt (n : Nat) (b : Bool) : Word := if b then 1#32 <<< n else 0#32

/-- STATUS bits 4 and 5 show the front slot's number (R18). -/
def isSlot1 : Slot → Bool
  | .slot0 => false
  | .slot1 => true

/-- The encoding of STATE (R27). -/
def topCode : TopState → BitVec 2
  | .uninit => 0
  | .initializing => 1
  | .ready => 2
  | .failed => 3

/-- The codes of FAULT_CAUSE (60_exceptions.md R172). -/
def causeCode : FaultCause → BitVec 3
  | .none => 0
  | .illegalCmd => 1
  | .illegalOperand => 2
  | .busRead => 3
  | .busWrite => 4

/-- STATUS as the host reads it: STATE in bits 1:0, the flags above it, bits 31:11 zero (R18). -/
def statusWord (s : State) : Word :=
  (topCode s.state).setWidth 32 ||| flagAt 2 s.layer0.init ||| flagAt 3 s.layer1.init |||
    flagAt 4 (isSlot1 s.layer0.front) ||| flagAt 5 (isSlot1 s.layer1.front) ||| flagAt 6 s.tvalid |||
    flagAt 7 s.fvalid ||| flagAt 8 s.rv ||| flagAt 9 s.oob ||| flagAt 10 s.faulted

/-- CTRL as the host reads it: GUARD in bit 0, all else 0 (R17). -/
def ctrlWord (s : State) : Word := flagAt 0 s.guard

/-- FONTSEL: `{0[31:16], FCOUNT[15:8], FCUR[7:0]}`, FCUR reading 0 when FVALID is 0 (R26). -/
def fontselWord (s : State) : Word :=
  ((BitVec.ofNat 8 s.fcount).setWidth 32 <<< 8) ||| (if s.fvalid then (BitVec.ofNat 8 s.fcur).setWidth 32 else 0#32)

/-- Bit 9 of a value written to STATUS: write 1 to clear OOB (R18, D45). -/
def clearsOob (v : Word) : Bool := v.getLsbD 9

/-- Bit 31 of a value written to CTRL: SRST (R17). -/
def softResets (v : Word) : Bool := v.getLsbD 31

/-- Bit 0 of a value written to CTRL: GUARD (R17). -/
def guardBit (v : Word) : Bool := v.getLsbD 0

end Sys2Proof.Machine
end

