-- ==== Sys2Proof/Machine/Operands.lean ====
section
/-!
DEFINITION. How every operand of a command is formed (30_encoding.md R63) and the packed data formats
(10_state.md R10, R12).
-/

namespace Sys2Proof.Machine

/-- A Coordinate (10_state.md R12). -/
structure Coord where
  x : Half
  y : Half
  deriving DecidableEq, Repr

/-- `x = c[15:0]`, `y = c[31:16]` (R12, D8). -/
def coordOf (c : Word) : Coord := { x := c.extractLsb' 0 16, y := c.extractLsb' 16 16 }

/-- The Coordinate literal `P(x, y)`: `x | (y << 16)` (R68). -/
def coordWord (p : Coord) : Word := p.y ++ p.x

/-- A layer operand: 0 or 1, nothing else names a layer (R63, D25). -/
def layerOperand (imm : Half) : Option LayerId :=
  if imm = 0 then some .layer0 else if imm = 1 then some .layer1 else none

/-- The `imm16` that names a layer (R63). -/
def layerImm : LayerId → Half
  | .layer0 => 0
  | .layer1 => 1

/-- Alpha, bits 15:12 of a Pixel (R10, D7). -/
def pixelAlpha (v : Half) : BitVec 4 := v.extractLsb' 12 4

/-- Red, bits 11:8 (R10, D7). -/
def pixelRed (v : Half) : BitVec 4 := v.extractLsb' 8 4

/-- Green, bits 7:4 (R10, D7). -/
def pixelGreen (v : Half) : BitVec 4 := v.extractLsb' 4 4

/-- Blue, bits 3:0 (R10, D7). -/
def pixelBlue (v : Half) : BitVec 4 := v.extractLsb' 0 4

/-- The Pixel of four components, each masked to its low 4 bits (R10). -/
def pixelOfComponents (a r g b : Byte) : Half :=
  a.extractLsb' 0 4 ++ r.extractLsb' 0 4 ++ g.extractLsb' 0 4 ++ b.extractLsb' 0 4

/-- The colour components in A0: `a = A0[31:24]`, `r = A0[23:16]`, `g = A0[15:8]`, `b = A0[7:0]` (R63, R86). -/
def colorOperand (w : Word) : Half :=
  pixelOfComponents (w.extractLsb' 24 8) (w.extractLsb' 16 8) (w.extractLsb' 8 8) (w.extractLsb' 0 8)

/-- The low half of an operand register: `height`, `charGap` (R63). -/
def lowHalf (w : Word) : Half := w.extractLsb' 0 16

/-- The high half of an operand register: `spaceWidth`, FONT_ADD's reserved field (R63, R66). -/
def highHalf (w : Word) : Half := w.extractLsb' 16 16

/-- The font FONT_ADD's operands describe (R63, 42_glyph_engine.md R141). -/
def fontOperand (s : State) : Font :=
  { name := s.a0, desc := s.a1, blob := s.a2, height := lowHalf s.a3, spaceWidth := highHalf s.a3,
    charGap := lowHalf s.a4 }

end Sys2Proof.Machine
end

