-- ==== Sys2Proof/Machine/Ops.lean ====
section
/-!
DEFINITION. The shared operations: memory and its byte order, the memory port (20_memory.md R42, R43), fault entry
(60_exceptions.md R174) and the reset that returns from it (R177), the panel port (R184), the layer markers, and the
addressing unit (20_memory.md R52).
-/

namespace Sys2Proof.Machine

/-! ### Memory as a canonical list -/

/-- What an address nothing has written reads as (notes/assumptions/2.md; the spec leaves it open, U4). -/
def unwrittenByte : Byte := 0

/-- The byte at address `a`. -/
def Memory.read : Mem → Nat → Byte
  | [], _ => unwrittenByte
  | (k, b) :: m, a => if a = k then b else Memory.read m a

/-- Store `b` at address `a`, keeping the canonical form: a byte that equals `unwrittenByte` is not listed. -/
def Memory.write : Mem → Nat → Byte → Mem
  | [], a, b => if b = unwrittenByte then [] else [(a, b)]
  | (k, c) :: m, a, b =>
    if a < k then (if b = unwrittenByte then (k, c) :: m else (a, b) :: (k, c) :: m)
    else if a = k then (if b = unwrittenByte then m else (a, b) :: m)
    else (k, c) :: Memory.write m a b

/-- The addresses are at least `lo`, rise strictly and stay below 2^32, and no entry holds `unwrittenByte`. -/
def Memory.risingFrom : Nat → Mem → Bool
  | _, [] => true
  | lo, (k, b) :: m =>
    decide (lo ≤ k) && decide (k < 2 ^ 32) && decide (b ≠ unwrittenByte) && Memory.risingFrom (k + 1) m

/-- The canonical form of memory over the 2^32 byte addresses of 10_state.md R31. -/
def Memory.wf (m : Mem) : Bool := Memory.risingFrom 0 m

/-- The byte memory holds at byte address `a`. -/
def State.byteAt (s : State) (a : Word) : Byte := Memory.read s.mem a.toNat

/-- Memory with the byte at `a` replaced. -/
def State.setByte (a : Word) (b : Byte) (s : State) : State := { s with mem := Memory.write s.mem a.toNat b }

/-- The low byte of a 16-bit value. -/
def lowByte (v : Half) : Byte := v.extractLsb' 0 8

/-- The high byte of a 16-bit value. -/
def highByte (v : Half) : Byte := v.extractLsb' 8 8

/-- Little-endian: the byte at the lower address is the low byte (20_memory.md R41). -/
def joinBytes (lo hi : Byte) : Half := hi ++ lo

/-- The 16-bit little-endian value at `a` (20_memory.md R41). -/
def State.halfAt (s : State) (a : Word) : Half := joinBytes (s.byteAt a) (s.byteAt (a + 1))

/-- Memory with the 16-bit value `v` stored little-endian at `a` (20_memory.md R41). -/
def State.setHalf (a : Word) (v : Half) (s : State) : State :=
  (s.setByte a (lowByte v)).setByte (a + 1) (highByte v)

/-! ### The flow of one command -/

/-- How far a command's execution got: it goes on with a value and a state, or a memory access got an error response
and the command ends where it stands (60_exceptions.md R175). -/
inductive Flow (α : Type) where
  | go (a : α) (s : State)
  | trap (cause : FaultCause) (addr : Word) (s : State)

/-- Go on with `k` unless the command has ended. -/
def Flow.bind {α β : Type} (m : Flow α) (k : α → State → Flow β) : Flow β :=
  match m with
  | .go a s => k a s
  | .trap c addr s => .trap c addr s

/-- `for b in bs`, carrying an accumulator, in the list's order. -/
def Flow.fold {α β : Type} (f : β → α → State → Flow α) : List β → α → State → Flow α
  | [], a, s => .go a s
  | b :: bs, a, s => (f b a s).bind (Flow.fold f bs)

/-- `for b in bs`, with no accumulator. -/
def Flow.each {β : Type} (f : β → State → Flow Unit) (bs : List β) (s : State) : Flow Unit :=
  Flow.fold (fun b _ s => f b s) bs () s

/-! ### Taking a fault, and the way out of it -/

/-- Fault entry, `raise Fault(cause, addr)` inside the command `w`: the three fault registers and STATUS.FAULT are
written and nothing else changes (60_exceptions.md R174). -/
def raiseFault (cause : FaultCause) (addr w : Word) (s : State) : State :=
  { s with faultCause := cause, faultAddr := addr, faultCmd := w, faulted := true }

/-- Reset of the block, the only way out of a latched fault (60_exceptions.md R177; 70_reset_and_hazards.md R190,
R191): every element of 10_state.md R35 gets its reset value; memory, the events already emitted and everything
outside the block stay. -/
def resetBlock (s : State) : State :=
  { State.resetWith s.cfg with
    mem := s.mem
    events := s.events
    pending := s.pending
    panelAnswers := s.panelAnswers
    panelInits := s.panelInits
    response := s.response }

/-- The end of command `i`: normal, or by fault entry with FAULT_CMD the word of `i` (R174). Either way the CMD write
completes and the machine goes on. -/
def Flow.finish (i : Instr) (f : Flow Unit) : Result :=
  match f with
  | .go _ s => .next s
  | .trap cause addr s => .next (raiseFault cause addr (encode i) s)

/-! ### The memory port -/

/-- `Backed(addr)`: a memory access at this address answers without error (00_scope.md R4). -/
def Config.isBacked (c : Config) (a : Word) : Bool :=
  !(c.unbacked.any fun r => decide (r.lo ≤ a.toNat) && decide (a.toNat ≤ r.hi))

/-- `Backed(addr)` under the state's parameters. -/
def State.backed (s : State) (a : Word) : Bool := Config.isBacked s.cfg a

/-- `MemRead(addr, 1)` (20_memory.md R42). -/
def memRead (a : Word) (s : State) : Flow Byte :=
  if s.backed a then .go (s.byteAt a) s else .trap .busRead a s

/-- `MemWrite(addr, 2, v)` (20_memory.md R43). -/
def memWrite (a : Word) (v : Half) (s : State) : Flow Unit :=
  if s.backed a && s.backed (a + 1) then .go () (s.setHalf a v) else .trap .busWrite a s

/-! ### The addressing unit -/

/-- In range: `x < PANEL_W` and `y < PANEL_H` (10_state.md R12). -/
def State.inRange (s : State) (p : Coord) : Bool :=
  decide (p.x.toNat < s.panelW.toNat) && decide (p.y.toNat < s.panelH.toNat)

/-- The pixel index `x + y * PANEL_W`, exact (20_memory.md R48, R52). -/
def State.pixelIndex (s : State) (p : Coord) : Nat := p.x.toNat + p.y.toNat * s.panelW.toNat

/-- The byte address of the pixel with this index in the draw target, mod 2^32 (20_memory.md R50). -/
def State.indexAddr (s : State) (idx : Nat) : Word := s.target + BitVec.ofNat 32 (2 * idx)

/-- The byte address `PixelWrite` stores to (20_memory.md R52). -/
def State.pixelAddr (s : State) (p : Coord) : Word := s.indexAddr (s.pixelIndex p)

/-- `PixelWrite(x, y)` (20_memory.md R52): with GUARD on, an out-of-range store is dropped and OOB set. -/
def pixelWrite (p : Coord) (s : State) : Flow Unit :=
  if s.guard && !(s.inRange p) then .go () { s with oob := true }
  else memWrite (s.pixelAddr p) s.color s

/-- `PixelWrite` of each pixel, in the list's order. -/
def storePixels (ps : List Coord) (s : State) : Flow Unit := Flow.each pixelWrite ps s

/-! ### Ranges and corners -/

/-- `lo, lo+1, ..., hi-1`, empty when `hi ≤ lo` (00_scope.md R5). -/
def halfOpen (lo hi : Nat) : List Nat := List.range' lo (hi - lo)

/-- `for i in lo..hi`, the closed range (00_scope.md R5). -/
def closed (lo hi : Nat) : List Nat := halfOpen lo (hi + 1)

/-- The corners of 41_rasterizer.md R101: `xs`, `xe`, `ys`, `ye`. -/
structure Corners where
  xs : Nat
  xe : Nat
  ys : Nat
  ye : Nat
  deriving DecidableEq, Repr

/-- Corner normalization (41_rasterizer.md R101). -/
def normalize (a b : Coord) : Corners :=
  { xs := min a.x.toNat b.x.toNat, xe := max a.x.toNat b.x.toNat
    ys := min a.y.toNat b.y.toNat, ye := max a.y.toNat b.y.toNat }

/-- The coordinate with these components, each taken mod 2^16 (41_rasterizer.md R100). -/
def pixelAt (x y : Nat) : Coord := { x := BitVec.ofNat 16 x, y := BitVec.ofNat 16 y }

/-! ### The panel port -/

/-- The answer the next `PanelInit` gets: the environment's queued one, else the free value (U12). -/
def State.panelAnswer (s : State) : PanelAnswer :=
  match s.panelAnswers with
  | a :: _ => a
  | [] => Config.freePanelAnswer s.panelInits

/-- `PanelInit(PANEL_W, PANEL_H)`: the event, and the answer used up (60_exceptions.md R184). -/
def requestPanelInit (s : State) : State :=
  { s with
    events := s.events ++ [.panelInit s.panelW s.panelH]
    panelAnswers := s.panelAnswers.tail
    panelInits := s.panelInits + 1 }

/-- `SetScanout(l, addr)`: the event, and its mirror SCAN_l (60_exceptions.md R184, 10_state.md R22). -/
def setScanout (l : LayerId) (addr : Word) (s : State) : State :=
  match l with
  | .layer0 => { s with events := s.events ++ [.setScanout .layer0 addr], scan0 := addr }
  | .layer1 => { s with events := s.events ++ [.setScanout .layer1 addr], scan1 := addr }

/-- `PanelDeinit()` (60_exceptions.md R184). -/
def panelDeinit (s : State) : State := { s with events := s.events ++ [.panelDeinit] }

/-! ### Layers, result, registry -/

/-- `L[l]` (10_state.md R28). -/
def State.layer (s : State) : LayerId → Layer
  | .layer0 => s.layer0
  | .layer1 => s.layer1

/-- Replace `L[l]`. -/
def State.setLayer (l : LayerId) (x : Layer) (s : State) : State :=
  match l with
  | .layer0 => { s with layer0 := x }
  | .layer1 => { s with layer1 := x }

/-- `L[l].buf[m]` (10_state.md R21). -/
def Layer.buf (x : Layer) : Slot → Word
  | .slot0 => x.buf0
  | .slot1 => x.buf1

/-- `L[l].buf[L[l].back]`, the back buffer (40_layer_and_compositor.md R84). -/
def Layer.backBuffer (x : Layer) : Word := x.buf x.back

/-- `L[l].buf[L[l].front]`, the front buffer (40_layer_and_compositor.md R88). -/
def Layer.frontBuffer (x : Layer) : Word := x.buf x.front

/-- `RESULT <- v; RV <- rv` (10_state.md R16). -/
def State.setResult (v : Word) (rv : Bool) (s : State) : State := { s with result := v, rv := rv }

/-- `FCOUNT <- 0; FVALID <- 0; FCUR <- 0` (42_glyph_engine.md R140). -/
def clearRegistry (s : State) : State := { s with fcount := 0, fvalid := false, fcur := 0 }

/-- `FT[FCUR]` (10_state.md R26, R29). -/
def State.currentFont (s : State) : Font := s.fonts.getD s.fcur Font.blank

/-- The command's word is illegal as an operand value (30_encoding.md R65): ILLEGAL_CMD, nothing else. -/
def illegalCommand (w : Word) (s : State) : State := raiseFault .illegalCmd 0 w s

end Sys2Proof.Machine
end

