-- ==== Sys2Proof/Machine/Compositor.lean ====
section
/-!
DEFINITION. The layer, flip and compositor commands (spec 40_layer_and_compositor.md): NOP, INIT, DEINIT,
SET_DRAW_BUFFER, SET_DRAW_COLOR, SET_DRAW_COLOR_ARGB, QUERY_BACK, FLIP.
-/

namespace Sys2Proof.Machine

/-- Run a format L command on the layer its operand names. An operand that names no layer makes the command's word an
illegal one, whose execution raises ILLEGAL_CMD (30_encoding.md R65); no decoded instruction has such an operand. -/
def onLayer (i : Instr) (imm : Half) (run : LayerId → State → State) (s : State) : Result :=
  match layerOperand imm with
  | some l => .next (run l s)
  | none => .next (illegalCommand (encode i) s)

/-- NOP (R80). -/
def execNop (s : State) : Result := .next s

/-- One layer's part of a successful INIT (R82): markers to front 0 and back 1, initialised, scanout at slot 0. -/
def initLayer (l : LayerId) (s : State) : State :=
  let x := s.layer l
  setScanout l x.buf0 (s.setLayer l { x with init := true, front := .slot0, back := .slot1 })

/-- INIT once STATE is INITIALIZING and the panel has answered (R82). -/
def finishInit (r : PanelAnswer) (s : State) : State :=
  match r with
  | .fail => ({ s with state := .failed }).setResult 1 true
  | .ok =>
    ({ clearRegistry (initLayer .layer1 (initLayer .layer0 s)) with state := .ready }).setResult 0 true

/-- INIT (R82). -/
def execInit (s : State) : Result :=
  .next (if s.state = .ready then s.setResult 0 true
    else finishInit s.panelAnswer (requestPanelInit { s with state := .initializing }))

/-- The layers and the panel when DEINIT leaves READY (R83). -/
def leaveReady (s : State) : State :=
  if s.state = .ready then
    panelDeinit { s with layer0 := { s.layer0 with init := false }, layer1 := { s.layer1 with init := false } }
  else s

/-- DEINIT (R83). -/
def execDeinit (s : State) : Result :=
  .next (({ leaveReady (clearRegistry s) with tvalid := false, target := 0, state := .uninit }).setResult 0 true)

/-- SET_DRAW_BUFFER's effect for layer `l` (R84). -/
def selectTarget (l : LayerId) (s : State) : State :=
  if (s.layer l).init then { s with target := (s.layer l).backBuffer, tvalid := true }
  else { s with target := 0, tvalid := false }

/-- SET_DRAW_BUFFER (R84). -/
def execSetDrawBuffer (imm : Half) (s : State) : Result := onLayer (.setDrawBuffer imm) imm selectTarget s

/-- SET_DRAW_COLOR (R85). -/
def execSetDrawColor (raw : Half) (s : State) : Result := .next { s with color := raw }

/-- SET_DRAW_COLOR_ARGB (R86). -/
def execSetDrawColorArgb (s : State) : Result := .next { s with color := colorOperand s.a0 }

/-- QUERY_BACK's effect for layer `l` (R87). -/
def reportBack (l : LayerId) (s : State) : State :=
  if (s.layer l).init then s.setResult (s.layer l).backBuffer true else s.setResult 0 false

/-- QUERY_BACK (R87). -/
def execQueryBack (imm : Half) (s : State) : Result := onLayer (.queryBack imm) imm reportBack s

/-- FLIP's effect for layer `l` (R88): swap the markers, then program the new front buffer. -/
def flipLayer (l : LayerId) (s : State) : State :=
  let x := s.layer l
  if x.init then
    let y := { x with front := x.back, back := x.front }
    setScanout l y.frontBuffer (s.setLayer l y)
  else s

/-- FLIP (R88). -/
def execFlip (imm : Half) (s : State) : Result := onLayer (.flip imm) imm flipLayer s

end Sys2Proof.Machine
end

