-- ==== Sys2Proof/Machine/Glyph.lean ====
section
/-!
DEFINITION. The glyph engine and the font registry (spec 42_glyph_engine.md): FONT_CLEAR, FONT_ADD, SET_FONT_INDEX,
SET_FONT_NAME, MEASURE_CHAR, MEASURE_STR, DRAW_CHAR, DRAW_STR_L, DRAW_STR_C, DRAW_STR_R.
-/

namespace Sys2Proof.Machine

/-! ### Registry commands -/

/-- FONT_CLEAR (R140). -/
def execFontClear (s : State) : Result := .next (clearRegistry s)

/-- FONT_ADD once its operands are legal (R141). -/
def addFont (f : Font) (s : State) : State :=
  if s.fcount = s.cfg.maxFonts then s.setResult 0 false
  else
    ({ s with fonts := s.fonts.set s.fcount f, fcount := s.fcount + 1 }).setResult (BitVec.ofNat 32 s.fcount) true

/-- FONT_ADD (R141). -/
def execFontAdd (s : State) : Result :=
  .next (if highHalf s.a4 ≠ 0 then raiseFault .illegalOperand 0 (encode .fontAdd) s else addFont (fontOperand s) s)

/-- SET_FONT_INDEX (R143). -/
def execSetFontIndex (idx : Half) (s : State) : Result :=
  .next (if idx.toNat < s.fcount then { s with fcur := idx.toNat, fvalid := true } else s)

/-- The lowest index of a registered font with this name key (R144). -/
def findFont (s : State) (key : Word) : Option Nat := (s.fonts.take s.fcount).findIdx? fun f => f.name == key

/-- SET_FONT_NAME (R144). -/
def execSetFontName (s : State) : Result :=
  .next (match findFont s s.a0 with
    | some i => { s with fcur := i, fvalid := true }
    | none => s)

/-! ### Characters and descriptors -/

/-- The character classes of R134. -/
inductive CharClass where
  | space
  | supported
  | unsupported
  deriving DecidableEq, Repr

/-- The class of a character code, tested in R134's order. -/
def classify (c : Config) (ch : Half) : CharClass :=
  if ch = Config.spaceChar then .space
  else if c.firstChar ≤ ch.toNat ∧ ch.toNat ≤ c.lastChar then .supported
  else .unsupported

/-- The byte address of the descriptor of `ch` (R132). -/
def descAddr (c : Config) (f : Font) (ch : Half) : Word := f.desc + BitVec.ofNat 32 (4 * (ch.toNat - c.firstChar))

/-- Desc(f, ch): the width and the bitmap offset, four byte reads in ascending order (R135). -/
def readDesc (f : Font) (ch : Half) (s : State) : Flow (Half × Half) :=
  let d := descAddr s.cfg f ch
  (memRead d s).bind fun b0 s => (memRead (d + 1) s).bind fun b1 s =>
  (memRead (d + 2) s).bind fun b2 s => (memRead (d + 3) s).bind fun b3 s =>
  .go (joinBytes b0 b1, joinBytes b2 b3) s

/-- Width(f, ch): the advance width of one character, without gap (R136). -/
def charWidth (f : Font) (ch : Half) (s : State) : Flow Half :=
  match classify s.cfg ch with
  | .space => .go f.spaceWidth s
  | .unsupported => .go 0 s
  | .supported => (readDesc f ch s).bind fun d s => .go d.1 s

/-- A string byte as a character code (R63, R147). -/
def charOf (b : Byte) : Half := b.setWidth 16

/-! ### Measuring -/

/-- One round of Measure: character `i` of `len`, its width, and the gap if it is not the last (R147). -/
def measureStep (f : Font) (addr : Word) (len : Nat) (i : Nat) (m : Word) (s : State) : Flow Word :=
  (memRead (addr + BitVec.ofNat 32 i) s).bind fun b s => (charWidth f (charOf b) s).bind fun w s =>
  .go (if i < len - 1 then m + w.setWidth 32 + f.charGap.setWidth 32 else m + w.setWidth 32) s

/-- Measure(f, addr, len) (R147). -/
def measure (f : Font) (addr : Word) (len : Nat) (s : State) : Flow Word :=
  Flow.fold (measureStep f addr len) (List.range len) 0 s

/-- MEASURE_CHAR (R145). -/
def execMeasureChar (ch : Half) (s : State) : Result :=
  if s.fvalid then
    Flow.finish (.measureChar ch)
      ((charWidth s.currentFont ch s).bind fun w s => .go () (s.setResult (w.setWidth 32) true))
  else .next (s.setResult 0 false)

/-- MEASURE_STR (R146). -/
def execMeasureStr (len : Half) (s : State) : Result :=
  if s.fvalid then
    Flow.finish (.measureStr len)
      ((measure s.currentFont s.a1 len.toNat s).bind fun m s => .go () (s.setResult m true))
  else .next (s.setResult 0 false)

/-! ### Drawing -/

/-- `rb = (w + 7) >> 3`, the bytes of one bitmap row (R133). -/
def rowBytes (w : Half) : Nat := (w.toNat + 7) / 8

/-- The (row, byte) pairs of a glyph's bitmap, rows top to bottom, bytes left to right (R150). -/
def bitmapBytes (h rb : Nat) : List (Nat × Nat) :=
  (List.range h).flatMap fun r => (List.range rb).map fun k => (r, k)

/-- The pixels that the set bits of byte `k` of row `r` store, left to right, most significant bit first (R133,
R150). -/
def bytePixels (px py w : Half) (r k : Nat) (b : Byte) : List Coord :=
  ((List.range 8).filter fun j => decide (8 * k + j < w.toNat) && b.getLsbD (7 - j)).map fun j =>
    { x := px + BitVec.ofNat 16 (8 * k + j), y := py + BitVec.ofNat 16 r }

/-- One bitmap byte: read it, then store its set bits (R150). -/
def drawByte (g : Word) (px py w : Half) (rk : Nat × Nat) (s : State) : Flow Unit :=
  (memRead (g + BitVec.ofNat 32 (rk.1 * rowBytes w + rk.2)) s).bind fun b s =>
    storePixels (bytePixels px py w rk.1 rk.2 b) s

/-- The bitmap of a glyph of width `w` at bitmap offset `off`, drawn with its top-left pixel at `(px, py)` (R150). -/
def drawBitmap (f : Font) (px py w off : Half) (s : State) : Flow Unit :=
  Flow.each (drawByte (f.blob + off.setWidth 32) px py w) (bitmapBytes f.height.toNat (rowBytes w)) s

/-- DrawGlyph(f, px, py, ch): the mask blit; the value is the advance width (R150). -/
def drawGlyph (f : Font) (px py ch : Half) (s : State) : Flow Half :=
  match classify s.cfg ch with
  | .space => .go f.spaceWidth s
  | .unsupported => .go 0 s
  | .supported =>
    (readDesc f ch s).bind fun d s => (drawBitmap f px py d.1 d.2 s).bind fun _ s => .go d.1 s

/-- One round of DrawStr: character `i` at cursor `cx`, and the next cursor (R155). -/
def drawStrStep (f : Font) (y0 : Half) (addr : Word) (i : Nat) (cx : Half) (s : State) : Flow Half :=
  (memRead (addr + BitVec.ofNat 32 i) s).bind fun b s => (drawGlyph f cx y0 (charOf b) s).bind fun w s =>
  .go (cx + w + f.charGap) s

/-- DrawStr(f, x0, y0, addr, len); the final cursor is discarded (R155). -/
def drawStr (f : Font) (x0 y0 : Half) (addr : Word) (len : Nat) (s : State) : Flow Unit :=
  (Flow.fold (drawStrStep f y0 addr) (List.range len) x0 s).bind fun _ s => .go () s

/-- The gate of the text commands: with no target or no font nothing happens (R152, R171). -/
def withText (s : State) (r : Result) : Result := if s.tvalid && s.fvalid then r else .next s

/-- DRAW_CHAR (R152). -/
def execDrawChar (ch : Half) (s : State) : Result :=
  let pos := coordOf s.a0
  withText s (Flow.finish (.drawChar ch) ((drawGlyph s.currentFont pos.x pos.y ch s).bind fun _ s => .go () s))

/-- DRAW_STR_L (R156). -/
def execDrawStrL (len : Half) (s : State) : Result :=
  let pos := coordOf s.a0
  withText s (Flow.finish (.drawStrL len) (drawStr s.currentFont pos.x pos.y s.a1 len.toNat s))

/-- The start of a centred string: `u16(pos.x - (m >> 1))` (R160, R137). -/
def centredStart (x : Half) (m : Word) : Half := x - (m >>> 1).setWidth 16

/-- The start of a right-aligned string: `u16(pos.x - m)` (R161, R137). -/
def rightStart (x : Half) (m : Word) : Half := x - m.setWidth 16

/-- DRAW_STR_C (R160). -/
def execDrawStrC (len : Half) (s : State) : Result :=
  let pos := coordOf s.a0
  let f := s.currentFont
  withText s (Flow.finish (.drawStrC len)
    ((measure f s.a1 len.toNat s).bind fun m s => drawStr f (centredStart pos.x m) pos.y s.a1 len.toNat s))

/-- DRAW_STR_R (R161). -/
def execDrawStrR (len : Half) (s : State) : Result :=
  let pos := coordOf s.a0
  let f := s.currentFont
  withText s (Flow.finish (.drawStrR len)
    ((measure f s.a1 len.toNat s).bind fun m s => drawStr f (rightStart pos.x m) pos.y s.a1 len.toNat s))

end Sys2Proof.Machine
end

