-- ==== Sys2Proof/Machine/Raster.lean ====
section
/-!
DEFINITION. The rasterizer commands (spec 41_rasterizer.md): CLEAR, DRAW_PIXEL, DRAW_LINE with HLine, VLine and
ALine, DRAW_RECT, DRAW_RECT_FILL. A command computes the pixels it stores, in store order, and stores them through the
addressing unit.
-/

namespace Sys2Proof.Machine

/-- The target gate (R102): with no target selected the command makes no access and changes nothing. -/
def withTarget (s : State) (r : Result) : Result := if s.tvalid then r else .next s

/-- The stores of CLEAR, index by index (R104); CLEAR does not go through `PixelWrite`. -/
def clearPixels (s : State) : Flow Unit :=
  Flow.each (fun i s => memWrite (s.indexAddr i) s.color s) (List.range (s.panelW.toNat * s.panelH.toNat)) s

/-- CLEAR (R104). -/
def execClear (s : State) : Result := withTarget s (Flow.finish .clear (clearPixels s))

/-- DRAW_PIXEL (R105). -/
def execDrawPixel (s : State) : Result := withTarget s (Flow.finish .drawPixel (pixelWrite (coordOf s.a0) s))

/-- HLine: `y` fixed, ascending `x` (R107). -/
def hLine (a b : Coord) : List Coord :=
  let c := normalize a b
  (closed c.xs c.xe).map fun x => { x := BitVec.ofNat 16 x, y := a.y }

/-- VLine: `x` fixed, ascending `y` (R108). -/
def vLine (a b : Coord) : List Coord :=
  let c := normalize a b
  (closed c.ys c.ye).map fun y => { x := a.x, y := BitVec.ofNat 16 y }

/-- The initial numerator NUM0(M) = floor(M/2) (00_scope.md R4, D14). -/
def num0 (m : Nat) : Nat := m / 2

/-- Step 1 of ALine: the endpoint with the smaller `x`, ties by the smaller `y`, comes first (R109, D16). -/
def orderEnds (a b : Coord) : Coord × Coord :=
  if a.x.toNat < b.x.toNat ∨ (a.x = b.x ∧ a.y.toNat ≤ b.y.toNat) then (a, b) else (b, a)

/-- `u16(y + sy)`, with `sy` +1 when `up`, else -1 (R109). -/
def stepY (up : Bool) (y : Half) : Half := if up then y + 1 else y - 1

/-- Step 2 of ALine with `x` the major axis: `n` pixels still to come, numerator `num` (R109). -/
def walkX (den add : Nat) (up : Bool) : (n num : Nat) → (x y : Half) → List Coord
  | 0, _, _, _ => []
  | n + 1, num, x, y =>
    { x := x, y := y } ::
      (if den ≤ num + add then walkX den add up n (num + add - den) (x + 1) (stepY up y)
       else walkX den add up n (num + add) (x + 1) y)

/-- Step 2 of ALine with `y` the major axis (R109). -/
def walkY (den add : Nat) (up : Bool) : (n num : Nat) → (x y : Half) → List Coord
  | 0, _, _, _ => []
  | n + 1, num, x, y =>
    { x := x, y := y } ::
      (if den ≤ num + add then walkY den add up n (num + add - den) (x + 1) (stepY up y)
       else walkY den add up n (num + add) x (stepY up y))

/-- ALine (R109). -/
def aLine (a b : Coord) : List Coord :=
  let s := (orderEnds a b).1
  let e := (orderEnds a b).2
  let dx := e.x.toNat - s.x.toNat
  let dy := max e.y.toNat s.y.toNat - min e.y.toNat s.y.toNat
  let up := decide (s.y.toNat ≤ e.y.toNat)
  if dy ≤ dx then walkX dx dy up (dx + 1) (num0 dx) s.x s.y
  else walkY dy dx up (dy + 1) (num0 dy) s.x s.y

/-- The pixels of DRAW_LINE, in store order (R106). -/
def linePixels (a b : Coord) : List Coord :=
  if a.y = b.y then hLine a b else if a.x = b.x then vLine a b else aLine a b

/-- DRAW_LINE (R106). -/
def execDrawLine (s : State) : Result :=
  withTarget s (Flow.finish .drawLine (storePixels (linePixels (coordOf s.a0) (coordOf s.a1)) s))

/-- The pixels of DRAW_RECT, in store order: top row, bottom row, left column, right column (R112, D17). -/
def rectPixels (a b : Coord) : List Coord :=
  let c := normalize a b
  let row (y : Nat) : List Coord := (closed c.xs c.xe).map fun x => pixelAt x y
  let column (x : Nat) : List Coord := (halfOpen (c.ys + 1) c.ye).map fun y => pixelAt x y
  row c.ys ++ (if c.ye ≠ c.ys then row c.ye else []) ++ column c.xs ++ (if c.xe ≠ c.xs then column c.xe else [])

/-- DRAW_RECT (R112). -/
def execDrawRect (s : State) : Result :=
  withTarget s (Flow.finish .drawRect (storePixels (rectPixels (coordOf s.a0) (coordOf s.a1)) s))

/-- The pixels of DRAW_RECT_FILL, row by row (R113). -/
def fillPixels (a b : Coord) : List Coord :=
  let c := normalize a b
  (closed c.ys c.ye).flatMap fun y => (closed c.xs c.xe).map fun x => pixelAt x y

/-- DRAW_RECT_FILL (R113). -/
def execDrawRectFill (s : State) : Result :=
  withTarget s (Flow.finish .drawRectFill (storePixels (fillPixels (coordOf s.a0) (coordOf s.a1)) s))

end Sys2Proof.Machine
end

