-- ==== Sys2Proof/Machine/Dispatch.lean ====
section
/-!
DEFINITION. `exec`: the meaning of each command, one arm per constructor of `Instr` (30_encoding.md R64).
-/

namespace Sys2Proof.Machine

def exec (i : Instr) (s : State) : Host.Outcome State Fault Refusal :=
  match i with
  -- 40_layer_and_compositor.md
  | .nop => Sys2Proof.Machine.execNop s
  | .init => Sys2Proof.Machine.execInit s
  | .deinit => Sys2Proof.Machine.execDeinit s
  | .setDrawBuffer l => Sys2Proof.Machine.execSetDrawBuffer l s
  | .setDrawColor raw => Sys2Proof.Machine.execSetDrawColor raw s
  | .setDrawColorArgb => Sys2Proof.Machine.execSetDrawColorArgb s
  | .queryBack l => Sys2Proof.Machine.execQueryBack l s
  | .flip l => Sys2Proof.Machine.execFlip l s
  -- 41_rasterizer.md
  | .clear => Sys2Proof.Machine.execClear s
  | .drawPixel => Sys2Proof.Machine.execDrawPixel s
  | .drawLine => Sys2Proof.Machine.execDrawLine s
  | .drawRect => Sys2Proof.Machine.execDrawRect s
  | .drawRectFill => Sys2Proof.Machine.execDrawRectFill s
  -- 42_glyph_engine.md
  | .fontClear => Sys2Proof.Machine.execFontClear s
  | .fontAdd => Sys2Proof.Machine.execFontAdd s
  | .setFontIndex idx => Sys2Proof.Machine.execSetFontIndex idx s
  | .setFontName => Sys2Proof.Machine.execSetFontName s
  | .measureChar ch => Sys2Proof.Machine.execMeasureChar ch s
  | .measureStr len => Sys2Proof.Machine.execMeasureStr len s
  | .drawChar ch => Sys2Proof.Machine.execDrawChar ch s
  | .drawStrL len => Sys2Proof.Machine.execDrawStrL len s
  | .drawStrC len => Sys2Proof.Machine.execDrawStrC len s
  | .drawStrR len => Sys2Proof.Machine.execDrawStrR len s

end Sys2Proof.Machine
end

