-- ==== Sys2Proof/Machine/HostPort.lean ====
section
/-!
DEFINITION. The host's side of the block: the register map (10_state.md R13), what a read returns and what a write does
(R14 to R26, R30), the execution of a CMD write (30_encoding.md R61), the host's own path to memory (R31), and one
step: the next input of the host, taken whole (00_scope.md R7).
-/

namespace Sys2Proof.Machine

/-- The registers of the map of 10_state.md R13. -/
inductive Reg where
  | ctrl | status | cmd | result
  | a0 | a1 | a2 | a3 | a4
  | color | target | fontsel
  | panelW | panelH
  | l0buf0 | l0buf1 | l1buf0 | l1buf1
  | scan0 | scan1
  | faultCause | faultAddr | faultCmd
  deriving DecidableEq, Repr

/-- The register at an offset; none at a reserved or misaligned offset (R13, R30). -/
def regAt (offset : BitVec 7) : Option Reg :=
  match offset with
  | 0x00#7 => some .ctrl
  | 0x04#7 => some .status
  | 0x08#7 => some .cmd
  | 0x0C#7 => some .result
  | 0x10#7 => some .a0
  | 0x14#7 => some .a1
  | 0x18#7 => some .a2
  | 0x1C#7 => some .a3
  | 0x20#7 => some .a4
  | 0x24#7 => some .color
  | 0x28#7 => some .target
  | 0x2C#7 => some .fontsel
  | 0x30#7 => some .panelW
  | 0x34#7 => some .panelH
  | 0x40#7 => some .l0buf0
  | 0x44#7 => some .l0buf1
  | 0x48#7 => some .l1buf0
  | 0x4C#7 => some .l1buf1
  | 0x50#7 => some .scan0
  | 0x54#7 => some .scan1
  | 0x58#7 => some .faultCause
  | 0x5C#7 => some .faultAddr
  | 0x60#7 => some .faultCmd
  | _ => none

/-- The offset of CMD (R19). -/
def cmdOffset : BitVec 7 := 0x08

/-- What a host read of a register returns (R14 to R26). -/
def regValue (r : Reg) (s : State) : Word :=
  match r with
  | .ctrl => ctrlWord s
  | .status => statusWord s
  | .cmd => 0
  | .result => s.result
  | .a0 => s.a0
  | .a1 => s.a1
  | .a2 => s.a2
  | .a3 => s.a3
  | .a4 => s.a4
  | .color => s.color.setWidth 32
  | .target => if s.tvalid then s.target else 0
  | .fontsel => fontselWord s
  | .panelW => s.panelW.setWidth 32
  | .panelH => s.panelH.setWidth 32
  | .l0buf0 => s.layer0.buf0
  | .l0buf1 => s.layer0.buf1
  | .l1buf0 => s.layer1.buf0
  | .l1buf1 => s.layer1.buf1
  | .scan0 => s.scan0
  | .scan1 => s.scan1
  | .faultCause => (causeCode s.faultCause).setWidth 32
  | .faultAddr => s.faultAddr
  | .faultCmd => s.faultCmd

/-- A write that takes effect only while STATE is UNINIT or FAILED (R20, R21). -/
def whileUnlocked (s : State) (t : State) : State :=
  match s.state with
  | .uninit => t
  | .failed => t
  | .ready => s
  | .initializing => s

/-- Bits 31:1 of a frame buffer base; bit 0 reads 0 (R21). -/
def evenBase (v : Word) : Word := v &&& 0xFFFFFFFE#32

/-- A host write to CTRL: the soft reset and nothing else, or GUARD (R17, R191). -/
def writeCtrl (v : Word) (s : State) : State :=
  if softResets v then resetBlock s else { s with guard := guardBit v }

/-- A host write to STATUS clears OOB, or changes nothing (R18). -/
def writeStatus (v : Word) (s : State) : State := if clearsOob v then { s with oob := false } else s

/-- The execution of a CMD write (30_encoding.md R61): dropped while a fault is latched; ILLEGAL_CMD for an illegal
word; else the command. -/
def writeCmd (w : Word) (s : State) : Result :=
  if s.faulted then .next s
  else match decode w with
    | .error _ => .next (illegalCommand w s)
    | .ok i => exec i s

/-- A host write of `v` to a register (R14, R17 to R26; a write to a read-only register is ignored, R30). -/
def regWrite (r : Reg) (v : Word) (s : State) : Result :=
  match r with
  | .ctrl => .next (writeCtrl v s)
  | .status => .next (writeStatus v s)
  | .cmd => writeCmd v s
  | .a0 => .next { s with a0 := v }
  | .a1 => .next { s with a1 := v }
  | .a2 => .next { s with a2 := v }
  | .a3 => .next { s with a3 := v }
  | .a4 => .next { s with a4 := v }
  | .panelW => .next (whileUnlocked s { s with panelW := lowHalf v })
  | .panelH => .next (whileUnlocked s { s with panelH := lowHalf v })
  | .l0buf0 => .next (whileUnlocked s { s with layer0 := { s.layer0 with buf0 := evenBase v } })
  | .l0buf1 => .next (whileUnlocked s { s with layer0 := { s.layer0 with buf1 := evenBase v } })
  | .l1buf0 => .next (whileUnlocked s { s with layer1 := { s.layer1 with buf0 := evenBase v } })
  | .l1buf1 => .next (whileUnlocked s { s with layer1 := { s.layer1 with buf1 := evenBase v } })
  | .result => .next s
  | .color => .next s
  | .target => .next s
  | .fontsel => .next s
  | .scan0 => .next s
  | .scan1 => .next s
  | .faultCause => .next s
  | .faultAddr => .next s
  | .faultCmd => .next s

/-- The host bus's answer. -/
def State.respond (r : BusResponse) (s : State) : State := { s with response := r }

/-- The addresses a host memory access of this width covers, lowest first. -/
def accessAddrs (a : Word) : AccessWidth → List Word
  | .byte => [a]
  | .half => [a, a + 1]
  | .word => [a, a + 1, a + 2, a + 3]

/-- The little-endian value a host read of memory returns (20_memory.md R41). -/
def hostLoad (a : Word) (w : AccessWidth) (s : State) : Word :=
  match w with
  | .byte => (s.byteAt a).setWidth 32
  | .half => (s.halfAt a).setWidth 32
  | .word => s.halfAt (a + 2) ++ s.halfAt a

/-- Memory after a host write, little-endian (20_memory.md R41). -/
def hostStore (a : Word) (w : AccessWidth) (v : Word) (s : State) : State :=
  match w with
  | .byte => s.setByte a (v.extractLsb' 0 8)
  | .half => s.setHalf a (lowHalf v)
  | .word => (s.setHalf a (lowHalf v)).setHalf (a + 2) (highHalf v)

/-- Take the input `a`, with the state as it is once the input has left the queue and the bus has answered `done`. An
access the register block does not accept gets an error response and changes nothing (10_state.md R30, U5). -/
def takeAccess (a : HostAccess) (s : State) : Result :=
  match a with
  | .regRead offset width =>
    .next (match width, regAt offset with
      | .word, some r => s.respond (.data (regValue r s))
      | _, _ => s.respond .error)
  | .regWrite offset width v =>
    match width, regAt offset with
    | .word, some r => regWrite r v s
    | _, _ => .next (s.respond .error)
  | .memRead addr width =>
    .next (if (accessAddrs addr width).all s.backed then s.respond (.data (hostLoad addr width s))
      else s.respond .error)
  | .memWrite addr width v =>
    .next (if (accessAddrs addr width).all s.backed then hostStore addr width v s else s.respond .error)
  | .hardReset => .next ((resetBlock s).respond .none)

/-- The state in which the first queued input runs: it has left the queue. -/
def State.accept (rest : List HostAccess) (s : State) : State := { s with pending := rest, response := .done }

/-- One step: the next input of the host; with none queued the block is idle and keeps all state (60_exceptions.md
R187). -/
def hostStep (s : State) : Result :=
  match s.pending with
  | [] => .next s
  | a :: rest => takeAccess a (s.accept rest)

/-- The state with a CMD write of `w` as the host's next access. -/
def State.queueCommand (w : Word) (s : State) : State :=
  { s with pending := .regWrite cmdOffset .word w :: s.pending }

end Sys2Proof.Machine
end

