-- ==== Sys2Proof/Machine/Step.lean ====
section
/-!
DEFINITION. One step of the machine, and where the host places an instruction so that the next step runs it.
-/

namespace Sys2Proof.Machine

/-- One step: the host's next access, taken whole (00_scope.md R7, R8). -/
def step (s : State) : Host.Outcome State Fault Refusal := hostStep s

/-- The state in which the very next step is the CMD write of the instruction whose bits are `w`. The block fetches
nothing (10_state.md R15): a command exists only as a host write to CMD (notes/assumptions/5.md). -/
def State.withFetchWord (s : State) (nbits w : Nat) : State := s.queueCommand (tableWord nbits w)

end Sys2Proof.Machine
end

