-- ==== Sys2Proof/Safety.lean ====
section
/-!
DEFINITION. The terms claims are stated in: the invariants of 10_state.md R33, the opcode table of 30_encoding.md R64,
what storing a set of pixels does, and the pixel sets of the drawing commands, written from the rules' closed forms
and not from the machine's loops.
-/

namespace Sys2Proof.Machine

/-! ### Safe states and invariants -/

/-- A latched fault is the bad outcome (60_exceptions.md R177). -/
def State.Safe (s : State) : Prop := s.faulted = false

/-- The invariants (a) to (h) of 10_state.md R33. While STATE is READY the LnBUFm are locked (R21), so "as they stood
at the last INIT" is "as they stand". -/
structure State.Inv (s : State) : Prop where
  markers0 : s.layer0.front ≠ s.layer0.back
  markers1 : s.layer1.front ≠ s.layer1.back
  init0 : s.layer0.init = true ↔ s.state = .ready
  init1 : s.layer1.init = true ↔ s.state = .ready
  settled : s.state ≠ .initializing
  selected : s.fvalid = true → s.fcur < s.fcount
  capacity : s.fcount ≤ s.cfg.maxFonts
  targeted : s.tvalid = true → s.state = .ready ∧
    s.target ∈ [s.layer0.buf0, s.layer0.buf1, s.layer1.buf0, s.layer1.buf1]
  evenTarget : s.target.getLsbD 0 = false
  evenScan : s.scan0.getLsbD 0 = false ∧ s.scan1.getLsbD 0 = false
  evenBases0 : s.layer0.buf0.getLsbD 0 = false ∧ s.layer0.buf1.getLsbD 0 = false
  evenBases1 : s.layer1.buf0.getLsbD 0 = false ∧ s.layer1.buf1.getLsbD 0 = false
  uncaused : s.faulted = false → s.faultCause = .none

/-- What the registry and the target hold when nothing is selected (R25, R26), and the size of the font table (R29). -/
structure State.Coherent (s : State) : Prop where
  table : s.fonts.length = s.cfg.maxFonts
  noFont : s.fvalid = false → s.fcur = 0
  noTarget : s.tvalid = false → s.target = 0

/-- SCAN_l (10_state.md R22). -/
def State.scanOf (s : State) : LayerId → Word
  | .layer0 => s.scan0
  | .layer1 => s.scan1

/-- The address most recently passed to `SetScanout(l, ...)` (60_exceptions.md R184). -/
def lastScanout (l : LayerId) (events : List PanelEvent) : Option Word :=
  events.reverse.findSome? fun e =>
    match e with
    | .setScanout k addr => if k = l then some addr else none
    | .panelInit _ _ => none
    | .panelDeinit => none

/-- While layer `l` is initialised STATE is READY, and SCAN_l and the last `SetScanout(l, ...)` are its front buffer
(10_state.md R22, R33 (b); 40_layer_and_compositor.md R82, R88). -/
def State.Mirrors (s : State) : Prop :=
  ∀ l, (s.layer l).init = true → s.state = .ready ∧
    s.scanOf l = (match (s.layer l).front with | .slot0 => (s.layer l).buf0 | .slot1 => (s.layer l).buf1) ∧
    lastScanout l s.events = some (s.scanOf l)

/-! ### The opcode table -/

/-- A row of 30_encoding.md R64. -/
structure TableRow where
  mnemonic : String
  pattern : Word
  mask : Word

/-- The 23 rows of 30_encoding.md R64: mnemonic, match, mask. -/
def opcodeTable : List TableRow :=
  [⟨"NOP", 0x00000000, 0xFFFFFFFF⟩, ⟨"INIT", 0x00000001, 0xFFFFFFFF⟩, ⟨"DEINIT", 0x00000002, 0xFFFFFFFF⟩,
   ⟨"SET_DRAW_BUFFER", 0x00000008, 0xFFFEFFFF⟩, ⟨"SET_DRAW_COLOR", 0x00000009, 0x0000FFFF⟩,
   ⟨"SET_DRAW_COLOR_ARGB", 0x0000000A, 0xFFFFFFFF⟩, ⟨"QUERY_BACK", 0x0000000C, 0xFFFEFFFF⟩,
   ⟨"FLIP", 0x0000000D, 0xFFFEFFFF⟩] ++
  [⟨"CLEAR", 0x00000010, 0xFFFFFFFF⟩, ⟨"DRAW_PIXEL", 0x00000011, 0xFFFFFFFF⟩,
   ⟨"DRAW_LINE", 0x00000012, 0xFFFFFFFF⟩, ⟨"DRAW_RECT", 0x00000013, 0xFFFFFFFF⟩,
   ⟨"DRAW_RECT_FILL", 0x00000014, 0xFFFFFFFF⟩] ++
  [⟨"FONT_CLEAR", 0x00000020, 0xFFFFFFFF⟩, ⟨"FONT_ADD", 0x00000021, 0xFFFFFFFF⟩,
   ⟨"SET_FONT_INDEX", 0x00000022, 0x0000FFFF⟩, ⟨"SET_FONT_NAME", 0x00000023, 0xFFFFFFFF⟩,
   ⟨"MEASURE_CHAR", 0x00000024, 0x0000FFFF⟩, ⟨"MEASURE_STR", 0x00000025, 0x0000FFFF⟩,
   ⟨"DRAW_CHAR", 0x00000028, 0x0000FFFF⟩, ⟨"DRAW_STR_L", 0x00000029, 0x0000FFFF⟩,
   ⟨"DRAW_STR_C", 0x0000002A, 0x0000FFFF⟩, ⟨"DRAW_STR_R", 0x0000002B, 0x0000FFFF⟩]

/-! ### Storing a set of pixels -/

/-- The store of `p` is made and not dropped: GUARD is off or `p` is in range (20_memory.md R52). -/
def State.Admits (s : State) (p : Coord) : Prop := s.guard = false ∨ s.inRange p = true

/-- Every store of the set that is made lands on backed memory (20_memory.md R43). -/
def State.Storable (s : State) (P : Coord → Prop) : Prop :=
  ∀ p, P p → s.Admits p → s.backed (s.pixelAddr p) = true ∧ s.backed (s.pixelAddr p + 1) = true

/-- `t` is `s` after exactly the pixels `P` have gone through the addressing unit (20_memory.md R52): the admitted ones
hold COLOR, OOB records a dropped one, every other byte of memory and every other piece of state is as before. -/
structure Paints (s : State) (P : Coord → Prop) (t : State) : Prop where
  frame : t = { s with mem := t.mem, oob := t.oob }
  oob : t.oob = true ↔ s.oob = true ∨ (s.guard = true ∧ ∃ p, P p ∧ s.inRange p = false)
  drawn : ∀ p, P p → s.Admits p → t.halfAt (s.pixelAddr p) = s.color
  kept : ∀ a : Word, (∀ p, P p → s.Admits p → a ≠ s.pixelAddr p ∧ a ≠ s.pixelAddr p + 1) → t.byteAt a = s.byteAt a

/-! ### The pixel sets of the rasterizer -/

/-- The register value `w` is the point `p`: `x` in bits 15:0, `y` in bits 31:16 (10_state.md R12). -/
def AsPoint (w : Word) (p : Coord) : Prop := w.toNat = p.x.toNat + 65536 * p.y.toNat

/-- `p` lies in the closed rectangle with opposite corners `a` and `b` (41_rasterizer.md R101, R113). -/
def InRect (a b p : Coord) : Prop :=
  (min a.x.toNat b.x.toNat ≤ p.x.toNat ∧ p.x.toNat ≤ max a.x.toNat b.x.toNat) ∧
  (min a.y.toNat b.y.toNat ≤ p.y.toNat ∧ p.y.toNat ≤ max a.y.toNat b.y.toNat)

/-- `p` lies on the boundary of that rectangle (41_rasterizer.md R112). -/
def OnOutline (a b p : Coord) : Prop :=
  InRect a b p ∧ (p.x = a.x ∨ p.x = b.x ∨ p.y = a.y ∨ p.y = b.y)

/-- `q` is stored before `p` in row-major order (41_rasterizer.md R113). -/
def RowMajorBefore (q p : Coord) : Prop := q.y.toNat < p.y.toNat ∨ (q.y = p.y ∧ q.x.toNat < p.x.toNat)

/-- `s` comes first when ALine orders the endpoints `s`, `e` (41_rasterizer.md R109 step 1). -/
def ComesFirst (s e : Coord) : Prop := s.x.toNat < e.x.toNat ∨ (s.x = e.x ∧ s.y.toNat ≤ e.y.toNat)

/-- `dx` of 41_rasterizer.md R109, for ordered endpoints. -/
def lineDx (s e : Coord) : Nat := e.x.toNat - s.x.toNat

/-- `dy = |e.y - s.y|` of 41_rasterizer.md R109. -/
def lineDy (s e : Coord) : Nat := max e.y.toNat s.y.toNat - min e.y.toNat s.y.toNat

/-- `s.y + sy * n`, where it does not leave 0..65535 (41_rasterizer.md R110). -/
def alongY (s e : Coord) (n : Nat) : Nat := if s.y.toNat ≤ e.y.toNat then s.y.toNat + n else s.y.toNat - n

/-- The `i`-th pixel of the line by the closed form of 41_rasterizer.md R110. -/
def linePoint (s e : Coord) (i : Nat) : Coord :=
  if lineDy s e ≤ lineDx s e then
    pixelAt (s.x.toNat + i) (alongY s e ((i * lineDy s e + lineDx s e / 2) / lineDx s e))
  else
    pixelAt (s.x.toNat + (i * lineDx s e + lineDy s e / 2) / lineDy s e) (alongY s e i)

/-- `p` is one of the `max(dx, dy) + 1` pixels of the line (41_rasterizer.md R110, R111). -/
def OnLine (s e p : Coord) : Prop := ∃ i, i ≤ max (lineDx s e) (lineDy s e) ∧ p = linePoint s e i

/-! ### The pixel sets of the glyph engine, read from memory as it stands in `s` -/

/-- `ch` is a supported character: not the space, 0x20, and in range (00_scope.md R4, 42_glyph_engine.md R134). -/
def State.Supports (s : State) (ch : Half) : Prop :=
  ch ≠ 0x20 ∧ s.cfg.firstChar ≤ ch.toNat ∧ ch.toNat ≤ s.cfg.lastChar

/-- `u32(f.desc + 4 * (ch - FIRST_CHAR))`, the byte address of the descriptor of `ch` (42_glyph_engine.md R132). -/
def State.descriptorAt (s : State) (f : Font) (ch : Half) : Word :=
  BitVec.ofNat 32 (f.desc.toNat + 4 * (ch.toNat - s.cfg.firstChar))

/-- The width field of the descriptor of `ch` (42_glyph_engine.md R132). -/
def State.glyphWidth (s : State) (f : Font) (ch : Half) : Half := s.halfAt (s.descriptorAt f ch)

/-- The address `g` of the first bitmap byte of `ch`: blob plus the descriptor's bitmapOffset (R132, R133). -/
def State.glyphBase (s : State) (f : Font) (ch : Half) : Word :=
  f.blob + (s.halfAt (s.descriptorAt f ch + 2)).setWidth 32

/-- The address of the bitmap byte that holds row `r`, column `c` (42_glyph_engine.md R133). -/
def State.glyphByteAddr (s : State) (f : Font) (ch : Half) (r c : Nat) : Word :=
  s.glyphBase f ch + BitVec.ofNat 32 (r * (((s.glyphWidth f ch).toNat + 7) / 8) + c / 8)

/-- `p` is a set pixel of the glyph of `ch` with its top-left corner at `(px, py)` (42_glyph_engine.md R133, R150). -/
def State.OnGlyph (s : State) (f : Font) (px py ch : Half) (p : Coord) : Prop :=
  s.Supports ch ∧ ∃ r c, r < f.height.toNat ∧ c < (s.glyphWidth f ch).toNat ∧
    (s.byteAt (s.glyphByteAddr f ch r c)).getLsbD (7 - c % 8) = true ∧
    p = { x := px + BitVec.ofNat 16 c, y := py + BitVec.ofNat 16 r }

/-- `a` is one of the four descriptor bytes of a supported character (42_glyph_engine.md R135). -/
def State.DescByte (s : State) (f : Font) (ch : Half) (a : Word) : Prop :=
  s.Supports ch ∧ ∃ k, k < 4 ∧ a = s.descriptorAt f ch + BitVec.ofNat 32 k

/-- `a` is a byte the blit of `ch` reads: a descriptor byte or a bitmap byte (42_glyph_engine.md R135, R150). -/
def State.GlyphByte (s : State) (f : Font) (ch : Half) (a : Word) : Prop :=
  s.DescByte f ch a ∨ (s.Supports ch ∧ ∃ r c, r < f.height.toNat ∧ c < (s.glyphWidth f ch).toNat ∧
    a = s.glyphByteAddr f ch r c)

/-- The advance width of a character (42_glyph_engine.md R136). -/
def State.advance (s : State) (f : Font) (ch : Half) : Nat :=
  if ch = 0x20 then f.spaceWidth.toNat
  else if s.cfg.firstChar ≤ ch.toNat ∧ ch.toNat ≤ s.cfg.lastChar then (s.glyphWidth f ch).toNat
  else 0

/-- Character `i` of the string at `addr` (42_glyph_engine.md R147). -/
def State.charAt (s : State) (addr : Word) (i : Nat) : Half := (s.byteAt (addr + BitVec.ofNat 32 i)).setWidth 16

/-- The widths of the first `n` characters (42_glyph_engine.md R147). -/
def State.widthSum (s : State) (f : Font) (addr : Word) (n : Nat) : Nat :=
  ((List.range n).map fun i => s.advance f (s.charAt addr i)).sum

/-- What Measure is before it is taken mod 2^32: the widths plus `len - 1` gaps (42_glyph_engine.md R147). -/
def State.measureOf (s : State) (f : Font) (addr : Word) (len : Nat) : Nat :=
  s.widthSum f addr len + (len - 1) * f.charGap.toNat

/-- The cursor before character `i`: the start plus the widths and gaps of the `i` before it, mod 2^16 (R162 (c)). -/
def State.cursorAt (s : State) (f : Font) (x0 : Half) (addr : Word) (i : Nat) : Half :=
  x0 + BitVec.ofNat 16 (s.widthSum f addr i + i * f.charGap.toNat)

/-- `p` is a set pixel of the string laid out from `(x0, y0)` (42_glyph_engine.md R155). -/
def State.OnText (s : State) (f : Font) (x0 y0 : Half) (addr : Word) (len : Nat) (p : Coord) : Prop :=
  ∃ i, i < len ∧ s.OnGlyph f (s.cursorAt f x0 addr i) y0 (s.charAt addr i) p

/-- `a` is a byte that measuring the string reads (42_glyph_engine.md R147). -/
def State.MeasuredByte (s : State) (f : Font) (addr : Word) (len : Nat) (a : Word) : Prop :=
  ∃ i, i < len ∧ (a = addr + BitVec.ofNat 32 i ∨ s.DescByte f (s.charAt addr i) a)

/-- `a` is a byte that drawing the string reads (42_glyph_engine.md R155). -/
def State.TextByte (s : State) (f : Font) (addr : Word) (len : Nat) (a : Word) : Prop :=
  ∃ i, i < len ∧ (a = addr + BitVec.ofNat 32 i ∨ s.GlyphByte f (s.charAt addr i) a)

/-- No admitted store of `P` hits a byte of `R` (70_reset_and_hazards.md R193 (b): frame buffers are disjoint from font
data and strings). -/
def State.Apart (s : State) (P : Coord → Prop) (R : Word → Prop) : Prop :=
  ∀ p, P p → s.Admits p → ¬ R (s.pixelAddr p) ∧ ¬ R (s.pixelAddr p + 1)

/-! ### Kinds of commands -/

/-- The drawing commands: those of 41_rasterizer.md. -/
def isRaster : Instr → Bool
  | .clear | .drawPixel | .drawLine | .drawRect | .drawRectFill => true
  | _ => false

/-- The text commands: DRAW_CHAR and DRAW_STR_L, C, R. -/
def isText : Instr → Bool
  | .drawChar _ | .drawStrL _ | .drawStrC _ | .drawStrR _ => true
  | _ => false

/-- The measuring commands (42_glyph_engine.md R145, R146). -/
def isMeasure : Instr → Bool
  | .measureChar _ | .measureStr _ => true
  | _ => false

/-- The six commands that write RESULT and RV (10_state.md R16). -/
def writesResult : Instr → Bool
  | .init | .deinit | .queryBack _ | .fontAdd | .measureChar _ | .measureStr _ => true
  | _ => false

/-! ### The accesses of a command, in order -/

/-- One memory access of a command: a byte read (20_memory.md R42), or a pixel put through the addressing unit (R52). -/
inductive Access where
  | read (a : Word)
  | store (p : Coord)
  deriving DecidableEq, Repr

/-- The access goes through: the byte is backed, or the pixel's store, if it is made at all, is (20_memory.md R42, R43,
R52). -/
def State.Serves (s : State) : Access → Prop
  | .read a => s.backed a = true
  | .store p => s.Admits p → s.backed (s.pixelAddr p) = true ∧ s.backed (s.pixelAddr p + 1) = true

/-- What FAULT_CAUSE records when the access fails (60_exceptions.md R172). -/
def Access.cause : Access → FaultCause
  | .read _ => .busRead
  | .store _ => .busWrite

/-- What FAULT_ADDR records when the access fails (20_memory.md R42, R43). -/
def State.failAddr (s : State) : Access → Word
  | .read a => a
  | .store p => s.pixelAddr p

/-- The point a register value is (10_state.md R12). -/
def pointOf (w : Word) : Coord := pixelAt w.toNat (w.toNat / 65536)

/-- The pixels of a line in store order, from the endpoint that comes first (41_rasterizer.md R109, R110). -/
def lineInOrder (a b : Coord) : List Coord :=
  let points (s e : Coord) := (List.range (max (lineDx s e) (lineDy s e) + 1)).map (linePoint s e)
  if a.x.toNat < b.x.toNat ∨ (a.x = b.x ∧ a.y.toNat ≤ b.y.toNat) then points a b else points b a

/-- The pixels of row `y` from column `x0` to column `x1`. -/
def rowInOrder (x0 x1 y : Nat) : List Coord := (List.range' x0 (x1 + 1 - x0)).map fun x => pixelAt x y

/-- The pixels of a rectangle's outline in store order: top row, bottom row if it is another, the left column between
them, the right column if it is another (41_rasterizer.md R112). -/
def outlineInOrder (a b : Coord) : List Coord :=
  let x0 := min a.x.toNat b.x.toNat
  let x1 := max a.x.toNat b.x.toNat
  let y0 := min a.y.toNat b.y.toNat
  let y1 := max a.y.toNat b.y.toNat
  let between (x : Nat) : List Coord := (List.range' (y0 + 1) (y1 - (y0 + 1))).map fun y => pixelAt x y
  rowInOrder x0 x1 y0 ++ (if y1 ≠ y0 then rowInOrder x0 x1 y1 else []) ++ between x0 ++
    (if x1 ≠ x0 then between x1 else [])

/-- The pixels of a filled rectangle, row-major (41_rasterizer.md R113). -/
def fillInOrder (a b : Coord) : List Coord :=
  let y0 := min a.y.toNat b.y.toNat
  let y1 := max a.y.toNat b.y.toNat
  (List.range' y0 (y1 + 1 - y0)).flatMap (rowInOrder (min a.x.toNat b.x.toNat) (max a.x.toNat b.x.toNat))

/-- The pixels of the frame buffer in ascending index order; with `i = x + y * PANEL_W` each is stored at
`TARGET + 2*i` whatever GUARD (41_rasterizer.md R104, 20_memory.md R48). -/
def State.bufferInOrder (s : State) : List Coord :=
  (List.range (s.panelW.toNat * s.panelH.toNat)).map fun i => pixelAt (i % s.panelW.toNat) (i / s.panelW.toNat)

/-- The reads that the width of a character takes: four of a supported one, else none (42_glyph_engine.md R135, R136). -/
def State.widthAccesses (s : State) (f : Font) (ch : Half) : List Access :=
  if ch ≠ 0x20 ∧ s.cfg.firstChar ≤ ch.toNat ∧ ch.toNat ≤ s.cfg.lastChar then
    (List.range 4).map fun k => .read (s.descriptorAt f ch + BitVec.ofNat 32 k)
  else []

/-- The accesses for byte `k` of bitmap row `r`: its read, then the stores of its set bits, left to right
(42_glyph_engine.md R150). -/
def State.bitmapByteAccesses (s : State) (f : Font) (px py ch : Half) (r k : Nat) : List Access :=
  let a := s.glyphByteAddr f ch r (8 * k)
  .read a :: ((List.range 8).filter fun j =>
      decide (8 * k + j < (s.glyphWidth f ch).toNat) && (s.byteAt a).getLsbD (7 - j)).map fun j =>
    .store { x := px + BitVec.ofNat 16 (8 * k + j), y := py + BitVec.ofNat 16 r }

/-- The accesses of the blit of one character, rows top to bottom, bytes left to right (42_glyph_engine.md R150). -/
def State.glyphAccesses (s : State) (f : Font) (px py ch : Half) : List Access :=
  s.widthAccesses f ch ++
    if ch ≠ 0x20 ∧ s.cfg.firstChar ≤ ch.toNat ∧ ch.toNat ≤ s.cfg.lastChar then
      (List.range f.height.toNat).flatMap fun r =>
        (List.range (((s.glyphWidth f ch).toNat + 7) / 8)).flatMap fun k => s.bitmapByteAccesses f px py ch r k
    else []

/-- The accesses of Measure (42_glyph_engine.md R147). -/
def State.measureAccesses (s : State) (f : Font) (addr : Word) (len : Nat) : List Access :=
  (List.range len).flatMap fun i => .read (addr + BitVec.ofNat 32 i) :: s.widthAccesses f (s.charAt addr i)

/-- The accesses of DrawStr (42_glyph_engine.md R155). -/
def State.textAccesses (s : State) (f : Font) (x0 y0 : Half) (addr : Word) (len : Nat) : List Access :=
  (List.range len).flatMap fun i =>
    .read (addr + BitVec.ofNat 32 i) :: s.glyphAccesses f (s.cursorAt f x0 addr i) y0 (s.charAt addr i)

/-- The accesses of a command in the order its rule gives, memory read as it stands in `s`, with font `f` selected
(20_memory.md R54; 41_rasterizer.md R104 to R113; 42_glyph_engine.md R145 to R161). -/
def State.accesses (s : State) (f : Font) (i : Instr) : List Access :=
  let p := pointOf s.a0
  match i with
  | .clear => s.bufferInOrder.map .store
  | .drawPixel => [.store p]
  | .drawLine => (lineInOrder p (pointOf s.a1)).map .store
  | .drawRect => (outlineInOrder p (pointOf s.a1)).map .store
  | .drawRectFill => (fillInOrder p (pointOf s.a1)).map .store
  | .measureChar ch => s.widthAccesses f ch
  | .measureStr len => s.measureAccesses f s.a1 len.toNat
  | .drawChar ch => s.glyphAccesses f p.x p.y ch
  | .drawStrL len => s.textAccesses f p.x p.y s.a1 len.toNat
  | .drawStrC len => s.measureAccesses f s.a1 len.toNat ++
      s.textAccesses f
        (BitVec.ofInt 16 ((p.x.toNat : Int) - ((s.measureOf f s.a1 len.toNat % 2 ^ 32 / 2 : Nat) : Int)))
        p.y s.a1 len.toNat
  | .drawStrR len => s.measureAccesses f s.a1 len.toNat ++
      s.textAccesses f
        (BitVec.ofInt 16 ((p.x.toNat : Int) - ((s.measureOf f s.a1 len.toNat % 2 ^ 32 : Nat) : Int)))
        p.y s.a1 len.toNat
  | .nop | .init | .deinit | .setDrawBuffer _ | .setDrawColor _ | .setDrawColorArgb | .queryBack _ | .flip _
  | .fontClear | .fontAdd | .setFontIndex _ | .setFontName => []

/-- The command passes its gate: a target for what draws, a font for what reads one (41_rasterizer.md R102;
42_glyph_engine.md R145, R146, R152). -/
def State.Enabled (s : State) (f : Font) (i : Instr) : Prop :=
  (isRaster i = true ∨ isText i = true → s.tvalid = true) ∧
  (isText i = true ∨ isMeasure i = true → s.fvalid = true ∧ s.fonts[s.fcur]? = some f)

end Sys2Proof.Machine
end

