-- ==== Sys2Proof/Certificates/Slice0/Obligations.lean ====
section
/-!
DEFINITION. The statements for the provers, rule by rule of the spec. Each is listed in OBLIGATIONS.json. The fields
`pending`, `panelAnswers`, `panelInits` and `response` are the model's own bookkeeping of the host and the panel
(notes/assumptions/3.md to 5.md): what a statement says of them is the model's choice, not a rule's.
-/

open Sys2Proof Sys2Proof.Machine

/-! ### Encoding (30_encoding.md) -/

/-- R60, R62, R64: decoding the word of a well-formed command gives that command, with every operand at every value. -/
def Obligations.DecodeOfEncodeIsTheCommand : Prop :=
  ∀ i : Instr, i.wellFormed = true → decode (encode i) = .ok i

/-- R60, R65: a word that decodes is the word of one command, and that command is well formed. -/
def Obligations.DecodedWordIsTheCommandsWord : Prop :=
  ∀ (w : Word) (i : Instr), decode w = .ok i → encode i = w ∧ i.wellFormed = true

/-- R64: a word is the command of a row exactly when it matches the row under its mask. -/
def Obligations.WordIsRowsCommandExactlyWhenItMatches : Prop :=
  opcodeTable.length = 23 ∧
  (∀ row ∈ opcodeTable, ∀ w : Word,
    (w &&& row.mask = row.pattern ↔ ∃ i, decode w = .ok i ∧ i.mnemonic = row.mnemonic)) ∧
  ∀ (w : Word) (i : Instr), decode w = .ok i → ∃ row ∈ opcodeTable, row.mnemonic = i.mnemonic

/-- R65, R172, R174: exactly these words are illegal, and executing one raises ILLEGAL_CMD and does nothing else. -/
def Obligations.IllegalWordRaisesIllegalCmdAndNothingElse : Prop :=
  ∀ w : Word,
    ((∀ i, decode w ≠ .ok i) ↔
      (w.extractLsb' 0 8 ∉ [0x00#8, 0x01#8, 0x02#8, 0x08#8, 0x09#8, 0x0A#8, 0x0C#8, 0x0D#8, 0x10#8, 0x11#8, 0x12#8,
          0x13#8, 0x14#8, 0x20#8, 0x21#8, 0x22#8, 0x23#8, 0x24#8, 0x25#8, 0x28#8, 0x29#8, 0x2A#8, 0x2B#8] ∨
        w.extractLsb' 8 8 ≠ 0#8 ∨
        (w.extractLsb' 0 8 ∈ [0x00#8, 0x01#8, 0x02#8, 0x0A#8, 0x10#8, 0x11#8, 0x12#8, 0x13#8, 0x14#8, 0x20#8, 0x21#8,
          0x23#8] ∧ w.extractLsb' 16 16 ≠ 0#16) ∨
        (w.extractLsb' 0 8 ∈ [0x08#8, 0x0C#8, 0x0D#8] ∧ 1 < (w.extractLsb' 16 16).toNat))) ∧
    ∀ (s : State) (rest : List HostAccess), (∀ i, decode w ≠ .ok i) → s.faulted = false →
      s.pending = .regWrite 0x08 .word w :: rest →
      step s = .next { s with
        pending := rest, response := .done
        faulted := true, faultCause := .illegalCmd, faultAddr := 0, faultCmd := w }

/-- R64, R68: a few command words, written out from the table, decode to their commands. -/
def Obligations.SampleCommandWordsDecode : Prop :=
  decode 0x00000000 = .ok .nop ∧ decode 0x00010008 = .ok (.setDrawBuffer 1) ∧
  decode 0xF0030009 = .ok (.setDrawColor 0xF003) ∧ decode 0x0001000D = .ok (.flip 1) ∧
  decode 0x00000012 = .ok .drawLine ∧ decode 0x00000021 = .ok .fontAdd ∧
  decode 0x00030025 = .ok (.measureStr 3) ∧ decode 0x00410028 = .ok (.drawChar 0x41) ∧
  decode 0x0005002A = .ok (.drawStrC 5)

/-! ### The execution of a host access -/

/-- R61: a CMD write, with no fault latched, executes the command its word decodes to, once the access has left the
host's queue and the host bus has its answer. -/
def Obligations.StepRunsTheDecodedCommand : Prop :=
  (∀ (s : State) (rest : List HostAccess) (w : Word) (i : Instr),
    s.pending = .regWrite 0x08 .word w :: rest → s.faulted = false → decode w = .ok i →
    step s = exec i { s with pending := rest, response := .done }) ∧
  ∀ (s : State) (n : Nat) (i : Instr), s.faulted = false → decodeTableWord 32 n = some i →
    step (s.withFetchWord 32 n) = exec i { s with response := .done }

/-- R61, R176: while a fault is latched every CMD write is dropped, whatever its word. -/
def Obligations.LatchedFaultDropsEveryCommand : Prop :=
  ∀ (s : State) (rest : List HostAccess) (w : Word),
    s.pending = .regWrite 0x08 .word w :: rest → s.faulted = true →
    step s = .next { s with pending := rest, response := .done }

/-- R176, R177: a latched fault, with its three registers, survives every step but a reset. -/
def Obligations.OnlyResetClearsALatchedFault : Prop :=
  ∀ s t : State, step s = .next t → s.faulted = true →
    (t.faulted = true ∧ t.faultCause = s.faultCause ∧ t.faultAddr = s.faultAddr ∧ t.faultCmd = s.faultCmd) ∨
    ∃ rest, s.pending = .hardReset :: rest ∨
      ∃ v : Word, v.getLsbD 31 = true ∧ s.pending = .regWrite 0x00 .word v :: rest

/-- R61, R187, R192: every command terminates and nothing the host can do is undefined, so a step always answers a
state; with no access to take, the block keeps all state. -/
def Obligations.EveryStepAnswersAState : Prop :=
  (∀ s : State, ∃ t, step s = .next t) ∧ ∀ s : State, s.pending = [] → step s = .next s

/-- R35: after reset, hardware or soft, every element of the block has the value of the table; memory is not touched. -/
def Obligations.ResetLeavesTheTablesValues : Prop :=
  ∀ (s : State) (rest : List HostAccess),
    (s.pending = .hardReset :: rest ∨
      ∃ v : Word, v.getLsbD 31 = true ∧ s.pending = .regWrite 0x00 .word v :: rest) →
    ∃ t, step s = .next t ∧ t.guard = false ∧ t.state = .uninit ∧
      t.layer0 = { init := false, front := .slot0, back := .slot1, buf0 := 0, buf1 := 0 } ∧
      t.layer1 = { init := false, front := .slot0, back := .slot1, buf0 := 0, buf1 := 0 } ∧
      t.panelW = 800 ∧ t.panelH = 480 ∧ t.tvalid = false ∧ t.target = 0 ∧ t.color = 0x0000 ∧
      t.fvalid = false ∧ t.fcur = 0 ∧ t.fcount = 0 ∧ t.fonts.length = s.cfg.maxFonts ∧
      (∀ f ∈ t.fonts,
        f = { name := 0, desc := 0, blob := 0, height := 0, spaceWidth := 0, charGap := 0 }) ∧
      t.a0 = 0 ∧ t.a1 = 0 ∧ t.a2 = 0 ∧ t.a3 = 0 ∧ t.a4 = 0 ∧ t.result = 0 ∧ t.rv = false ∧ t.oob = false ∧
      t.faulted = false ∧ t.faultCause = .none ∧ t.faultAddr = 0 ∧ t.faultCmd = 0 ∧ t.scan0 = 0 ∧ t.scan1 = 0 ∧
      t.mem = s.mem ∧ t.events = s.events ∧ t.cfg = s.cfg ∧ t.pending = rest

/-- R13, R30, R172: a 32-bit read at a register's offset answers its value and has no side effect; FAULT_CAUSE reads 0 to
4 for none, ILLEGAL_CMD, ILLEGAL_OPERAND, BUS_READ, BUS_WRITE. -/
def Obligations.RegisterReadAnswersItsValueOnly : Prop :=
  ∀ (s : State) (rest : List HostAccess) (offset : BitVec 7) (value : Word),
    (offset, value) ∈
      [(0x00#7, if s.guard then 1#32 else 0#32), (0x08#7, 0#32), (0x0C#7, s.result), (0x10#7, s.a0), (0x14#7, s.a1),
        (0x18#7, s.a2), (0x1C#7, s.a3), (0x20#7, s.a4), (0x24#7, BitVec.ofNat 32 s.color.toNat),
        (0x28#7, if s.tvalid then s.target else 0#32)] ++
      [(0x30#7, BitVec.ofNat 32 s.panelW.toNat), (0x34#7, BitVec.ofNat 32 s.panelH.toNat), (0x40#7, s.layer0.buf0),
        (0x44#7, s.layer0.buf1), (0x48#7, s.layer1.buf0), (0x4C#7, s.layer1.buf1), (0x50#7, s.scan0),
        (0x54#7, s.scan1), (0x58#7, match s.faultCause with
          | .none => 0#32 | .illegalCmd => 1#32 | .illegalOperand => 2#32 | .busRead => 3#32 | .busWrite => 4#32),
        (0x5C#7, s.faultAddr),
        (0x60#7, s.faultCmd)] →
    s.pending = .regRead offset .word :: rest →
    step s = .next { s with pending := rest, response := .data value }

/-- R18, R26: what a read of STATUS and of FONTSEL shows, bit by bit. -/
def Obligations.StatusAndFontselShowTheirBits : Prop :=
  ∀ (s : State) (rest : List HostAccess),
    (s.pending = .regRead 0x04 .word :: rest →
      ∃ v : Word, step s = .next { s with pending := rest, response := .data v } ∧
        v.extractLsb' 0 2 = (match s.state with
          | .uninit => 0#2 | .initializing => 1#2 | .ready => 2#2 | .failed => 3#2) ∧
        v.getLsbD 2 = s.layer0.init ∧ v.getLsbD 3 = s.layer1.init ∧
        (v.getLsbD 4 = true ↔ s.layer0.front = .slot1) ∧ (v.getLsbD 5 = true ↔ s.layer1.front = .slot1) ∧
        v.getLsbD 6 = s.tvalid ∧ v.getLsbD 7 = s.fvalid ∧ v.getLsbD 8 = s.rv ∧ v.getLsbD 9 = s.oob ∧
        v.getLsbD 10 = s.faulted ∧ v.extractLsb' 11 21 = 0#21) ∧
    (s.pending = .regRead 0x2C .word :: rest →
      ∃ v : Word, step s = .next { s with pending := rest, response := .data v } ∧
        v.extractLsb' 0 8 = (if s.fvalid then BitVec.ofNat 8 s.fcur else 0#8) ∧
        v.extractLsb' 8 8 = BitVec.ofNat 8 s.fcount ∧ v.extractLsb' 16 16 = 0#16)

/-- R30: an access of another width, at a misaligned or a reserved offset, gets an error response and changes nothing. -/
def Obligations.UnacceptedAccessGetsAnErrorOnly : Prop :=
  ∀ (s : State) (rest : List HostAccess) (offset : BitVec 7) (width : AccessWidth) (v : Word),
    (width ≠ .word ∨ offset.toNat % 4 ≠ 0 ∨
      offset ∈ [0x38#7, 0x3C#7, 0x64#7, 0x68#7, 0x6C#7, 0x70#7, 0x74#7, 0x78#7, 0x7C#7]) →
    (s.pending = .regRead offset width :: rest ∨ s.pending = .regWrite offset width v :: rest) →
    step s = .next { s with pending := rest, response := .error }

/-- R30, R17, R18: a write to a read-only register changes nothing; a write to STATUS clears OOB by bit 9 and nothing
else; a write to CTRL without bit 31 writes GUARD and nothing else. -/
def Obligations.ReadOnlyFieldsIgnoreWrites : Prop :=
  ∀ (s : State) (rest : List HostAccess) (v : Word),
    (∀ offset ∈ [0x0C#7, 0x24#7, 0x28#7, 0x2C#7, 0x50#7, 0x54#7, 0x58#7, 0x5C#7, 0x60#7],
      s.pending = .regWrite offset .word v :: rest → step s = .next { s with pending := rest, response := .done }) ∧
    (s.pending = .regWrite 0x04 .word v :: rest →
      step s = .next { s with
        pending := rest, response := .done, oob := if v.getLsbD 9 then false else s.oob }) ∧
    (s.pending = .regWrite 0x00 .word v :: rest → v.getLsbD 31 = false →
      step s = .next { s with pending := rest, response := .done, guard := v.getLsbD 0 })

/-- R14: a host write stores all 32 bits of an operand register and nothing else; no command writes one; reset gives
0; a host read returns what it holds. -/
def Obligations.OnlyTheHostWritesOperandRegisters : Prop :=
  (∀ (s : State) (rest : List HostAccess) (v : Word),
    (s.pending = .regWrite 0x10 .word v :: rest →
      step s = .next { s with pending := rest, response := .done, a0 := v }) ∧
    (s.pending = .regWrite 0x14 .word v :: rest →
      step s = .next { s with pending := rest, response := .done, a1 := v }) ∧
    (s.pending = .regWrite 0x18 .word v :: rest →
      step s = .next { s with pending := rest, response := .done, a2 := v }) ∧
    (s.pending = .regWrite 0x1C .word v :: rest →
      step s = .next { s with pending := rest, response := .done, a3 := v }) ∧
    (s.pending = .regWrite 0x20 .word v :: rest →
      step s = .next { s with pending := rest, response := .done, a4 := v })) ∧
  (∀ (i : Instr) (s t : State), exec i s = .next t →
    t.a0 = s.a0 ∧ t.a1 = s.a1 ∧ t.a2 = s.a2 ∧ t.a3 = s.a3 ∧ t.a4 = s.a4) ∧
  (State.reset.a0 = 0 ∧ State.reset.a1 = 0 ∧ State.reset.a2 = 0 ∧ State.reset.a3 = 0 ∧ State.reset.a4 = 0) ∧
  ∀ (s : State) (rest : List HostAccess) (offset : BitVec 7) (value : Word),
    (offset, value) ∈ [(0x10#7, s.a0), (0x14#7, s.a1), (0x18#7, s.a2), (0x1C#7, s.a3), (0x20#7, s.a4)] →
    s.pending = .regRead offset .word :: rest →
    step s = .next { s with pending := rest, response := .data value }

/-- R20: PANEL_W and PANEL_H take bits 15:0 of a write while STATE is UNINIT or FAILED and ignore it while READY. -/
def Obligations.PanelSizeIsLockedWhileReady : Prop :=
  State.reset.panelW = 800 ∧ State.reset.panelH = 480 ∧
  ∀ (s : State) (rest : List HostAccess) (v : Word),
    (s.state = .uninit ∨ s.state = .failed →
      (s.pending = .regWrite 0x30 .word v :: rest →
        step s = .next { s with pending := rest, response := .done, panelW := BitVec.ofNat 16 v.toNat }) ∧
      (s.pending = .regWrite 0x34 .word v :: rest →
        step s = .next { s with pending := rest, response := .done, panelH := BitVec.ofNat 16 v.toNat })) ∧
    (s.state = .ready → ∀ offset ∈ [0x30#7, 0x34#7], s.pending = .regWrite offset .word v :: rest →
      step s = .next { s with pending := rest, response := .done }) ∧
    (s.pending = .regRead 0x30 .word :: rest →
      step s = .next { s with pending := rest, response := .data (BitVec.ofNat 32 s.panelW.toNat) }) ∧
    (s.pending = .regRead 0x34 .word :: rest →
      step s = .next { s with pending := rest, response := .data (BitVec.ofNat 32 s.panelH.toNat) })

/-- R21: a frame buffer base takes a write with bit 0 forced to 0 while STATE is UNINIT or FAILED and ignores it while
READY; reset gives 0. -/
def Obligations.FrameBufferBasesAreEvenAndLocked : Prop :=
  (State.reset.layer0.buf0 = 0 ∧ State.reset.layer0.buf1 = 0 ∧ State.reset.layer1.buf0 = 0 ∧
    State.reset.layer1.buf1 = 0) ∧
  ∀ (s : State) (rest : List HostAccess) (v : Word),
    (s.state = .uninit ∨ s.state = .failed → ∃ e : Word, e.toNat = v.toNat - v.toNat % 2 ∧
      (s.pending = .regWrite 0x40 .word v :: rest →
        step s = .next { s with pending := rest, response := .done, layer0 := { s.layer0 with buf0 := e } }) ∧
      (s.pending = .regWrite 0x44 .word v :: rest →
        step s = .next { s with pending := rest, response := .done, layer0 := { s.layer0 with buf1 := e } }) ∧
      (s.pending = .regWrite 0x48 .word v :: rest →
        step s = .next { s with pending := rest, response := .done, layer1 := { s.layer1 with buf0 := e } }) ∧
      (s.pending = .regWrite 0x4C .word v :: rest →
        step s = .next { s with pending := rest, response := .done, layer1 := { s.layer1 with buf1 := e } })) ∧
    (s.state = .ready → ∀ offset ∈ [0x40#7, 0x44#7, 0x48#7, 0x4C#7], s.pending = .regWrite offset .word v :: rest →
      step s = .next { s with pending := rest, response := .done })

/-- R31, R41: what the host stores to backed memory by its own path, 8, 16 or 32 bits wide, lies there little-endian with
no other byte changed, and a read answers the bytes that lie there; an access with an unbacked byte gets an error and
changes nothing. The widths and the error are the model's choice (notes/assumptions/7.md). -/
def Obligations.HostMemoryAccessIsLittleEndian : Prop :=
  ∀ (s : State) (rest : List HostAccess) (a v : Word) (width : AccessWidth) (n : Nat), Memory.wf s.mem = true →
    (width, n) ∈ [(AccessWidth.byte, 1), (.half, 2), (.word, 4)] →
    ((∀ k, k < n → s.backed (a + BitVec.ofNat 32 k) = true) →
      (s.pending = .memWrite a width v :: rest →
        ∃ t, step s = .next t ∧ t = { s with pending := rest, response := .done, mem := t.mem } ∧
          (∀ k, k < n → t.byteAt (a + BitVec.ofNat 32 k) = v.extractLsb' (8 * k) 8) ∧
          ∀ x : Word, (∀ k, k < n → x ≠ a + BitVec.ofNat 32 k) → t.byteAt x = s.byteAt x) ∧
      (s.pending = .memRead a width :: rest →
        ∃ r : Word, step s = .next { s with pending := rest, response := .data r } ∧
          (∀ k, k < n → r.extractLsb' (8 * k) 8 = s.byteAt (a + BitVec.ofNat 32 k)) ∧ r.toNat < 2 ^ (8 * n))) ∧
    ((∃ k, k < n ∧ s.backed (a + BitVec.ofNat 32 k) = false) →
      s.pending = .memWrite a width v :: rest ∨ s.pending = .memRead a width :: rest →
      step s = .next { s with pending := rest, response := .error })

/-! ### Invariants -/

/-- R33: the invariants (a) to (h) hold after reset. -/
def Obligations.ResetMeetsTheStateInvariants : Prop := State.reset.Inv

/-- R33: every step keeps the invariants (a) to (h). -/
def Obligations.StepKeepsTheStateInvariants : Prop := ∀ s t : State, s.Inv → step s = .next t → t.Inv

/-- R22, R25, R26, R29: every step keeps the font table's size and what TARGET and FCUR read when nothing is selected;
and it keeps, for each initialised layer, that STATE is READY and that SCAN_l and the last `SetScanout` of the layer are
its front buffer. Both hold after reset. -/
def Obligations.StepKeepsRegistryAndTargetCoherent : Prop :=
  (State.reset.Coherent ∧ ∀ s t : State, s.Coherent → step s = .next t → t.Coherent) ∧
  State.reset.Mirrors ∧ ∀ s t : State, s.Mirrors → step s = .next t → t.Mirrors

/-- Memory keeps its canonical form over the 2^32 addresses of R31 along every step, and has it after reset. The form is
the model's own (notes/assumptions/2.md). -/
def Obligations.StepKeepsMemoryCanonical : Prop :=
  Memory.wf State.reset.mem = true ∧
    ∀ s t : State, Memory.wf s.mem = true → step s = .next t → Memory.wf t.mem = true

/-- R4, R9: no step changes the parameters, and the events already emitted stay, in order. -/
def Obligations.StepKeepsParametersAndPastEvents : Prop :=
  ∀ s t : State, step s = .next t → t.cfg = s.cfg ∧ ∃ new, t.events = s.events ++ new

/-- R16: a command that is none of INIT, DEINIT, QUERY_BACK, FONT_ADD, MEASURE_CHAR, MEASURE_STR leaves RESULT and RV
unchanged. -/
def Obligations.OnlySixCommandsWriteResult : Prop :=
  ∀ (i : Instr) (s t : State), writesResult i = false → exec i s = .next t → t.result = s.result ∧ t.rv = s.rv

/-- R27, R28: STATE changes only by INIT and DEINIT, the front and back markers only by INIT and FLIP; no command
writes PANEL_W, PANEL_H, a frame buffer base or CTRL. -/
def Obligations.ModeAndMarkersChangeOnlyWhereStated : Prop :=
  ∀ (i : Instr) (s t : State), exec i s = .next t →
    (i ≠ .init → i ≠ .deinit → t.state = s.state ∧ t.layer0.init = s.layer0.init ∧ t.layer1.init = s.layer1.init) ∧
    (i ≠ .init → (∀ l, i ≠ .flip l) → t.layer0.front = s.layer0.front ∧ t.layer0.back = s.layer0.back ∧
      t.layer1.front = s.layer1.front ∧ t.layer1.back = s.layer1.back ∧ t.scan0 = s.scan0 ∧ t.scan1 = s.scan1) ∧
    (t.panelW = s.panelW ∧ t.panelH = s.panelH ∧ t.layer0.buf0 = s.layer0.buf0 ∧ t.layer0.buf1 = s.layer0.buf1 ∧
      t.layer1.buf0 = s.layer1.buf0 ∧ t.layer1.buf1 = s.layer1.buf1 ∧ t.guard = s.guard)

/-- R80 to R88, R140 to R147: a command that does not draw leaves every byte of memory as it is. -/
def Obligations.OnlyDrawingCommandsWriteMemory : Prop :=
  ∀ (i : Instr) (s t : State), isRaster i = false → isText i = false → exec i s = .next t → t.mem = s.mem

/-- R52, R104 to R113, R150 to R161, R174: a drawing command changes memory, OOB and, by a bus fault, the fault registers;
nothing else. Faulting or not, whatever it reads and whatever GUARD is, of memory it changes no byte but those of pixels
whose store the addressing unit admits, and CLEAR none but those of the frame buffer. -/
def Obligations.DrawingCommandsFrame : Prop :=
  ∀ (i : Instr) (s t : State), isRaster i = true ∨ isText i = true → exec i s = .next t →
    t = { s with
      mem := t.mem, oob := t.oob
      faulted := t.faulted, faultCause := t.faultCause, faultAddr := t.faultAddr, faultCmd := t.faultCmd } ∧
    (s.oob = true → t.oob = true) ∧
    (t.faulted = s.faulted ∧ t.faultCause = s.faultCause ∧ t.faultAddr = s.faultAddr ∧ t.faultCmd = s.faultCmd ∨
      t.faulted = true ∧ (t.faultCause = .busRead ∨ t.faultCause = .busWrite) ∧ t.faultCmd = encode i) ∧
    (Memory.wf s.mem = true → ∀ a : Word,
      (∀ p, s.Admits p → a ≠ s.pixelAddr p ∧ a ≠ s.pixelAddr p + 1) → t.byteAt a = s.byteAt a) ∧
    (i = .clear → Memory.wf s.mem = true → ∀ a : Word,
      (∀ k, k < s.panelW.toNat * s.panelH.toNat → a ≠ s.indexAddr k ∧ a ≠ s.indexAddr k + 1) →
      t.byteAt a = s.byteAt a)

/-! ### Memory port and addressing unit (20_memory.md) -/

/-- R42, R43: a byte read answers memory's byte and changes nothing, or ends the command with BUS_READ at its address;
a pixel store writes two bytes, little-endian, and no other, or ends the command with BUS_WRITE and nothing stored. -/
def Obligations.MemoryPortReadsBytesAndStoresPixels : Prop :=
  ∀ (a : Word) (v : Half) (s : State),
    (s.backed a = true → memRead a s = .go (s.byteAt a) s) ∧
    (s.backed a = false → memRead a s = .trap .busRead a s) ∧
    (Memory.wf s.mem = true → s.backed a = true → s.backed (a + 1) = true →
      ∃ t, memWrite a v s = .go () t ∧ t = { s with mem := t.mem } ∧
        t.byteAt a = v.extractLsb' 0 8 ∧ t.byteAt (a + 1) = v.extractLsb' 8 8 ∧
        ∀ x : Word, x ≠ a → x ≠ a + 1 → t.byteAt x = s.byteAt x) ∧
    (s.backed a = false ∨ s.backed (a + 1) = false → memWrite a v s = .trap .busWrite a s)

/-- R52: with GUARD on, an out-of-range pixel sets OOB and stores nothing; every other pixel is stored at
`u32(TARGET + 2 * (x + y * PANEL_W))`. -/
def Obligations.PixelWriteFollowsTheAddressingRule : Prop :=
  ∀ (p : Coord) (s : State),
    p.x.toNat + p.y.toNat * s.panelW.toNat < 2 ^ 32 ∧
    (s.guard = true ∧ (s.panelW.toNat ≤ p.x.toNat ∨ s.panelH.toNat ≤ p.y.toNat) →
      pixelWrite p s = .go () { s with oob := true }) ∧
    (s.guard = false ∨ (p.x.toNat < s.panelW.toNat ∧ p.y.toNat < s.panelH.toNat) →
      pixelWrite p s =
        memWrite (BitVec.ofNat 32 (s.target.toNat + 2 * (p.x.toNat + p.y.toNat * s.panelW.toNat))) s.color s)

/-- R51: an in-range pixel's index is at most `PANEL_W * PANEL_H - 1`, so its store lands inside the frame buffer. -/
def Obligations.InRangePixelLandsInTheFrameBuffer : Prop :=
  ∀ (p : Coord) (s : State), p.x.toNat < s.panelW.toNat → p.y.toNat < s.panelH.toNat →
    s.pixelIndex p ≤ s.panelW.toNat * s.panelH.toNat - 1 ∧
    ∃ idx, idx < s.panelW.toNat * s.panelH.toNat ∧ s.pixelAddr p = s.target + BitVec.ofNat 32 (2 * idx)

/-- R52, R115, R150, R175: with GUARD on, no command whatever, with any coordinates and any font data, faulting or not, changes a byte
outside the frame buffer at TARGET. -/
def Obligations.GuardConfinesEveryCommand : Prop :=
  ∀ (i : Instr) (s t : State), Memory.wf s.mem = true → s.guard = true → exec i s = .next t →
    ∀ a : Word,
      (∀ idx, idx < s.panelW.toNat * s.panelH.toNat →
        a ≠ s.target + BitVec.ofNat 32 (2 * idx) ∧ a ≠ s.target + BitVec.ofNat 32 (2 * idx) + 1) →
      t.byteAt a = s.byteAt a

/-! ### Layer, flip and compositor commands (40_layer_and_compositor.md) -/

/-- R80: NOP changes no state. -/
def Obligations.NopChangesNothing : Prop := encode .nop = 0x00000000 ∧ ∀ s : State, exec .nop s = .next s

/-- R82: INIT in READY only answers ok; a failed bring-up leaves FAILED and answers 1; a successful one initialises both
layers, programs slot 0 of each, empties the registry and enters READY. INIT completes in every state: in READY, or with
one of these two effects, which is that of the answer the environment has queued where it has queued one. -/
def Obligations.InitBringsUpThePanel : Prop :=
  encode .init = 0x00000001 ∧
  (∀ s : State, s.state ≠ .ready → ∃ r : PanelAnswer, (∀ a rest, s.panelAnswers = a :: rest → r = a) ∧
    exec .init s = .next (match r with
      | .fail => { s with
          state := .failed, result := 1, rv := true
          events := s.events ++ [.panelInit s.panelW s.panelH]
          panelAnswers := s.panelAnswers.tail, panelInits := s.panelInits + 1 }
      | .ok => { s with
          state := .ready, result := 0, rv := true, fcount := 0, fvalid := false, fcur := 0
          layer0 := { s.layer0 with init := true, front := .slot0, back := .slot1 }
          layer1 := { s.layer1 with init := true, front := .slot0, back := .slot1 }
          scan0 := s.layer0.buf0, scan1 := s.layer1.buf0
          events := s.events ++ [.panelInit s.panelW s.panelH, .setScanout .layer0 s.layer0.buf0,
            .setScanout .layer1 s.layer1.buf0]
          panelAnswers := s.panelAnswers.tail, panelInits := s.panelInits + 1 })) ∧
  (∀ s : State, ∃ t, exec .init s = .next t ∧ t.rv = true ∧
    (t.state = .ready ∧ t.result = 0 ∨ t.state = .failed ∧ t.result = 1)) ∧
  ∀ s : State,
    (s.state = .ready → exec .init s = .next { s with result := 0, rv := true }) ∧
    (s.state ≠ .ready → s.panelAnswer = .fail →
      exec .init s = .next { s with
        state := .failed, result := 1, rv := true
        events := s.events ++ [.panelInit s.panelW s.panelH]
        panelAnswers := s.panelAnswers.tail, panelInits := s.panelInits + 1 }) ∧
    (s.state ≠ .ready → s.panelAnswer = .ok →
      exec .init s = .next { s with
        state := .ready, result := 0, rv := true, fcount := 0, fvalid := false, fcur := 0
        layer0 := { s.layer0 with init := true, front := .slot0, back := .slot1 }
        layer1 := { s.layer1 with init := true, front := .slot0, back := .slot1 }
        scan0 := s.layer0.buf0, scan1 := s.layer1.buf0
        events := s.events ++ [.panelInit s.panelW s.panelH, .setScanout .layer0 s.layer0.buf0,
          .setScanout .layer1 s.layer1.buf0]
        panelAnswers := s.panelAnswers.tail, panelInits := s.panelInits + 1 })

/-- R83: DEINIT empties the registry and the target and ends in UNINIT; only leaving READY it deinitialises the layers
and emits PanelDeinit. -/
def Obligations.DeinitTearsDown : Prop :=
  encode .deinit = 0x00000002 ∧
  ∀ s : State,
    (s.state = .ready → exec .deinit s = .next { s with
      fcount := 0, fvalid := false, fcur := 0, tvalid := false, target := 0, state := .uninit, result := 0, rv := true
      layer0 := { s.layer0 with init := false }, layer1 := { s.layer1 with init := false }
      events := s.events ++ [.panelDeinit] }) ∧
    (s.state ≠ .ready → exec .deinit s = .next { s with
      fcount := 0, fvalid := false, fcur := 0, tvalid := false, target := 0, state := .uninit
      result := 0, rv := true })

/-- R84: SET_DRAW_BUFFER stores the back buffer of an initialised layer, and deselects the target for another. -/
def Obligations.SetDrawBufferTakesTheBackBuffer : Prop :=
  (encode (.setDrawBuffer 0) = 0x00000008 ∧ encode (.setDrawBuffer 1) = 0x00010008) ∧
  ∀ (s : State) (l : Half) (x : Layer), (l = 0 ∧ x = s.layer0 ∨ l = 1 ∧ x = s.layer1) →
    (x.init = true → exec (.setDrawBuffer l) s = .next { s with
      target := (match x.back with | .slot0 => x.buf0 | .slot1 => x.buf1), tvalid := true }) ∧
    (x.init = false → exec (.setDrawBuffer l) s = .next { s with target := 0, tvalid := false })

/-- R85: SET_DRAW_COLOR stores its immediate in COLOR and changes nothing else. -/
def Obligations.SetDrawColorStoresThePixel : Prop :=
  ∀ raw : Half, (encode (.setDrawColor raw)).toNat = 0x00000009 + 65536 * raw.toNat ∧
    ∀ s : State, exec (.setDrawColor raw) s = .next { s with color := raw }

/-- R86: SET_DRAW_COLOR_ARGB packs the low 4 bits of each component of A0 into COLOR and changes nothing else. -/
def Obligations.SetDrawColorArgbMasksComponents : Prop :=
  encode .setDrawColorArgb = 0x0000000A ∧
  ∀ s : State, ∃ c : Half, exec .setDrawColorArgb s = .next { s with color := c } ∧
    c.extractLsb' 12 4 = s.a0.extractLsb' 24 4 ∧ c.extractLsb' 8 4 = s.a0.extractLsb' 16 4 ∧
    c.extractLsb' 4 4 = s.a0.extractLsb' 8 4 ∧ c.extractLsb' 0 4 = s.a0.extractLsb' 0 4

/-- R87: QUERY_BACK answers the back buffer of an initialised layer with RV = 1, else 0 with RV = 0. -/
def Obligations.QueryBackAnswersTheBackBuffer : Prop :=
  (encode (.queryBack 0) = 0x0000000C ∧ encode (.queryBack 1) = 0x0001000C) ∧
  ∀ (s : State) (l : Half) (x : Layer), (l = 0 ∧ x = s.layer0 ∨ l = 1 ∧ x = s.layer1) →
    (x.init = true → exec (.queryBack l) s = .next { s with
      result := (match x.back with | .slot0 => x.buf0 | .slot1 => x.buf1), rv := true }) ∧
    (x.init = false → exec (.queryBack l) s = .next { s with result := 0, rv := false })

/-- R88: FLIP swaps the markers of an initialised layer and programs the new front buffer; it does nothing to another. -/
def Obligations.FlipSwapsAndProgramsTheFront : Prop :=
  (encode (.flip 0) = 0x0000000D ∧ encode (.flip 1) = 0x0001000D) ∧
  ∀ (s : State) (front : Word),
    (s.layer0.init = true → front = (match s.layer0.back with | .slot0 => s.layer0.buf0 | .slot1 => s.layer0.buf1) →
      exec (.flip 0) s = .next { s with
        layer0 := { s.layer0 with front := s.layer0.back, back := s.layer0.front }
        scan0 := front, events := s.events ++ [.setScanout .layer0 front] }) ∧
    (s.layer1.init = true → front = (match s.layer1.back with | .slot0 => s.layer1.buf0 | .slot1 => s.layer1.buf1) →
      exec (.flip 1) s = .next { s with
        layer1 := { s.layer1 with front := s.layer1.back, back := s.layer1.front }
        scan1 := front, events := s.events ++ [.setScanout .layer1 front] }) ∧
    (s.layer0.init = false → exec (.flip 0) s = .next s) ∧ (s.layer1.init = false → exec (.flip 1) s = .next s)

/-- R89 (a), (b): on an initialised layer with two different buffers, a FLIP toggles what QUERY_BACK answers, QUERY_BACK
answers the address last programmed for scanout neither before the FLIP nor after it, and a second FLIP restores the
layer. What was last programmed before the FLIP is SCAN_l, in the states the invariant `Mirrors` describes: it holds after
reset and every step keeps it (StepKeepsRegistryAndTargetCoherent). -/
def Obligations.FlipTogglesTheBackBuffer : Prop :=
  ∀ (s : State) (l : LayerId), (s.layer l).init = true → (s.layer l).front ≠ (s.layer l).back →
    (s.layer l).buf0 ≠ (s.layer l).buf1 →
    ∃ r t q u, exec (.queryBack (layerImm l)) s = .next r ∧ exec (.flip (layerImm l)) s = .next t ∧
      exec (.queryBack (layerImm l)) t = .next q ∧ exec (.flip (layerImm l)) t = .next u ∧
      r.result ≠ q.result ∧ (r.result = (s.layer l).buf0 ∧ q.result = (s.layer l).buf1 ∨
        r.result = (s.layer l).buf1 ∧ q.result = (s.layer l).buf0) ∧
      (s.Mirrors → ∃ addr, lastScanout l s.events = some addr ∧ s.scanOf l = addr ∧ r.result ≠ addr) ∧
      (∃ addr, t.events = s.events ++ [.setScanout l addr] ∧ t.scanOf l = addr ∧ q.result ≠ addr) ∧
      u.layer l = s.layer l

/-! ### Rasterizer (41_rasterizer.md) -/

/-- R102, R171: with no target selected, and for the text commands with no font selected, a drawing command does
nothing at all. -/
def Obligations.UnselectedStateMakesDrawingANoOp : Prop :=
  ∀ (i : Instr) (s : State),
    (isRaster i = true → s.tvalid = false → exec i s = .next s) ∧
    (isText i = true → s.tvalid = false ∨ s.fvalid = false → exec i s = .next s)

/-- R104: CLEAR stores COLOR in every pixel of the frame buffer, whatever GUARD, and changes nothing else. -/
def Obligations.ClearFillsTheFrameBuffer : Prop :=
  encode .clear = 0x00000010 ∧
  ∀ s : State, s.tvalid = true → Memory.wf s.mem = true →
    (∀ i, i < s.panelW.toNat * s.panelH.toNat →
      s.backed (s.indexAddr i) = true ∧ s.backed (s.indexAddr i + 1) = true) →
    ∃ t, exec .clear s = .next t ∧ t = { s with mem := t.mem } ∧
      (∀ i, i < s.panelW.toNat * s.panelH.toNat → t.halfAt (s.target + BitVec.ofNat 32 (2 * i)) = s.color) ∧
      ∀ a : Word,
        (∀ i, i < s.panelW.toNat * s.panelH.toNat → a ≠ s.indexAddr i ∧ a ≠ s.indexAddr i + 1) →
        t.byteAt a = s.byteAt a

/-- R105: DRAW_PIXEL puts the one pixel A0 through the addressing unit; an unbacked store is BUS_WRITE with nothing
stored. -/
def Obligations.DrawPixelPaintsItsPixel : Prop :=
  encode .drawPixel = 0x00000011 ∧
  ∀ (s : State) (p : Coord), s.tvalid = true → Memory.wf s.mem = true → AsPoint s.a0 p →
    (s.Storable (fun q => q = p) → ∃ t, exec .drawPixel s = .next t ∧ Paints s (fun q => q = p) t) ∧
    (s.Admits p → s.backed (s.pixelAddr p) = false ∨ s.backed (s.pixelAddr p + 1) = false →
      exec .drawPixel s = .next { s with
        faulted := true, faultCause := .busWrite, faultAddr := s.pixelAddr p, faultCmd := 0x00000011 })

/-- R106, R110, R111: DRAW_LINE, with its endpoints in either order, paints exactly the pixels of the closed form. -/
def Obligations.DrawLinePaintsTheClosedForm : Prop :=
  encode .drawLine = 0x00000012 ∧
  ∀ (s : State) (p q : Coord), s.tvalid = true → Memory.wf s.mem = true → ComesFirst p q →
    (AsPoint s.a0 p ∧ AsPoint s.a1 q ∨ AsPoint s.a0 q ∧ AsPoint s.a1 p) → s.Storable (OnLine p q) →
    ∃ t, exec .drawLine s = .next t ∧ Paints s (OnLine p q) t

/-- R109, R110, R111: the pixels of a line, in store order, are those of the closed form, for both orders of the
endpoints; they start at the first endpoint and end at the other, no two are the same, and each lies in the bounding box
of the endpoints, its coordinates being those of the closed form with no wrap-around. -/
def Obligations.LinePixelsAreTheClosedFormInOrder : Prop :=
  ∀ p q : Coord, ComesFirst p q →
    linePixels p q = (List.range (max (lineDx p q) (lineDy p q) + 1)).map (linePoint p q) ∧
    linePixels q p = linePixels p q ∧ aLine p q = linePixels p q ∧
    (linePixels p q).length = max (lineDx p q) (lineDy p q) + 1 ∧ (linePixels p q).Nodup ∧
    linePoint p q 0 = p ∧ linePoint p q (max (lineDx p q) (lineDy p q)) = q ∧
    ∀ i, i ≤ max (lineDx p q) (lineDy p q) →
      InRect p q (linePoint p q i) ∧
      (lineDy p q ≤ lineDx p q → (linePoint p q i).x.toNat = p.x.toNat + i ∧
        (linePoint p q i).y.toNat = alongY p q ((i * lineDy p q + lineDx p q / 2) / lineDx p q)) ∧
      (lineDx p q < lineDy p q →
        (linePoint p q i).x.toNat = p.x.toNat + (i * lineDx p q + lineDy p q / 2) / lineDy p q ∧
        (linePoint p q i).y.toNat = alongY p q i)

/-- R112: DRAW_RECT paints exactly the boundary of the rectangle, whichever opposite corners name it. -/
def Obligations.DrawRectPaintsTheOutline : Prop :=
  encode .drawRect = 0x00000013 ∧
  ∀ (s : State) (a b : Coord), s.tvalid = true → Memory.wf s.mem = true → AsPoint s.a0 a → AsPoint s.a1 b →
    s.Storable (OnOutline a b) → ∃ t, exec .drawRect s = .next t ∧ Paints s (OnOutline a b) t

/-- R113: DRAW_RECT_FILL paints exactly the closed rectangle. -/
def Obligations.DrawRectFillPaintsTheRectangle : Prop :=
  encode .drawRectFill = 0x00000014 ∧
  ∀ (s : State) (a b : Coord), s.tvalid = true → Memory.wf s.mem = true → AsPoint s.a0 a → AsPoint s.a1 b →
    s.Storable (InRect a b) → ∃ t, exec .drawRectFill s = .next t ∧ Paints s (InRect a b) t

/-- R114: the number of stores of the rectangle commands with GUARD off, none made twice. -/
def Obligations.RectangleStoreCounts : Prop :=
  ∀ (a b : Coord) (w h : Nat), w = max a.x.toNat b.x.toNat - min a.x.toNat b.x.toNat + 1 →
    h = max a.y.toNat b.y.toNat - min a.y.toNat b.y.toNat + 1 →
    (fillPixels a b).length = w * h ∧ (fillPixels a b).Nodup ∧ (rectPixels a b).Nodup ∧
    (2 ≤ w → 2 ≤ h → (rectPixels a b).length = 2 * (w + h) - 4) ∧
    (w = 1 ∨ h = 1 → (rectPixels a b).length = max w h)

/-- R54, R113, R174, R175: a fill that meets an unbacked pixel keeps the stores before it in row-major order, makes none
after it, and latches BUS_WRITE with that address and its own word. So does every drawing and measuring command, with
GUARD on or off: of its accesses in the order its rule gives, those before the first that fails are made (a dropped store
sets OOB) and none after it, and the fault registers get that access's cause and address and the command's word; RESULT
and all else stay. The stores made are taken not to hit a byte the command reads (R193 (b)). -/
def Obligations.FillStopsAtItsFirstBusError : Prop :=
  (∀ (s : State) (a b p : Coord), s.tvalid = true → s.guard = false → Memory.wf s.mem = true →
    AsPoint s.a0 a → AsPoint s.a1 b → InRect a b p →
    (s.backed (s.pixelAddr p) = false ∨ s.backed (s.pixelAddr p + 1) = false) →
    s.Storable (fun q => InRect a b q ∧ RowMajorBefore q p) →
    ∃ u, Paints s (fun q => InRect a b q ∧ RowMajorBefore q p) u ∧
      exec .drawRectFill s = .next { u with
        faulted := true, faultCause := .busWrite, faultAddr := s.pixelAddr p, faultCmd := 0x00000014 }) ∧
  ∀ (i : Instr) (s : State) (f : Font) (before after : List Access) (x : Access), s.Enabled f i →
    Memory.wf s.mem = true → s.accesses f i = before ++ x :: after → (∀ y ∈ before, s.Serves y) → ¬ s.Serves x →
    s.Apart (fun p => .store p ∈ before) (fun a => .read a ∈ s.accesses f i) →
    ∃ u, Paints s (fun p => .store p ∈ before) u ∧ ((∀ p, .store p ∉ before) → u = s) ∧
      exec i s = .next { u with
        faulted := true, faultCause := x.cause, faultAddr := s.failAddr x, faultCmd := encode i }

/-! ### Font registry and glyph engine (42_glyph_engine.md) -/

/-- R140: FONT_CLEAR empties the font list and the selection and changes nothing else. -/
def Obligations.FontClearEmptiesTheRegistry : Prop :=
  encode .fontClear = 0x00000020 ∧
  ∀ s : State, exec .fontClear s = .next { s with fcount := 0, fvalid := false, fcur := 0 }

/-- R141: FONT_ADD appends the font of its operands, answers 0 with RV = 0 on a full table, and raises ILLEGAL_OPERAND
when `A4[31:16]` is not 0. -/
def Obligations.FontAddAppendsTheOperands : Prop :=
  encode .fontAdd = 0x00000021 ∧
  ∀ s : State,
    (65536 ≤ s.a4.toNat → exec .fontAdd s = .next { s with
      faulted := true, faultCause := .illegalOperand, faultAddr := 0, faultCmd := 0x00000021 }) ∧
    (s.a4.toNat < 65536 → s.fcount = s.cfg.maxFonts → exec .fontAdd s = .next { s with result := 0, rv := false }) ∧
    (s.a4.toNat < 65536 → s.fcount ≠ s.cfg.maxFonts → exec .fontAdd s = .next { s with
      fonts := s.fonts.set s.fcount
        { name := s.a0, desc := s.a1, blob := s.a2
          height := BitVec.ofNat 16 s.a3.toNat, spaceWidth := BitVec.ofNat 16 (s.a3.toNat / 65536)
          charGap := BitVec.ofNat 16 s.a4.toNat }
      result := BitVec.ofNat 32 s.fcount, rv := true, fcount := s.fcount + 1 })

/-- R143: SET_FONT_INDEX selects a registered index and leaves the selection for any other. -/
def Obligations.SetFontIndexSelectsRegisteredOnly : Prop :=
  ∀ idx : Half, (encode (.setFontIndex idx)).toNat = 0x00000022 + 65536 * idx.toNat ∧
    ∀ s : State,
      (idx.toNat < s.fcount → exec (.setFontIndex idx) s = .next { s with fcur := idx.toNat, fvalid := true }) ∧
      (s.fcount ≤ idx.toNat → exec (.setFontIndex idx) s = .next s)

/-- R144: SET_FONT_NAME selects the lowest registered index with the key A0 and leaves the selection when there is
none. -/
def Obligations.SetFontNameSelectsTheLowestMatch : Prop :=
  encode .setFontName = 0x00000023 ∧
  ∀ s : State, s.fcount ≤ s.fonts.length →
    (∀ (i : Nat) (f : Font), i < s.fcount → s.fonts[i]? = some f → f.name = s.a0 →
      (∀ (j : Nat) (g : Font), j < i → s.fonts[j]? = some g → g.name ≠ s.a0) →
      exec .setFontName s = .next { s with fcur := i, fvalid := true }) ∧
    ((∀ (j : Nat) (g : Font), j < s.fcount → s.fonts[j]? = some g → g.name ≠ s.a0) →
      exec .setFontName s = .next s)

/-- R132, R134, R136, R145: MEASURE_CHAR answers the advance width with RV = 1; with no font it answers 0 with RV = 0. The
advance width is spaceWidth for 0x20, without a read; the 16-bit little-endian field at
`u32(desc + 4 * (ch - FIRST_CHAR))` for a code from FIRST_CHAR to LAST_CHAR; and 0 for any other, without a read. -/
def Obligations.MeasureCharAnswersTheAdvanceWidth : Prop :=
  ∀ ch : Half, (encode (.measureChar ch)).toNat = 0x00000024 + 65536 * ch.toNat ∧
    ∀ (s : State) (f : Font),
      (s.fvalid = false → exec (.measureChar ch) s = .next { s with result := 0, rv := false }) ∧
      (s.fvalid = true → s.fonts[s.fcur]? = some f → (∀ a, s.DescByte f ch a → s.backed a = true) →
        exec (.measureChar ch) s = .next { s with result := BitVec.ofNat 32 (s.advance f ch), rv := true }) ∧
      (s.fvalid = true → s.fonts[s.fcur]? = some f → ch = 0x20 →
        exec (.measureChar ch) s = .next { s with result := BitVec.ofNat 32 f.spaceWidth.toNat, rv := true }) ∧
      (s.fvalid = true → s.fonts[s.fcur]? = some f → ch ≠ 0x20 → s.cfg.firstChar ≤ ch.toNat →
        ch.toNat ≤ s.cfg.lastChar → ∀ d : Word,
        d.toNat = (f.desc.toNat + 4 * (ch.toNat - s.cfg.firstChar)) % 2 ^ 32 →
        (∀ k, k < 4 → s.backed (d + BitVec.ofNat 32 k) = true) →
        exec (.measureChar ch) s = .next { s with
          result := BitVec.ofNat 32 ((s.byteAt d).toNat + 256 * (s.byteAt (d + 1)).toNat), rv := true }) ∧
      (s.fvalid = true → s.fonts[s.fcur]? = some f → ch ≠ 0x20 →
        ch.toNat < s.cfg.firstChar ∨ s.cfg.lastChar < ch.toNat →
        exec (.measureChar ch) s = .next { s with result := 0, rv := true })

/-- R132, R135, R174, R175: a MEASURE_CHAR of a supported character (not 0x20, from FIRST_CHAR to LAST_CHAR) whose
descriptor, at `u32(desc + 4 * (ch - FIRST_CHAR))`, has an unbacked byte faults with BUS_READ at the first such byte and
leaves RESULT, RV and all else. -/
def Obligations.MeasureCharFaultsAtTheFirstUnbackedByte : Prop :=
  ∀ (ch : Half) (s : State) (f : Font) (d : Word) (k : Nat), s.fvalid = true → s.fonts[s.fcur]? = some f →
    ch ≠ 0x20 → s.cfg.firstChar ≤ ch.toNat → ch.toNat ≤ s.cfg.lastChar →
    d.toNat = (f.desc.toNat + 4 * (ch.toNat - s.cfg.firstChar)) % 2 ^ 32 →
    k < 4 → (∀ j, j < k → s.backed (d + BitVec.ofNat 32 j) = true) → s.backed (d + BitVec.ofNat 32 k) = false →
    exec (.measureChar ch) s = .next { s with
      faulted := true, faultCause := .busRead, faultAddr := d + BitVec.ofNat 32 k
      faultCmd := encode (.measureChar ch) }

/-- R146, R147: MEASURE_STR answers the sum of the widths plus `len - 1` gaps, mod 2^32, with RV = 1; with no font it
answers 0 with RV = 0. -/
def Obligations.MeasureStrAnswersWidthsPlusGaps : Prop :=
  ∀ len : Half, (encode (.measureStr len)).toNat = 0x00000025 + 65536 * len.toNat ∧
    ∀ (s : State) (f : Font),
      (s.fvalid = false → exec (.measureStr len) s = .next { s with result := 0, rv := false }) ∧
      (s.fvalid = true → s.fonts[s.fcur]? = some f →
        (∀ a, s.MeasuredByte f s.a1 len.toNat a → s.backed a = true) →
        exec (.measureStr len) s = .next { s with
          result := BitVec.ofNat 32 (s.measureOf f s.a1 len.toNat), rv := true })

/-- R150, R152: DRAW_CHAR paints exactly the set bits of the glyph, its top-left corner at A0. -/
def Obligations.DrawCharPaintsTheGlyph : Prop :=
  ∀ ch : Half, (encode (.drawChar ch)).toNat = 0x00000028 + 65536 * ch.toNat ∧
    ∀ (s : State) (f : Font) (p : Coord), s.tvalid = true → s.fvalid = true → s.fonts[s.fcur]? = some f →
      AsPoint s.a0 p → Memory.wf s.mem = true → (∀ a, s.GlyphByte f ch a → s.backed a = true) →
      s.Storable (s.OnGlyph f p.x p.y ch) → s.Apart (s.OnGlyph f p.x p.y ch) (s.GlyphByte f ch) →
      ∃ t, exec (.drawChar ch) s = .next t ∧ Paints s (s.OnGlyph f p.x p.y ch) t

/-- R155, R156: DRAW_STR_L paints exactly the string laid out from A0. -/
def Obligations.DrawStrLPaintsTheText : Prop :=
  ∀ len : Half, (encode (.drawStrL len)).toNat = 0x00000029 + 65536 * len.toNat ∧
    ∀ (s : State) (f : Font) (p : Coord), s.tvalid = true → s.fvalid = true → s.fonts[s.fcur]? = some f →
      AsPoint s.a0 p → Memory.wf s.mem = true → (∀ a, s.TextByte f s.a1 len.toNat a → s.backed a = true) →
      s.Storable (s.OnText f p.x p.y s.a1 len.toNat) →
      s.Apart (s.OnText f p.x p.y s.a1 len.toNat) (s.TextByte f s.a1 len.toNat) →
      ∃ t, exec (.drawStrL len) s = .next t ∧ Paints s (s.OnText f p.x p.y s.a1 len.toNat) t

/-- R160, R162 (a): DRAW_STR_C paints exactly the string laid out from `u16(pos.x - (m >> 1))`, with `m` the measure. -/
def Obligations.DrawStrCPaintsTheCentredText : Prop :=
  ∀ len : Half, (encode (.drawStrC len)).toNat = 0x0000002A + 65536 * len.toNat ∧
    ∀ (s : State) (f : Font) (p : Coord) (x0 : Half), s.tvalid = true → s.fvalid = true →
      s.fonts[s.fcur]? = some f → AsPoint s.a0 p → Memory.wf s.mem = true →
      x0 = BitVec.ofInt 16 ((p.x.toNat : Int) - ((s.measureOf f s.a1 len.toNat % 2 ^ 32 / 2 : Nat) : Int)) →
      (∀ a, s.TextByte f s.a1 len.toNat a → s.backed a = true) →
      s.Storable (s.OnText f x0 p.y s.a1 len.toNat) →
      s.Apart (s.OnText f x0 p.y s.a1 len.toNat) (s.TextByte f s.a1 len.toNat) →
      ∃ t, exec (.drawStrC len) s = .next t ∧ Paints s (s.OnText f x0 p.y s.a1 len.toNat) t

/-- R161, R162 (a): DRAW_STR_R paints exactly the string laid out from `u16(pos.x - m)`, with `m` the measure. -/
def Obligations.DrawStrRPaintsTheRightAlignedText : Prop :=
  ∀ len : Half, (encode (.drawStrR len)).toNat = 0x0000002B + 65536 * len.toNat ∧
    ∀ (s : State) (f : Font) (p : Coord) (x0 : Half), s.tvalid = true → s.fvalid = true →
      s.fonts[s.fcur]? = some f → AsPoint s.a0 p → Memory.wf s.mem = true →
      x0 = BitVec.ofInt 16 ((p.x.toNat : Int) - ((s.measureOf f s.a1 len.toNat % 2 ^ 32 : Nat) : Int)) →
      (∀ a, s.TextByte f s.a1 len.toNat a → s.backed a = true) →
      s.Storable (s.OnText f x0 p.y s.a1 len.toNat) →
      s.Apart (s.OnText f x0 p.y s.a1 len.toNat) (s.TextByte f s.a1 len.toNat) →
      ∃ t, exec (.drawStrR len) s = .next t ∧ Paints s (s.OnText f x0 p.y s.a1 len.toNat) t
end

