-- ==== Sys2Proof/Laws/State.lean ====
section
/-!
SUPPORT. What each named update of the state does to each field, so that no proof unfolds a record update.
-/

namespace Sys2Proof.Machine

/-! ### `setResult` -/

@[simp] theorem State.setResult_guard (v : Word) (b : Bool) (s : State) : (s.setResult v b).guard = s.guard :=
  rfl
@[simp] theorem State.setResult_a0 (v : Word) (b : Bool) (s : State) : (s.setResult v b).a0 = s.a0 :=
  rfl
@[simp] theorem State.setResult_a1 (v : Word) (b : Bool) (s : State) : (s.setResult v b).a1 = s.a1 :=
  rfl
@[simp] theorem State.setResult_a2 (v : Word) (b : Bool) (s : State) : (s.setResult v b).a2 = s.a2 :=
  rfl
@[simp] theorem State.setResult_a3 (v : Word) (b : Bool) (s : State) : (s.setResult v b).a3 = s.a3 :=
  rfl
@[simp] theorem State.setResult_a4 (v : Word) (b : Bool) (s : State) : (s.setResult v b).a4 = s.a4 :=
  rfl
@[simp] theorem State.setResult_result (v : Word) (b : Bool) (s : State) : (s.setResult v b).result = v :=
  rfl
@[simp] theorem State.setResult_rv (v : Word) (b : Bool) (s : State) : (s.setResult v b).rv = b :=
  rfl
@[simp] theorem State.setResult_oob (v : Word) (b : Bool) (s : State) : (s.setResult v b).oob = s.oob :=
  rfl
@[simp] theorem State.setResult_state (v : Word) (b : Bool) (s : State) : (s.setResult v b).state = s.state :=
  rfl
@[simp] theorem State.setResult_panelW (v : Word) (b : Bool) (s : State) : (s.setResult v b).panelW = s.panelW :=
  rfl
@[simp] theorem State.setResult_panelH (v : Word) (b : Bool) (s : State) : (s.setResult v b).panelH = s.panelH :=
  rfl
@[simp] theorem State.setResult_layer0 (v : Word) (b : Bool) (s : State) : (s.setResult v b).layer0 = s.layer0 :=
  rfl
@[simp] theorem State.setResult_layer1 (v : Word) (b : Bool) (s : State) : (s.setResult v b).layer1 = s.layer1 :=
  rfl
@[simp] theorem State.setResult_scan0 (v : Word) (b : Bool) (s : State) : (s.setResult v b).scan0 = s.scan0 :=
  rfl
@[simp] theorem State.setResult_scan1 (v : Word) (b : Bool) (s : State) : (s.setResult v b).scan1 = s.scan1 :=
  rfl
@[simp] theorem State.setResult_color (v : Word) (b : Bool) (s : State) : (s.setResult v b).color = s.color :=
  rfl
@[simp] theorem State.setResult_tvalid (v : Word) (b : Bool) (s : State) : (s.setResult v b).tvalid = s.tvalid :=
  rfl
@[simp] theorem State.setResult_target (v : Word) (b : Bool) (s : State) : (s.setResult v b).target = s.target :=
  rfl
@[simp] theorem State.setResult_fvalid (v : Word) (b : Bool) (s : State) : (s.setResult v b).fvalid = s.fvalid :=
  rfl
@[simp] theorem State.setResult_fcur (v : Word) (b : Bool) (s : State) : (s.setResult v b).fcur = s.fcur :=
  rfl
@[simp] theorem State.setResult_fcount (v : Word) (b : Bool) (s : State) : (s.setResult v b).fcount = s.fcount :=
  rfl
@[simp] theorem State.setResult_fonts (v : Word) (b : Bool) (s : State) : (s.setResult v b).fonts = s.fonts :=
  rfl
@[simp] theorem State.setResult_faulted (v : Word) (b : Bool) (s : State) : (s.setResult v b).faulted = s.faulted :=
  rfl
@[simp] theorem State.setResult_faultCause (v : Word) (b : Bool) (s : State) : (s.setResult v b).faultCause = s.faultCause :=
  rfl
@[simp] theorem State.setResult_faultAddr (v : Word) (b : Bool) (s : State) : (s.setResult v b).faultAddr = s.faultAddr :=
  rfl
@[simp] theorem State.setResult_faultCmd (v : Word) (b : Bool) (s : State) : (s.setResult v b).faultCmd = s.faultCmd :=
  rfl
@[simp] theorem State.setResult_mem (v : Word) (b : Bool) (s : State) : (s.setResult v b).mem = s.mem :=
  rfl
@[simp] theorem State.setResult_events (v : Word) (b : Bool) (s : State) : (s.setResult v b).events = s.events :=
  rfl
@[simp] theorem State.setResult_cfg (v : Word) (b : Bool) (s : State) : (s.setResult v b).cfg = s.cfg :=
  rfl
@[simp] theorem State.setResult_pending (v : Word) (b : Bool) (s : State) : (s.setResult v b).pending = s.pending :=
  rfl
@[simp] theorem State.setResult_panelAnswers (v : Word) (b : Bool) (s : State) : (s.setResult v b).panelAnswers = s.panelAnswers :=
  rfl
@[simp] theorem State.setResult_panelInits (v : Word) (b : Bool) (s : State) : (s.setResult v b).panelInits = s.panelInits :=
  rfl
@[simp] theorem State.setResult_response (v : Word) (b : Bool) (s : State) : (s.setResult v b).response = s.response :=
  rfl

/-! ### `setByte` -/

@[simp] theorem State.setByte_guard (a : Word) (b : Byte) (s : State) : (s.setByte a b).guard = s.guard :=
  rfl
@[simp] theorem State.setByte_a0 (a : Word) (b : Byte) (s : State) : (s.setByte a b).a0 = s.a0 :=
  rfl
@[simp] theorem State.setByte_a1 (a : Word) (b : Byte) (s : State) : (s.setByte a b).a1 = s.a1 :=
  rfl
@[simp] theorem State.setByte_a2 (a : Word) (b : Byte) (s : State) : (s.setByte a b).a2 = s.a2 :=
  rfl
@[simp] theorem State.setByte_a3 (a : Word) (b : Byte) (s : State) : (s.setByte a b).a3 = s.a3 :=
  rfl
@[simp] theorem State.setByte_a4 (a : Word) (b : Byte) (s : State) : (s.setByte a b).a4 = s.a4 :=
  rfl
@[simp] theorem State.setByte_result (a : Word) (b : Byte) (s : State) : (s.setByte a b).result = s.result :=
  rfl
@[simp] theorem State.setByte_rv (a : Word) (b : Byte) (s : State) : (s.setByte a b).rv = s.rv :=
  rfl
@[simp] theorem State.setByte_oob (a : Word) (b : Byte) (s : State) : (s.setByte a b).oob = s.oob :=
  rfl
@[simp] theorem State.setByte_state (a : Word) (b : Byte) (s : State) : (s.setByte a b).state = s.state :=
  rfl
@[simp] theorem State.setByte_panelW (a : Word) (b : Byte) (s : State) : (s.setByte a b).panelW = s.panelW :=
  rfl
@[simp] theorem State.setByte_panelH (a : Word) (b : Byte) (s : State) : (s.setByte a b).panelH = s.panelH :=
  rfl
@[simp] theorem State.setByte_layer0 (a : Word) (b : Byte) (s : State) : (s.setByte a b).layer0 = s.layer0 :=
  rfl
@[simp] theorem State.setByte_layer1 (a : Word) (b : Byte) (s : State) : (s.setByte a b).layer1 = s.layer1 :=
  rfl
@[simp] theorem State.setByte_scan0 (a : Word) (b : Byte) (s : State) : (s.setByte a b).scan0 = s.scan0 :=
  rfl
@[simp] theorem State.setByte_scan1 (a : Word) (b : Byte) (s : State) : (s.setByte a b).scan1 = s.scan1 :=
  rfl
@[simp] theorem State.setByte_color (a : Word) (b : Byte) (s : State) : (s.setByte a b).color = s.color :=
  rfl
@[simp] theorem State.setByte_tvalid (a : Word) (b : Byte) (s : State) : (s.setByte a b).tvalid = s.tvalid :=
  rfl
@[simp] theorem State.setByte_target (a : Word) (b : Byte) (s : State) : (s.setByte a b).target = s.target :=
  rfl
@[simp] theorem State.setByte_fvalid (a : Word) (b : Byte) (s : State) : (s.setByte a b).fvalid = s.fvalid :=
  rfl
@[simp] theorem State.setByte_fcur (a : Word) (b : Byte) (s : State) : (s.setByte a b).fcur = s.fcur :=
  rfl
@[simp] theorem State.setByte_fcount (a : Word) (b : Byte) (s : State) : (s.setByte a b).fcount = s.fcount :=
  rfl
@[simp] theorem State.setByte_fonts (a : Word) (b : Byte) (s : State) : (s.setByte a b).fonts = s.fonts :=
  rfl
@[simp] theorem State.setByte_faulted (a : Word) (b : Byte) (s : State) : (s.setByte a b).faulted = s.faulted :=
  rfl
@[simp] theorem State.setByte_faultCause (a : Word) (b : Byte) (s : State) : (s.setByte a b).faultCause = s.faultCause :=
  rfl
@[simp] theorem State.setByte_faultAddr (a : Word) (b : Byte) (s : State) : (s.setByte a b).faultAddr = s.faultAddr :=
  rfl
@[simp] theorem State.setByte_faultCmd (a : Word) (b : Byte) (s : State) : (s.setByte a b).faultCmd = s.faultCmd :=
  rfl
@[simp] theorem State.setByte_mem (a : Word) (b : Byte) (s : State) : (s.setByte a b).mem = Memory.write s.mem a.toNat b :=
  rfl
@[simp] theorem State.setByte_events (a : Word) (b : Byte) (s : State) : (s.setByte a b).events = s.events :=
  rfl
@[simp] theorem State.setByte_cfg (a : Word) (b : Byte) (s : State) : (s.setByte a b).cfg = s.cfg :=
  rfl
@[simp] theorem State.setByte_pending (a : Word) (b : Byte) (s : State) : (s.setByte a b).pending = s.pending :=
  rfl
@[simp] theorem State.setByte_panelAnswers (a : Word) (b : Byte) (s : State) : (s.setByte a b).panelAnswers = s.panelAnswers :=
  rfl
@[simp] theorem State.setByte_panelInits (a : Word) (b : Byte) (s : State) : (s.setByte a b).panelInits = s.panelInits :=
  rfl
@[simp] theorem State.setByte_response (a : Word) (b : Byte) (s : State) : (s.setByte a b).response = s.response :=
  rfl

/-! ### `setHalf` -/

@[simp] theorem State.setHalf_guard (a : Word) (v : Half) (s : State) : (s.setHalf a v).guard = s.guard :=
  rfl
@[simp] theorem State.setHalf_a0 (a : Word) (v : Half) (s : State) : (s.setHalf a v).a0 = s.a0 :=
  rfl
@[simp] theorem State.setHalf_a1 (a : Word) (v : Half) (s : State) : (s.setHalf a v).a1 = s.a1 :=
  rfl
@[simp] theorem State.setHalf_a2 (a : Word) (v : Half) (s : State) : (s.setHalf a v).a2 = s.a2 :=
  rfl
@[simp] theorem State.setHalf_a3 (a : Word) (v : Half) (s : State) : (s.setHalf a v).a3 = s.a3 :=
  rfl
@[simp] theorem State.setHalf_a4 (a : Word) (v : Half) (s : State) : (s.setHalf a v).a4 = s.a4 :=
  rfl
@[simp] theorem State.setHalf_result (a : Word) (v : Half) (s : State) : (s.setHalf a v).result = s.result :=
  rfl
@[simp] theorem State.setHalf_rv (a : Word) (v : Half) (s : State) : (s.setHalf a v).rv = s.rv :=
  rfl
@[simp] theorem State.setHalf_oob (a : Word) (v : Half) (s : State) : (s.setHalf a v).oob = s.oob :=
  rfl
@[simp] theorem State.setHalf_state (a : Word) (v : Half) (s : State) : (s.setHalf a v).state = s.state :=
  rfl
@[simp] theorem State.setHalf_panelW (a : Word) (v : Half) (s : State) : (s.setHalf a v).panelW = s.panelW :=
  rfl
@[simp] theorem State.setHalf_panelH (a : Word) (v : Half) (s : State) : (s.setHalf a v).panelH = s.panelH :=
  rfl
@[simp] theorem State.setHalf_layer0 (a : Word) (v : Half) (s : State) : (s.setHalf a v).layer0 = s.layer0 :=
  rfl
@[simp] theorem State.setHalf_layer1 (a : Word) (v : Half) (s : State) : (s.setHalf a v).layer1 = s.layer1 :=
  rfl
@[simp] theorem State.setHalf_scan0 (a : Word) (v : Half) (s : State) : (s.setHalf a v).scan0 = s.scan0 :=
  rfl
@[simp] theorem State.setHalf_scan1 (a : Word) (v : Half) (s : State) : (s.setHalf a v).scan1 = s.scan1 :=
  rfl
@[simp] theorem State.setHalf_color (a : Word) (v : Half) (s : State) : (s.setHalf a v).color = s.color :=
  rfl
@[simp] theorem State.setHalf_tvalid (a : Word) (v : Half) (s : State) : (s.setHalf a v).tvalid = s.tvalid :=
  rfl
@[simp] theorem State.setHalf_target (a : Word) (v : Half) (s : State) : (s.setHalf a v).target = s.target :=
  rfl
@[simp] theorem State.setHalf_fvalid (a : Word) (v : Half) (s : State) : (s.setHalf a v).fvalid = s.fvalid :=
  rfl
@[simp] theorem State.setHalf_fcur (a : Word) (v : Half) (s : State) : (s.setHalf a v).fcur = s.fcur :=
  rfl
@[simp] theorem State.setHalf_fcount (a : Word) (v : Half) (s : State) : (s.setHalf a v).fcount = s.fcount :=
  rfl
@[simp] theorem State.setHalf_fonts (a : Word) (v : Half) (s : State) : (s.setHalf a v).fonts = s.fonts :=
  rfl
@[simp] theorem State.setHalf_faulted (a : Word) (v : Half) (s : State) : (s.setHalf a v).faulted = s.faulted :=
  rfl
@[simp] theorem State.setHalf_faultCause (a : Word) (v : Half) (s : State) : (s.setHalf a v).faultCause = s.faultCause :=
  rfl
@[simp] theorem State.setHalf_faultAddr (a : Word) (v : Half) (s : State) : (s.setHalf a v).faultAddr = s.faultAddr :=
  rfl
@[simp] theorem State.setHalf_faultCmd (a : Word) (v : Half) (s : State) : (s.setHalf a v).faultCmd = s.faultCmd :=
  rfl
@[simp] theorem State.setHalf_mem (a : Word) (v : Half) (s : State) : (s.setHalf a v).mem = Memory.write (Memory.write s.mem a.toNat (lowByte v)) (a + 1).toNat (highByte v) :=
  rfl
@[simp] theorem State.setHalf_events (a : Word) (v : Half) (s : State) : (s.setHalf a v).events = s.events :=
  rfl
@[simp] theorem State.setHalf_cfg (a : Word) (v : Half) (s : State) : (s.setHalf a v).cfg = s.cfg :=
  rfl
@[simp] theorem State.setHalf_pending (a : Word) (v : Half) (s : State) : (s.setHalf a v).pending = s.pending :=
  rfl
@[simp] theorem State.setHalf_panelAnswers (a : Word) (v : Half) (s : State) : (s.setHalf a v).panelAnswers = s.panelAnswers :=
  rfl
@[simp] theorem State.setHalf_panelInits (a : Word) (v : Half) (s : State) : (s.setHalf a v).panelInits = s.panelInits :=
  rfl
@[simp] theorem State.setHalf_response (a : Word) (v : Half) (s : State) : (s.setHalf a v).response = s.response :=
  rfl

/-! ### `respond` -/

@[simp] theorem State.respond_guard (r : BusResponse) (s : State) : (s.respond r).guard = s.guard :=
  rfl
@[simp] theorem State.respond_a0 (r : BusResponse) (s : State) : (s.respond r).a0 = s.a0 :=
  rfl
@[simp] theorem State.respond_a1 (r : BusResponse) (s : State) : (s.respond r).a1 = s.a1 :=
  rfl
@[simp] theorem State.respond_a2 (r : BusResponse) (s : State) : (s.respond r).a2 = s.a2 :=
  rfl
@[simp] theorem State.respond_a3 (r : BusResponse) (s : State) : (s.respond r).a3 = s.a3 :=
  rfl
@[simp] theorem State.respond_a4 (r : BusResponse) (s : State) : (s.respond r).a4 = s.a4 :=
  rfl
@[simp] theorem State.respond_result (r : BusResponse) (s : State) : (s.respond r).result = s.result :=
  rfl
@[simp] theorem State.respond_rv (r : BusResponse) (s : State) : (s.respond r).rv = s.rv :=
  rfl
@[simp] theorem State.respond_oob (r : BusResponse) (s : State) : (s.respond r).oob = s.oob :=
  rfl
@[simp] theorem State.respond_state (r : BusResponse) (s : State) : (s.respond r).state = s.state :=
  rfl
@[simp] theorem State.respond_panelW (r : BusResponse) (s : State) : (s.respond r).panelW = s.panelW :=
  rfl
@[simp] theorem State.respond_panelH (r : BusResponse) (s : State) : (s.respond r).panelH = s.panelH :=
  rfl
@[simp] theorem State.respond_layer0 (r : BusResponse) (s : State) : (s.respond r).layer0 = s.layer0 :=
  rfl
@[simp] theorem State.respond_layer1 (r : BusResponse) (s : State) : (s.respond r).layer1 = s.layer1 :=
  rfl
@[simp] theorem State.respond_scan0 (r : BusResponse) (s : State) : (s.respond r).scan0 = s.scan0 :=
  rfl
@[simp] theorem State.respond_scan1 (r : BusResponse) (s : State) : (s.respond r).scan1 = s.scan1 :=
  rfl
@[simp] theorem State.respond_color (r : BusResponse) (s : State) : (s.respond r).color = s.color :=
  rfl
@[simp] theorem State.respond_tvalid (r : BusResponse) (s : State) : (s.respond r).tvalid = s.tvalid :=
  rfl
@[simp] theorem State.respond_target (r : BusResponse) (s : State) : (s.respond r).target = s.target :=
  rfl
@[simp] theorem State.respond_fvalid (r : BusResponse) (s : State) : (s.respond r).fvalid = s.fvalid :=
  rfl
@[simp] theorem State.respond_fcur (r : BusResponse) (s : State) : (s.respond r).fcur = s.fcur :=
  rfl
@[simp] theorem State.respond_fcount (r : BusResponse) (s : State) : (s.respond r).fcount = s.fcount :=
  rfl
@[simp] theorem State.respond_fonts (r : BusResponse) (s : State) : (s.respond r).fonts = s.fonts :=
  rfl
@[simp] theorem State.respond_faulted (r : BusResponse) (s : State) : (s.respond r).faulted = s.faulted :=
  rfl
@[simp] theorem State.respond_faultCause (r : BusResponse) (s : State) : (s.respond r).faultCause = s.faultCause :=
  rfl
@[simp] theorem State.respond_faultAddr (r : BusResponse) (s : State) : (s.respond r).faultAddr = s.faultAddr :=
  rfl
@[simp] theorem State.respond_faultCmd (r : BusResponse) (s : State) : (s.respond r).faultCmd = s.faultCmd :=
  rfl
@[simp] theorem State.respond_mem (r : BusResponse) (s : State) : (s.respond r).mem = s.mem :=
  rfl
@[simp] theorem State.respond_events (r : BusResponse) (s : State) : (s.respond r).events = s.events :=
  rfl
@[simp] theorem State.respond_cfg (r : BusResponse) (s : State) : (s.respond r).cfg = s.cfg :=
  rfl
@[simp] theorem State.respond_pending (r : BusResponse) (s : State) : (s.respond r).pending = s.pending :=
  rfl
@[simp] theorem State.respond_panelAnswers (r : BusResponse) (s : State) : (s.respond r).panelAnswers = s.panelAnswers :=
  rfl
@[simp] theorem State.respond_panelInits (r : BusResponse) (s : State) : (s.respond r).panelInits = s.panelInits :=
  rfl
@[simp] theorem State.respond_response (r : BusResponse) (s : State) : (s.respond r).response = r :=
  rfl

/-! ### `accept` -/

@[simp] theorem State.accept_guard (rest : List HostAccess) (s : State) : (s.accept rest).guard = s.guard :=
  rfl
@[simp] theorem State.accept_a0 (rest : List HostAccess) (s : State) : (s.accept rest).a0 = s.a0 :=
  rfl
@[simp] theorem State.accept_a1 (rest : List HostAccess) (s : State) : (s.accept rest).a1 = s.a1 :=
  rfl
@[simp] theorem State.accept_a2 (rest : List HostAccess) (s : State) : (s.accept rest).a2 = s.a2 :=
  rfl
@[simp] theorem State.accept_a3 (rest : List HostAccess) (s : State) : (s.accept rest).a3 = s.a3 :=
  rfl
@[simp] theorem State.accept_a4 (rest : List HostAccess) (s : State) : (s.accept rest).a4 = s.a4 :=
  rfl
@[simp] theorem State.accept_result (rest : List HostAccess) (s : State) : (s.accept rest).result = s.result :=
  rfl
@[simp] theorem State.accept_rv (rest : List HostAccess) (s : State) : (s.accept rest).rv = s.rv :=
  rfl
@[simp] theorem State.accept_oob (rest : List HostAccess) (s : State) : (s.accept rest).oob = s.oob :=
  rfl
@[simp] theorem State.accept_state (rest : List HostAccess) (s : State) : (s.accept rest).state = s.state :=
  rfl
@[simp] theorem State.accept_panelW (rest : List HostAccess) (s : State) : (s.accept rest).panelW = s.panelW :=
  rfl
@[simp] theorem State.accept_panelH (rest : List HostAccess) (s : State) : (s.accept rest).panelH = s.panelH :=
  rfl
@[simp] theorem State.accept_layer0 (rest : List HostAccess) (s : State) : (s.accept rest).layer0 = s.layer0 :=
  rfl
@[simp] theorem State.accept_layer1 (rest : List HostAccess) (s : State) : (s.accept rest).layer1 = s.layer1 :=
  rfl
@[simp] theorem State.accept_scan0 (rest : List HostAccess) (s : State) : (s.accept rest).scan0 = s.scan0 :=
  rfl
@[simp] theorem State.accept_scan1 (rest : List HostAccess) (s : State) : (s.accept rest).scan1 = s.scan1 :=
  rfl
@[simp] theorem State.accept_color (rest : List HostAccess) (s : State) : (s.accept rest).color = s.color :=
  rfl
@[simp] theorem State.accept_tvalid (rest : List HostAccess) (s : State) : (s.accept rest).tvalid = s.tvalid :=
  rfl
@[simp] theorem State.accept_target (rest : List HostAccess) (s : State) : (s.accept rest).target = s.target :=
  rfl
@[simp] theorem State.accept_fvalid (rest : List HostAccess) (s : State) : (s.accept rest).fvalid = s.fvalid :=
  rfl
@[simp] theorem State.accept_fcur (rest : List HostAccess) (s : State) : (s.accept rest).fcur = s.fcur :=
  rfl
@[simp] theorem State.accept_fcount (rest : List HostAccess) (s : State) : (s.accept rest).fcount = s.fcount :=
  rfl
@[simp] theorem State.accept_fonts (rest : List HostAccess) (s : State) : (s.accept rest).fonts = s.fonts :=
  rfl
@[simp] theorem State.accept_faulted (rest : List HostAccess) (s : State) : (s.accept rest).faulted = s.faulted :=
  rfl
@[simp] theorem State.accept_faultCause (rest : List HostAccess) (s : State) : (s.accept rest).faultCause = s.faultCause :=
  rfl
@[simp] theorem State.accept_faultAddr (rest : List HostAccess) (s : State) : (s.accept rest).faultAddr = s.faultAddr :=
  rfl
@[simp] theorem State.accept_faultCmd (rest : List HostAccess) (s : State) : (s.accept rest).faultCmd = s.faultCmd :=
  rfl
@[simp] theorem State.accept_mem (rest : List HostAccess) (s : State) : (s.accept rest).mem = s.mem :=
  rfl
@[simp] theorem State.accept_events (rest : List HostAccess) (s : State) : (s.accept rest).events = s.events :=
  rfl
@[simp] theorem State.accept_cfg (rest : List HostAccess) (s : State) : (s.accept rest).cfg = s.cfg :=
  rfl
@[simp] theorem State.accept_pending (rest : List HostAccess) (s : State) : (s.accept rest).pending = rest :=
  rfl
@[simp] theorem State.accept_panelAnswers (rest : List HostAccess) (s : State) : (s.accept rest).panelAnswers = s.panelAnswers :=
  rfl
@[simp] theorem State.accept_panelInits (rest : List HostAccess) (s : State) : (s.accept rest).panelInits = s.panelInits :=
  rfl
@[simp] theorem State.accept_response (rest : List HostAccess) (s : State) : (s.accept rest).response = .done :=
  rfl

/-! ### `queueCommand` -/

@[simp] theorem State.queueCommand_guard (w : Word) (s : State) : (s.queueCommand w).guard = s.guard :=
  rfl
@[simp] theorem State.queueCommand_a0 (w : Word) (s : State) : (s.queueCommand w).a0 = s.a0 :=
  rfl
@[simp] theorem State.queueCommand_a1 (w : Word) (s : State) : (s.queueCommand w).a1 = s.a1 :=
  rfl
@[simp] theorem State.queueCommand_a2 (w : Word) (s : State) : (s.queueCommand w).a2 = s.a2 :=
  rfl
@[simp] theorem State.queueCommand_a3 (w : Word) (s : State) : (s.queueCommand w).a3 = s.a3 :=
  rfl
@[simp] theorem State.queueCommand_a4 (w : Word) (s : State) : (s.queueCommand w).a4 = s.a4 :=
  rfl
@[simp] theorem State.queueCommand_result (w : Word) (s : State) : (s.queueCommand w).result = s.result :=
  rfl
@[simp] theorem State.queueCommand_rv (w : Word) (s : State) : (s.queueCommand w).rv = s.rv :=
  rfl
@[simp] theorem State.queueCommand_oob (w : Word) (s : State) : (s.queueCommand w).oob = s.oob :=
  rfl
@[simp] theorem State.queueCommand_state (w : Word) (s : State) : (s.queueCommand w).state = s.state :=
  rfl
@[simp] theorem State.queueCommand_panelW (w : Word) (s : State) : (s.queueCommand w).panelW = s.panelW :=
  rfl
@[simp] theorem State.queueCommand_panelH (w : Word) (s : State) : (s.queueCommand w).panelH = s.panelH :=
  rfl
@[simp] theorem State.queueCommand_layer0 (w : Word) (s : State) : (s.queueCommand w).layer0 = s.layer0 :=
  rfl
@[simp] theorem State.queueCommand_layer1 (w : Word) (s : State) : (s.queueCommand w).layer1 = s.layer1 :=
  rfl
@[simp] theorem State.queueCommand_scan0 (w : Word) (s : State) : (s.queueCommand w).scan0 = s.scan0 :=
  rfl
@[simp] theorem State.queueCommand_scan1 (w : Word) (s : State) : (s.queueCommand w).scan1 = s.scan1 :=
  rfl
@[simp] theorem State.queueCommand_color (w : Word) (s : State) : (s.queueCommand w).color = s.color :=
  rfl
@[simp] theorem State.queueCommand_tvalid (w : Word) (s : State) : (s.queueCommand w).tvalid = s.tvalid :=
  rfl
@[simp] theorem State.queueCommand_target (w : Word) (s : State) : (s.queueCommand w).target = s.target :=
  rfl
@[simp] theorem State.queueCommand_fvalid (w : Word) (s : State) : (s.queueCommand w).fvalid = s.fvalid :=
  rfl
@[simp] theorem State.queueCommand_fcur (w : Word) (s : State) : (s.queueCommand w).fcur = s.fcur :=
  rfl
@[simp] theorem State.queueCommand_fcount (w : Word) (s : State) : (s.queueCommand w).fcount = s.fcount :=
  rfl
@[simp] theorem State.queueCommand_fonts (w : Word) (s : State) : (s.queueCommand w).fonts = s.fonts :=
  rfl
@[simp] theorem State.queueCommand_faulted (w : Word) (s : State) : (s.queueCommand w).faulted = s.faulted :=
  rfl
@[simp] theorem State.queueCommand_faultCause (w : Word) (s : State) : (s.queueCommand w).faultCause = s.faultCause :=
  rfl
@[simp] theorem State.queueCommand_faultAddr (w : Word) (s : State) : (s.queueCommand w).faultAddr = s.faultAddr :=
  rfl
@[simp] theorem State.queueCommand_faultCmd (w : Word) (s : State) : (s.queueCommand w).faultCmd = s.faultCmd :=
  rfl
@[simp] theorem State.queueCommand_mem (w : Word) (s : State) : (s.queueCommand w).mem = s.mem :=
  rfl
@[simp] theorem State.queueCommand_events (w : Word) (s : State) : (s.queueCommand w).events = s.events :=
  rfl
@[simp] theorem State.queueCommand_cfg (w : Word) (s : State) : (s.queueCommand w).cfg = s.cfg :=
  rfl
@[simp] theorem State.queueCommand_pending (w : Word) (s : State) : (s.queueCommand w).pending = .regWrite cmdOffset .word w :: s.pending :=
  rfl
@[simp] theorem State.queueCommand_panelAnswers (w : Word) (s : State) : (s.queueCommand w).panelAnswers = s.panelAnswers :=
  rfl
@[simp] theorem State.queueCommand_panelInits (w : Word) (s : State) : (s.queueCommand w).panelInits = s.panelInits :=
  rfl
@[simp] theorem State.queueCommand_response (w : Word) (s : State) : (s.queueCommand w).response = s.response :=
  rfl

/-! ### `raiseFault` -/

@[simp] theorem raiseFault_guard (c : FaultCause) (a w : Word) (s : State) : (raiseFault c a w s).guard = s.guard :=
  rfl
@[simp] theorem raiseFault_a0 (c : FaultCause) (a w : Word) (s : State) : (raiseFault c a w s).a0 = s.a0 :=
  rfl
@[simp] theorem raiseFault_a1 (c : FaultCause) (a w : Word) (s : State) : (raiseFault c a w s).a1 = s.a1 :=
  rfl
@[simp] theorem raiseFault_a2 (c : FaultCause) (a w : Word) (s : State) : (raiseFault c a w s).a2 = s.a2 :=
  rfl
@[simp] theorem raiseFault_a3 (c : FaultCause) (a w : Word) (s : State) : (raiseFault c a w s).a3 = s.a3 :=
  rfl
@[simp] theorem raiseFault_a4 (c : FaultCause) (a w : Word) (s : State) : (raiseFault c a w s).a4 = s.a4 :=
  rfl
@[simp] theorem raiseFault_result (c : FaultCause) (a w : Word) (s : State) : (raiseFault c a w s).result = s.result :=
  rfl
@[simp] theorem raiseFault_rv (c : FaultCause) (a w : Word) (s : State) : (raiseFault c a w s).rv = s.rv :=
  rfl
@[simp] theorem raiseFault_oob (c : FaultCause) (a w : Word) (s : State) : (raiseFault c a w s).oob = s.oob :=
  rfl
@[simp] theorem raiseFault_state (c : FaultCause) (a w : Word) (s : State) : (raiseFault c a w s).state = s.state :=
  rfl
@[simp] theorem raiseFault_panelW (c : FaultCause) (a w : Word) (s : State) : (raiseFault c a w s).panelW = s.panelW :=
  rfl
@[simp] theorem raiseFault_panelH (c : FaultCause) (a w : Word) (s : State) : (raiseFault c a w s).panelH = s.panelH :=
  rfl
@[simp] theorem raiseFault_layer0 (c : FaultCause) (a w : Word) (s : State) : (raiseFault c a w s).layer0 = s.layer0 :=
  rfl
@[simp] theorem raiseFault_layer1 (c : FaultCause) (a w : Word) (s : State) : (raiseFault c a w s).layer1 = s.layer1 :=
  rfl
@[simp] theorem raiseFault_scan0 (c : FaultCause) (a w : Word) (s : State) : (raiseFault c a w s).scan0 = s.scan0 :=
  rfl
@[simp] theorem raiseFault_scan1 (c : FaultCause) (a w : Word) (s : State) : (raiseFault c a w s).scan1 = s.scan1 :=
  rfl
@[simp] theorem raiseFault_color (c : FaultCause) (a w : Word) (s : State) : (raiseFault c a w s).color = s.color :=
  rfl
@[simp] theorem raiseFault_tvalid (c : FaultCause) (a w : Word) (s : State) : (raiseFault c a w s).tvalid = s.tvalid :=
  rfl
@[simp] theorem raiseFault_target (c : FaultCause) (a w : Word) (s : State) : (raiseFault c a w s).target = s.target :=
  rfl
@[simp] theorem raiseFault_fvalid (c : FaultCause) (a w : Word) (s : State) : (raiseFault c a w s).fvalid = s.fvalid :=
  rfl
@[simp] theorem raiseFault_fcur (c : FaultCause) (a w : Word) (s : State) : (raiseFault c a w s).fcur = s.fcur :=
  rfl
@[simp] theorem raiseFault_fcount (c : FaultCause) (a w : Word) (s : State) : (raiseFault c a w s).fcount = s.fcount :=
  rfl
@[simp] theorem raiseFault_fonts (c : FaultCause) (a w : Word) (s : State) : (raiseFault c a w s).fonts = s.fonts :=
  rfl
@[simp] theorem raiseFault_faulted (c : FaultCause) (a w : Word) (s : State) : (raiseFault c a w s).faulted = true :=
  rfl
@[simp] theorem raiseFault_faultCause (c : FaultCause) (a w : Word) (s : State) : (raiseFault c a w s).faultCause = c :=
  rfl
@[simp] theorem raiseFault_faultAddr (c : FaultCause) (a w : Word) (s : State) : (raiseFault c a w s).faultAddr = a :=
  rfl
@[simp] theorem raiseFault_faultCmd (c : FaultCause) (a w : Word) (s : State) : (raiseFault c a w s).faultCmd = w :=
  rfl
@[simp] theorem raiseFault_mem (c : FaultCause) (a w : Word) (s : State) : (raiseFault c a w s).mem = s.mem :=
  rfl
@[simp] theorem raiseFault_events (c : FaultCause) (a w : Word) (s : State) : (raiseFault c a w s).events = s.events :=
  rfl
@[simp] theorem raiseFault_cfg (c : FaultCause) (a w : Word) (s : State) : (raiseFault c a w s).cfg = s.cfg :=
  rfl
@[simp] theorem raiseFault_pending (c : FaultCause) (a w : Word) (s : State) : (raiseFault c a w s).pending = s.pending :=
  rfl
@[simp] theorem raiseFault_panelAnswers (c : FaultCause) (a w : Word) (s : State) : (raiseFault c a w s).panelAnswers = s.panelAnswers :=
  rfl
@[simp] theorem raiseFault_panelInits (c : FaultCause) (a w : Word) (s : State) : (raiseFault c a w s).panelInits = s.panelInits :=
  rfl
@[simp] theorem raiseFault_response (c : FaultCause) (a w : Word) (s : State) : (raiseFault c a w s).response = s.response :=
  rfl

/-! ### `clearRegistry` -/

@[simp] theorem clearRegistry_guard (s : State) : (clearRegistry s).guard = s.guard :=
  rfl
@[simp] theorem clearRegistry_a0 (s : State) : (clearRegistry s).a0 = s.a0 :=
  rfl
@[simp] theorem clearRegistry_a1 (s : State) : (clearRegistry s).a1 = s.a1 :=
  rfl
@[simp] theorem clearRegistry_a2 (s : State) : (clearRegistry s).a2 = s.a2 :=
  rfl
@[simp] theorem clearRegistry_a3 (s : State) : (clearRegistry s).a3 = s.a3 :=
  rfl
@[simp] theorem clearRegistry_a4 (s : State) : (clearRegistry s).a4 = s.a4 :=
  rfl
@[simp] theorem clearRegistry_result (s : State) : (clearRegistry s).result = s.result :=
  rfl
@[simp] theorem clearRegistry_rv (s : State) : (clearRegistry s).rv = s.rv :=
  rfl
@[simp] theorem clearRegistry_oob (s : State) : (clearRegistry s).oob = s.oob :=
  rfl
@[simp] theorem clearRegistry_state (s : State) : (clearRegistry s).state = s.state :=
  rfl
@[simp] theorem clearRegistry_panelW (s : State) : (clearRegistry s).panelW = s.panelW :=
  rfl
@[simp] theorem clearRegistry_panelH (s : State) : (clearRegistry s).panelH = s.panelH :=
  rfl
@[simp] theorem clearRegistry_layer0 (s : State) : (clearRegistry s).layer0 = s.layer0 :=
  rfl
@[simp] theorem clearRegistry_layer1 (s : State) : (clearRegistry s).layer1 = s.layer1 :=
  rfl
@[simp] theorem clearRegistry_scan0 (s : State) : (clearRegistry s).scan0 = s.scan0 :=
  rfl
@[simp] theorem clearRegistry_scan1 (s : State) : (clearRegistry s).scan1 = s.scan1 :=
  rfl
@[simp] theorem clearRegistry_color (s : State) : (clearRegistry s).color = s.color :=
  rfl
@[simp] theorem clearRegistry_tvalid (s : State) : (clearRegistry s).tvalid = s.tvalid :=
  rfl
@[simp] theorem clearRegistry_target (s : State) : (clearRegistry s).target = s.target :=
  rfl
@[simp] theorem clearRegistry_fvalid (s : State) : (clearRegistry s).fvalid = false :=
  rfl
@[simp] theorem clearRegistry_fcur (s : State) : (clearRegistry s).fcur = 0 :=
  rfl
@[simp] theorem clearRegistry_fcount (s : State) : (clearRegistry s).fcount = 0 :=
  rfl
@[simp] theorem clearRegistry_fonts (s : State) : (clearRegistry s).fonts = s.fonts :=
  rfl
@[simp] theorem clearRegistry_faulted (s : State) : (clearRegistry s).faulted = s.faulted :=
  rfl
@[simp] theorem clearRegistry_faultCause (s : State) : (clearRegistry s).faultCause = s.faultCause :=
  rfl
@[simp] theorem clearRegistry_faultAddr (s : State) : (clearRegistry s).faultAddr = s.faultAddr :=
  rfl
@[simp] theorem clearRegistry_faultCmd (s : State) : (clearRegistry s).faultCmd = s.faultCmd :=
  rfl
@[simp] theorem clearRegistry_mem (s : State) : (clearRegistry s).mem = s.mem :=
  rfl
@[simp] theorem clearRegistry_events (s : State) : (clearRegistry s).events = s.events :=
  rfl
@[simp] theorem clearRegistry_cfg (s : State) : (clearRegistry s).cfg = s.cfg :=
  rfl
@[simp] theorem clearRegistry_pending (s : State) : (clearRegistry s).pending = s.pending :=
  rfl
@[simp] theorem clearRegistry_panelAnswers (s : State) : (clearRegistry s).panelAnswers = s.panelAnswers :=
  rfl
@[simp] theorem clearRegistry_panelInits (s : State) : (clearRegistry s).panelInits = s.panelInits :=
  rfl
@[simp] theorem clearRegistry_response (s : State) : (clearRegistry s).response = s.response :=
  rfl

/-! ### `requestPanelInit` -/

@[simp] theorem requestPanelInit_guard (s : State) : (requestPanelInit s).guard = s.guard :=
  rfl
@[simp] theorem requestPanelInit_a0 (s : State) : (requestPanelInit s).a0 = s.a0 :=
  rfl
@[simp] theorem requestPanelInit_a1 (s : State) : (requestPanelInit s).a1 = s.a1 :=
  rfl
@[simp] theorem requestPanelInit_a2 (s : State) : (requestPanelInit s).a2 = s.a2 :=
  rfl
@[simp] theorem requestPanelInit_a3 (s : State) : (requestPanelInit s).a3 = s.a3 :=
  rfl
@[simp] theorem requestPanelInit_a4 (s : State) : (requestPanelInit s).a4 = s.a4 :=
  rfl
@[simp] theorem requestPanelInit_result (s : State) : (requestPanelInit s).result = s.result :=
  rfl
@[simp] theorem requestPanelInit_rv (s : State) : (requestPanelInit s).rv = s.rv :=
  rfl
@[simp] theorem requestPanelInit_oob (s : State) : (requestPanelInit s).oob = s.oob :=
  rfl
@[simp] theorem requestPanelInit_state (s : State) : (requestPanelInit s).state = s.state :=
  rfl
@[simp] theorem requestPanelInit_panelW (s : State) : (requestPanelInit s).panelW = s.panelW :=
  rfl
@[simp] theorem requestPanelInit_panelH (s : State) : (requestPanelInit s).panelH = s.panelH :=
  rfl
@[simp] theorem requestPanelInit_layer0 (s : State) : (requestPanelInit s).layer0 = s.layer0 :=
  rfl
@[simp] theorem requestPanelInit_layer1 (s : State) : (requestPanelInit s).layer1 = s.layer1 :=
  rfl
@[simp] theorem requestPanelInit_scan0 (s : State) : (requestPanelInit s).scan0 = s.scan0 :=
  rfl
@[simp] theorem requestPanelInit_scan1 (s : State) : (requestPanelInit s).scan1 = s.scan1 :=
  rfl
@[simp] theorem requestPanelInit_color (s : State) : (requestPanelInit s).color = s.color :=
  rfl
@[simp] theorem requestPanelInit_tvalid (s : State) : (requestPanelInit s).tvalid = s.tvalid :=
  rfl
@[simp] theorem requestPanelInit_target (s : State) : (requestPanelInit s).target = s.target :=
  rfl
@[simp] theorem requestPanelInit_fvalid (s : State) : (requestPanelInit s).fvalid = s.fvalid :=
  rfl
@[simp] theorem requestPanelInit_fcur (s : State) : (requestPanelInit s).fcur = s.fcur :=
  rfl
@[simp] theorem requestPanelInit_fcount (s : State) : (requestPanelInit s).fcount = s.fcount :=
  rfl
@[simp] theorem requestPanelInit_fonts (s : State) : (requestPanelInit s).fonts = s.fonts :=
  rfl
@[simp] theorem requestPanelInit_faulted (s : State) : (requestPanelInit s).faulted = s.faulted :=
  rfl
@[simp] theorem requestPanelInit_faultCause (s : State) : (requestPanelInit s).faultCause = s.faultCause :=
  rfl
@[simp] theorem requestPanelInit_faultAddr (s : State) : (requestPanelInit s).faultAddr = s.faultAddr :=
  rfl
@[simp] theorem requestPanelInit_faultCmd (s : State) : (requestPanelInit s).faultCmd = s.faultCmd :=
  rfl
@[simp] theorem requestPanelInit_mem (s : State) : (requestPanelInit s).mem = s.mem :=
  rfl
@[simp] theorem requestPanelInit_events (s : State) : (requestPanelInit s).events = s.events ++ [.panelInit s.panelW s.panelH] :=
  rfl
@[simp] theorem requestPanelInit_cfg (s : State) : (requestPanelInit s).cfg = s.cfg :=
  rfl
@[simp] theorem requestPanelInit_pending (s : State) : (requestPanelInit s).pending = s.pending :=
  rfl
@[simp] theorem requestPanelInit_panelAnswers (s : State) : (requestPanelInit s).panelAnswers = s.panelAnswers.tail :=
  rfl
@[simp] theorem requestPanelInit_panelInits (s : State) : (requestPanelInit s).panelInits = s.panelInits + 1 :=
  rfl
@[simp] theorem requestPanelInit_response (s : State) : (requestPanelInit s).response = s.response :=
  rfl

/-! ### `panelDeinit` -/

@[simp] theorem panelDeinit_guard (s : State) : (panelDeinit s).guard = s.guard :=
  rfl
@[simp] theorem panelDeinit_a0 (s : State) : (panelDeinit s).a0 = s.a0 :=
  rfl
@[simp] theorem panelDeinit_a1 (s : State) : (panelDeinit s).a1 = s.a1 :=
  rfl
@[simp] theorem panelDeinit_a2 (s : State) : (panelDeinit s).a2 = s.a2 :=
  rfl
@[simp] theorem panelDeinit_a3 (s : State) : (panelDeinit s).a3 = s.a3 :=
  rfl
@[simp] theorem panelDeinit_a4 (s : State) : (panelDeinit s).a4 = s.a4 :=
  rfl
@[simp] theorem panelDeinit_result (s : State) : (panelDeinit s).result = s.result :=
  rfl
@[simp] theorem panelDeinit_rv (s : State) : (panelDeinit s).rv = s.rv :=
  rfl
@[simp] theorem panelDeinit_oob (s : State) : (panelDeinit s).oob = s.oob :=
  rfl
@[simp] theorem panelDeinit_state (s : State) : (panelDeinit s).state = s.state :=
  rfl
@[simp] theorem panelDeinit_panelW (s : State) : (panelDeinit s).panelW = s.panelW :=
  rfl
@[simp] theorem panelDeinit_panelH (s : State) : (panelDeinit s).panelH = s.panelH :=
  rfl
@[simp] theorem panelDeinit_layer0 (s : State) : (panelDeinit s).layer0 = s.layer0 :=
  rfl
@[simp] theorem panelDeinit_layer1 (s : State) : (panelDeinit s).layer1 = s.layer1 :=
  rfl
@[simp] theorem panelDeinit_scan0 (s : State) : (panelDeinit s).scan0 = s.scan0 :=
  rfl
@[simp] theorem panelDeinit_scan1 (s : State) : (panelDeinit s).scan1 = s.scan1 :=
  rfl
@[simp] theorem panelDeinit_color (s : State) : (panelDeinit s).color = s.color :=
  rfl
@[simp] theorem panelDeinit_tvalid (s : State) : (panelDeinit s).tvalid = s.tvalid :=
  rfl
@[simp] theorem panelDeinit_target (s : State) : (panelDeinit s).target = s.target :=
  rfl
@[simp] theorem panelDeinit_fvalid (s : State) : (panelDeinit s).fvalid = s.fvalid :=
  rfl
@[simp] theorem panelDeinit_fcur (s : State) : (panelDeinit s).fcur = s.fcur :=
  rfl
@[simp] theorem panelDeinit_fcount (s : State) : (panelDeinit s).fcount = s.fcount :=
  rfl
@[simp] theorem panelDeinit_fonts (s : State) : (panelDeinit s).fonts = s.fonts :=
  rfl
@[simp] theorem panelDeinit_faulted (s : State) : (panelDeinit s).faulted = s.faulted :=
  rfl
@[simp] theorem panelDeinit_faultCause (s : State) : (panelDeinit s).faultCause = s.faultCause :=
  rfl
@[simp] theorem panelDeinit_faultAddr (s : State) : (panelDeinit s).faultAddr = s.faultAddr :=
  rfl
@[simp] theorem panelDeinit_faultCmd (s : State) : (panelDeinit s).faultCmd = s.faultCmd :=
  rfl
@[simp] theorem panelDeinit_mem (s : State) : (panelDeinit s).mem = s.mem :=
  rfl
@[simp] theorem panelDeinit_events (s : State) : (panelDeinit s).events = s.events ++ [.panelDeinit] :=
  rfl
@[simp] theorem panelDeinit_cfg (s : State) : (panelDeinit s).cfg = s.cfg :=
  rfl
@[simp] theorem panelDeinit_pending (s : State) : (panelDeinit s).pending = s.pending :=
  rfl
@[simp] theorem panelDeinit_panelAnswers (s : State) : (panelDeinit s).panelAnswers = s.panelAnswers :=
  rfl
@[simp] theorem panelDeinit_panelInits (s : State) : (panelDeinit s).panelInits = s.panelInits :=
  rfl
@[simp] theorem panelDeinit_response (s : State) : (panelDeinit s).response = s.response :=
  rfl

/-! ### `setScanout` -/

@[simp] theorem setScanout_guard (l : LayerId) (a : Word) (s : State) : (setScanout l a s).guard = s.guard :=
  by cases l <;> rfl
@[simp] theorem setScanout_a0 (l : LayerId) (a : Word) (s : State) : (setScanout l a s).a0 = s.a0 :=
  by cases l <;> rfl
@[simp] theorem setScanout_a1 (l : LayerId) (a : Word) (s : State) : (setScanout l a s).a1 = s.a1 :=
  by cases l <;> rfl
@[simp] theorem setScanout_a2 (l : LayerId) (a : Word) (s : State) : (setScanout l a s).a2 = s.a2 :=
  by cases l <;> rfl
@[simp] theorem setScanout_a3 (l : LayerId) (a : Word) (s : State) : (setScanout l a s).a3 = s.a3 :=
  by cases l <;> rfl
@[simp] theorem setScanout_a4 (l : LayerId) (a : Word) (s : State) : (setScanout l a s).a4 = s.a4 :=
  by cases l <;> rfl
@[simp] theorem setScanout_result (l : LayerId) (a : Word) (s : State) : (setScanout l a s).result = s.result :=
  by cases l <;> rfl
@[simp] theorem setScanout_rv (l : LayerId) (a : Word) (s : State) : (setScanout l a s).rv = s.rv :=
  by cases l <;> rfl
@[simp] theorem setScanout_oob (l : LayerId) (a : Word) (s : State) : (setScanout l a s).oob = s.oob :=
  by cases l <;> rfl
@[simp] theorem setScanout_state (l : LayerId) (a : Word) (s : State) : (setScanout l a s).state = s.state :=
  by cases l <;> rfl
@[simp] theorem setScanout_panelW (l : LayerId) (a : Word) (s : State) : (setScanout l a s).panelW = s.panelW :=
  by cases l <;> rfl
@[simp] theorem setScanout_panelH (l : LayerId) (a : Word) (s : State) : (setScanout l a s).panelH = s.panelH :=
  by cases l <;> rfl
@[simp] theorem setScanout_layer0 (l : LayerId) (a : Word) (s : State) : (setScanout l a s).layer0 = s.layer0 :=
  by cases l <;> rfl
@[simp] theorem setScanout_layer1 (l : LayerId) (a : Word) (s : State) : (setScanout l a s).layer1 = s.layer1 :=
  by cases l <;> rfl
@[simp] theorem setScanout_color (l : LayerId) (a : Word) (s : State) : (setScanout l a s).color = s.color :=
  by cases l <;> rfl
@[simp] theorem setScanout_tvalid (l : LayerId) (a : Word) (s : State) : (setScanout l a s).tvalid = s.tvalid :=
  by cases l <;> rfl
@[simp] theorem setScanout_target (l : LayerId) (a : Word) (s : State) : (setScanout l a s).target = s.target :=
  by cases l <;> rfl
@[simp] theorem setScanout_fvalid (l : LayerId) (a : Word) (s : State) : (setScanout l a s).fvalid = s.fvalid :=
  by cases l <;> rfl
@[simp] theorem setScanout_fcur (l : LayerId) (a : Word) (s : State) : (setScanout l a s).fcur = s.fcur :=
  by cases l <;> rfl
@[simp] theorem setScanout_fcount (l : LayerId) (a : Word) (s : State) : (setScanout l a s).fcount = s.fcount :=
  by cases l <;> rfl
@[simp] theorem setScanout_fonts (l : LayerId) (a : Word) (s : State) : (setScanout l a s).fonts = s.fonts :=
  by cases l <;> rfl
@[simp] theorem setScanout_faulted (l : LayerId) (a : Word) (s : State) : (setScanout l a s).faulted = s.faulted :=
  by cases l <;> rfl
@[simp] theorem setScanout_faultCause (l : LayerId) (a : Word) (s : State) : (setScanout l a s).faultCause = s.faultCause :=
  by cases l <;> rfl
@[simp] theorem setScanout_faultAddr (l : LayerId) (a : Word) (s : State) : (setScanout l a s).faultAddr = s.faultAddr :=
  by cases l <;> rfl
@[simp] theorem setScanout_faultCmd (l : LayerId) (a : Word) (s : State) : (setScanout l a s).faultCmd = s.faultCmd :=
  by cases l <;> rfl
@[simp] theorem setScanout_mem (l : LayerId) (a : Word) (s : State) : (setScanout l a s).mem = s.mem :=
  by cases l <;> rfl
@[simp] theorem setScanout_events (l : LayerId) (a : Word) (s : State) : (setScanout l a s).events = s.events ++ [.setScanout l a] :=
  by cases l <;> rfl
@[simp] theorem setScanout_cfg (l : LayerId) (a : Word) (s : State) : (setScanout l a s).cfg = s.cfg :=
  by cases l <;> rfl
@[simp] theorem setScanout_pending (l : LayerId) (a : Word) (s : State) : (setScanout l a s).pending = s.pending :=
  by cases l <;> rfl
@[simp] theorem setScanout_panelAnswers (l : LayerId) (a : Word) (s : State) : (setScanout l a s).panelAnswers = s.panelAnswers :=
  by cases l <;> rfl
@[simp] theorem setScanout_panelInits (l : LayerId) (a : Word) (s : State) : (setScanout l a s).panelInits = s.panelInits :=
  by cases l <;> rfl
@[simp] theorem setScanout_response (l : LayerId) (a : Word) (s : State) : (setScanout l a s).response = s.response :=
  by cases l <;> rfl

/-! ### `setLayer` -/

@[simp] theorem State.setLayer_guard (l : LayerId) (x : Layer) (s : State) : (s.setLayer l x).guard = s.guard :=
  by cases l <;> rfl
@[simp] theorem State.setLayer_a0 (l : LayerId) (x : Layer) (s : State) : (s.setLayer l x).a0 = s.a0 :=
  by cases l <;> rfl
@[simp] theorem State.setLayer_a1 (l : LayerId) (x : Layer) (s : State) : (s.setLayer l x).a1 = s.a1 :=
  by cases l <;> rfl
@[simp] theorem State.setLayer_a2 (l : LayerId) (x : Layer) (s : State) : (s.setLayer l x).a2 = s.a2 :=
  by cases l <;> rfl
@[simp] theorem State.setLayer_a3 (l : LayerId) (x : Layer) (s : State) : (s.setLayer l x).a3 = s.a3 :=
  by cases l <;> rfl
@[simp] theorem State.setLayer_a4 (l : LayerId) (x : Layer) (s : State) : (s.setLayer l x).a4 = s.a4 :=
  by cases l <;> rfl
@[simp] theorem State.setLayer_result (l : LayerId) (x : Layer) (s : State) : (s.setLayer l x).result = s.result :=
  by cases l <;> rfl
@[simp] theorem State.setLayer_rv (l : LayerId) (x : Layer) (s : State) : (s.setLayer l x).rv = s.rv :=
  by cases l <;> rfl
@[simp] theorem State.setLayer_oob (l : LayerId) (x : Layer) (s : State) : (s.setLayer l x).oob = s.oob :=
  by cases l <;> rfl
@[simp] theorem State.setLayer_state (l : LayerId) (x : Layer) (s : State) : (s.setLayer l x).state = s.state :=
  by cases l <;> rfl
@[simp] theorem State.setLayer_panelW (l : LayerId) (x : Layer) (s : State) : (s.setLayer l x).panelW = s.panelW :=
  by cases l <;> rfl
@[simp] theorem State.setLayer_panelH (l : LayerId) (x : Layer) (s : State) : (s.setLayer l x).panelH = s.panelH :=
  by cases l <;> rfl
@[simp] theorem State.setLayer_scan0 (l : LayerId) (x : Layer) (s : State) : (s.setLayer l x).scan0 = s.scan0 :=
  by cases l <;> rfl
@[simp] theorem State.setLayer_scan1 (l : LayerId) (x : Layer) (s : State) : (s.setLayer l x).scan1 = s.scan1 :=
  by cases l <;> rfl
@[simp] theorem State.setLayer_color (l : LayerId) (x : Layer) (s : State) : (s.setLayer l x).color = s.color :=
  by cases l <;> rfl
@[simp] theorem State.setLayer_tvalid (l : LayerId) (x : Layer) (s : State) : (s.setLayer l x).tvalid = s.tvalid :=
  by cases l <;> rfl
@[simp] theorem State.setLayer_target (l : LayerId) (x : Layer) (s : State) : (s.setLayer l x).target = s.target :=
  by cases l <;> rfl
@[simp] theorem State.setLayer_fvalid (l : LayerId) (x : Layer) (s : State) : (s.setLayer l x).fvalid = s.fvalid :=
  by cases l <;> rfl
@[simp] theorem State.setLayer_fcur (l : LayerId) (x : Layer) (s : State) : (s.setLayer l x).fcur = s.fcur :=
  by cases l <;> rfl
@[simp] theorem State.setLayer_fcount (l : LayerId) (x : Layer) (s : State) : (s.setLayer l x).fcount = s.fcount :=
  by cases l <;> rfl
@[simp] theorem State.setLayer_fonts (l : LayerId) (x : Layer) (s : State) : (s.setLayer l x).fonts = s.fonts :=
  by cases l <;> rfl
@[simp] theorem State.setLayer_faulted (l : LayerId) (x : Layer) (s : State) : (s.setLayer l x).faulted = s.faulted :=
  by cases l <;> rfl
@[simp] theorem State.setLayer_faultCause (l : LayerId) (x : Layer) (s : State) : (s.setLayer l x).faultCause = s.faultCause :=
  by cases l <;> rfl
@[simp] theorem State.setLayer_faultAddr (l : LayerId) (x : Layer) (s : State) : (s.setLayer l x).faultAddr = s.faultAddr :=
  by cases l <;> rfl
@[simp] theorem State.setLayer_faultCmd (l : LayerId) (x : Layer) (s : State) : (s.setLayer l x).faultCmd = s.faultCmd :=
  by cases l <;> rfl
@[simp] theorem State.setLayer_mem (l : LayerId) (x : Layer) (s : State) : (s.setLayer l x).mem = s.mem :=
  by cases l <;> rfl
@[simp] theorem State.setLayer_events (l : LayerId) (x : Layer) (s : State) : (s.setLayer l x).events = s.events :=
  by cases l <;> rfl
@[simp] theorem State.setLayer_cfg (l : LayerId) (x : Layer) (s : State) : (s.setLayer l x).cfg = s.cfg :=
  by cases l <;> rfl
@[simp] theorem State.setLayer_pending (l : LayerId) (x : Layer) (s : State) : (s.setLayer l x).pending = s.pending :=
  by cases l <;> rfl
@[simp] theorem State.setLayer_panelAnswers (l : LayerId) (x : Layer) (s : State) : (s.setLayer l x).panelAnswers = s.panelAnswers :=
  by cases l <;> rfl
@[simp] theorem State.setLayer_panelInits (l : LayerId) (x : Layer) (s : State) : (s.setLayer l x).panelInits = s.panelInits :=
  by cases l <;> rfl
@[simp] theorem State.setLayer_response (l : LayerId) (x : Layer) (s : State) : (s.setLayer l x).response = s.response :=
  by cases l <;> rfl

/-! ### The updates that depend on the layer -/

@[simp] theorem setScanout_scan0_layer0 (a : Word) (s : State) : (setScanout .layer0 a s).scan0 = a := rfl
@[simp] theorem setScanout_scan1_layer0 (a : Word) (s : State) : (setScanout .layer0 a s).scan1 = s.scan1 := rfl
@[simp] theorem setScanout_scan0_layer1 (a : Word) (s : State) : (setScanout .layer1 a s).scan0 = s.scan0 := rfl
@[simp] theorem setScanout_scan1_layer1 (a : Word) (s : State) : (setScanout .layer1 a s).scan1 = a := rfl
@[simp] theorem setScanout_layer (l k : LayerId) (a : Word) (s : State) : (setScanout l a s).layer k = s.layer k := by
  cases l <;> cases k <;> rfl

@[simp] theorem State.setLayer_layer0_same (x : Layer) (s : State) : (s.setLayer .layer0 x).layer0 = x := rfl
@[simp] theorem State.setLayer_layer1_other (x : Layer) (s : State) : (s.setLayer .layer0 x).layer1 = s.layer1 := rfl
@[simp] theorem State.setLayer_layer0_other (x : Layer) (s : State) : (s.setLayer .layer1 x).layer0 = s.layer0 := rfl
@[simp] theorem State.setLayer_layer1_same (x : Layer) (s : State) : (s.setLayer .layer1 x).layer1 = x := rfl
@[simp] theorem State.setLayer_layer_same (l : LayerId) (x : Layer) (s : State) : (s.setLayer l x).layer l = x := by
  cases l <;> rfl
theorem State.setLayer_layer_other {l k : LayerId} (h : k ≠ l) (x : Layer) (s : State) :
    (s.setLayer l x).layer k = s.layer k := by
  cases l <;> cases k <;> first | rfl | exact absurd rfl h

@[simp] theorem State.layer_layer0 (s : State) : s.layer .layer0 = s.layer0 := rfl
@[simp] theorem State.layer_layer1 (s : State) : s.layer .layer1 = s.layer1 := rfl

/-! ### Reset -/

/-- What a reset of the block keeps (10_state.md R35: memory is not touched; R191: no event). -/
theorem resetBlock_keeps (s : State) :
    (resetBlock s).mem = s.mem ∧ (resetBlock s).events = s.events ∧ (resetBlock s).cfg = s.cfg ∧
      (resetBlock s).pending = s.pending ∧ (resetBlock s).panelAnswers = s.panelAnswers ∧
      (resetBlock s).panelInits = s.panelInits ∧ (resetBlock s).response = s.response :=
  ⟨rfl, rfl, rfl, rfl, rfl, rfl, rfl⟩

/-- A reset of the block gives every element of the block its reset value, whatever it held (10_state.md R35). -/
theorem resetBlock_forgets (s t : State) (hm : s.mem = t.mem) (he : s.events = t.events) (hc : s.cfg = t.cfg)
    (hp : s.pending = t.pending) (ha : s.panelAnswers = t.panelAnswers) (hi : s.panelInits = t.panelInits)
    (hr : s.response = t.response) : resetBlock s = resetBlock t := by
  unfold resetBlock
  rw [hm, he, hc, hp, ha, hi, hr]

end Sys2Proof.Machine
end

