-- ==== Sys2Proof/Laws/Memory.lean ====
section
/-!
SUPPORT. The laws of memory: a read after a write, the canonical form, and that canonical memories with equal bytes are
equal.
-/

namespace Sys2Proof.Machine

theorem Memory.risingFrom_cons {lo k : Nat} {b : Byte} {m : Mem} :
    Memory.risingFrom lo ((k, b) :: m) = true ↔
      lo ≤ k ∧ k < 2 ^ 32 ∧ b ≠ unwrittenByte ∧ Memory.risingFrom (k + 1) m = true := by
  simp [Memory.risingFrom, and_assoc]

theorem Memory.risingFrom_mono {lo lo' : Nat} (h : lo' ≤ lo) {m : Mem} (hm : Memory.risingFrom lo m = true) :
    Memory.risingFrom lo' m = true := by
  cases m with
  | nil => rfl
  | cons c m =>
    obtain ⟨h1, h2⟩ := Memory.risingFrom_cons.mp hm
    exact Memory.risingFrom_cons.mpr ⟨by omega, h2⟩

/-- An address below every listed one reads as unwritten. -/
theorem Memory.read_below {lo a : Nat} {m : Mem} (hm : Memory.risingFrom lo m = true) (h : a < lo) :
    Memory.read m a = unwrittenByte := by
  induction m generalizing lo with
  | nil => rfl
  | cons c m ih =>
    obtain ⟨h1, -, -, h4⟩ := Memory.risingFrom_cons.mp hm
    rw [Memory.read, if_neg (by omega)]
    exact ih h4 (by omega)

/-- A write keeps the canonical form. -/
theorem Memory.risingFrom_write {lo a : Nat} {b : Byte} {m : Mem} (hm : Memory.risingFrom lo m = true) (hlo : lo ≤ a)
    (ha : a < 2 ^ 32) : Memory.risingFrom lo (Memory.write m a b) = true := by
  induction m generalizing lo with
  | nil =>
    rw [Memory.write]
    split
    · rfl
    · exact Memory.risingFrom_cons.mpr ⟨hlo, ha, by assumption, rfl⟩
  | cons c m ih =>
    obtain ⟨k, v⟩ := c
    obtain ⟨h1, h2, h3, h4⟩ := Memory.risingFrom_cons.mp hm
    rw [Memory.write]
    split
    · split
      · exact hm
      · exact Memory.risingFrom_cons.mpr
          ⟨hlo, ha, by assumption, Memory.risingFrom_cons.mpr ⟨by omega, h2, h3, h4⟩⟩
    · split
      · split
        · exact Memory.risingFrom_mono (by omega) h4
        · exact Memory.risingFrom_cons.mpr ⟨hlo, ha, by assumption, by subst_vars; exact h4⟩
      · exact Memory.risingFrom_cons.mpr ⟨h1, h2, h3, ih h4 (by omega)⟩

theorem Memory.wf_write {a : Nat} {b : Byte} {m : Mem} (hm : Memory.wf m = true) (ha : a < 2 ^ 32) :
    Memory.wf (Memory.write m a b) = true :=
  Memory.risingFrom_write hm (Nat.zero_le a) ha

/-- A read after a write, for memory whose addresses are at least `lo`. -/
theorem Memory.read_write_rising {lo a x : Nat} {b : Byte} {m : Mem} (hm : Memory.risingFrom lo m = true) :
    Memory.read (Memory.write m a b) x = if x = a then b else Memory.read m x := by
  induction m generalizing lo with
  | nil =>
    rw [Memory.write]
    split <;> simp_all [Memory.read]
  | cons c m ih =>
    obtain ⟨k, v⟩ := c
    obtain ⟨h1, -, -, h4⟩ := Memory.risingFrom_cons.mp hm
    rw [Memory.write]
    split
    · split
      · split
        · subst_vars
          exact Memory.read_below (Memory.risingFrom_cons.mpr ⟨Nat.le_refl k, (Memory.risingFrom_cons.mp hm).2⟩) (by omega)
        · rfl
      · rfl
    · split
      · split
        · subst_vars
          split
          · subst_vars
            exact Memory.read_below h4 (by omega)
          · rw [Memory.read, if_neg (by assumption)]
        · subst_vars
          by_cases hx : x = k <;> simp [Memory.read, hx]
      · rw [Memory.read, ih h4, Memory.read]
        by_cases hx : x = k
        · rw [if_pos hx, if_neg (by omega), if_pos hx]
        · rw [if_neg hx, if_neg hx]

/-- Two memories in canonical form that read alike at every address are equal. -/
theorem Memory.ext_rising {lo : Nat} {m n : Mem} (hm : Memory.risingFrom lo m = true)
    (hn : Memory.risingFrom lo n = true) (h : ∀ a, a < 2 ^ 32 → Memory.read m a = Memory.read n a) : m = n := by
  induction m generalizing lo n with
  | nil =>
    cases n with
    | nil => rfl
    | cons d n =>
      obtain ⟨k, v⟩ := d
      obtain ⟨-, h2, h3, -⟩ := Memory.risingFrom_cons.mp hn
      have := h k h2
      rw [Memory.read, Memory.read, if_pos rfl] at this
      exact absurd this.symm h3
  | cons c m ih =>
    obtain ⟨k, v⟩ := c
    obtain ⟨k1, k2, k3, k4⟩ := Memory.risingFrom_cons.mp hm
    cases n with
    | nil =>
      have := h k k2
      rw [Memory.read, Memory.read, if_pos rfl] at this
      exact absurd this k3
    | cons d n =>
      obtain ⟨j, w⟩ := d
      obtain ⟨j1, j2, j3, j4⟩ := Memory.risingFrom_cons.mp hn
      have hkj : k = j := by
        rcases Nat.lt_trichotomy k j with hlt | heq | hgt
        · have := h k k2
          rw [Memory.read, if_pos rfl, Memory.read, if_neg (by omega), Memory.read_below j4 (by omega)] at this
          exact absurd this k3
        · exact heq
        · have := h j j2
          rw [Memory.read, if_neg (by omega), Memory.read_below k4 (by omega), Memory.read, if_pos rfl] at this
          exact absurd this.symm j3
      subst hkj
      have hv : v = w := by simpa [Memory.read] using h k k2
      subst hv
      refine congrArg _ (ih k4 j4 fun a ha => ?_)
      by_cases hak : a = k
      · rw [hak, Memory.read_below k4 (by omega), Memory.read_below j4 (by omega)]
      · simpa [Memory.read, hak] using h a ha

theorem Memory.ext {m n : Mem} (hm : Memory.wf m = true) (hn : Memory.wf n = true)
    (h : ∀ a : Word, Memory.read m a.toNat = Memory.read n a.toNat) : m = n :=
  Memory.ext_rising hm hn fun a ha => by
    have := h (BitVec.ofNat 32 a)
    rwa [BitVec.toNat_ofNat, Nat.mod_eq_of_lt ha] at this

/-! ### Bytes and 16-bit values of a state's memory -/

theorem State.setByte_wf {a : Word} {b : Byte} {s : State} (h : Memory.wf s.mem = true) :
    Memory.wf (s.setByte a b).mem = true :=
  Memory.wf_write h a.isLt

theorem State.setHalf_wf {a : Word} {v : Half} {s : State} (h : Memory.wf s.mem = true) :
    Memory.wf (s.setHalf a v).mem = true :=
  State.setByte_wf (State.setByte_wf h)

theorem State.byteAt_setByte {a x : Word} {b : Byte} {s : State} (h : Memory.wf s.mem = true) :
    (s.setByte a b).byteAt x = if x = a then b else s.byteAt x := by
  simp only [State.byteAt, State.setByte_mem, Memory.read_write_rising h, BitVec.toNat_inj]

theorem word_ne_succ (a : Word) : a ≠ a + 1 := by
  intro h
  simpa using congrArg (· - a) h

/-- The two bytes of a 16-bit store, low byte at the lower address, and no other (20_memory.md R41). -/
theorem State.byteAt_setHalf {a x : Word} {v : Half} {s : State} (h : Memory.wf s.mem = true) :
    (s.setHalf a v).byteAt x = if x = a then lowByte v else if x = a + 1 then highByte v else s.byteAt x := by
  rw [State.setHalf, State.byteAt_setByte (State.setByte_wf h), State.byteAt_setByte h]
  by_cases h1 : x = a
  · subst h1
    rw [if_neg (word_ne_succ x), if_pos rfl, if_pos rfl]
  · simp only [if_neg h1]

@[simp] theorem joinBytes_low_high (v : Half) : joinBytes (lowByte v) (highByte v) = v := by
  apply BitVec.eq_of_getLsbD_eq
  intro i hi
  simp only [joinBytes, lowByte, highByte, BitVec.getLsbD_append, BitVec.getLsbD_extractLsb']
  by_cases h : i < 8
  · simp [h]
  · simp only [h, if_false]
    rw [show 8 + (i - 8) = i by omega, decide_eq_true (by omega : i - 8 < 8), Bool.true_and]

theorem State.halfAt_setHalf_same {a : Word} {v : Half} {s : State} (h : Memory.wf s.mem = true) :
    (s.setHalf a v).halfAt a = v := by
  rw [State.halfAt, State.byteAt_setHalf h, State.byteAt_setHalf h, if_pos rfl, if_neg (Ne.symm (word_ne_succ a)),
    if_pos rfl, joinBytes_low_high]

/-- A 16-bit store changes only memory. -/
theorem State.setHalf_frame (a : Word) (v : Half) (s : State) :
    s.setHalf a v = { s with mem := (s.setHalf a v).mem } := rfl

end Sys2Proof.Machine
end

