-- ==== Sys2Proof/Laws/Flow.lean ====
section
/-!
SUPPORT. The flow of a command: its combinators, and what each shared operation can do. `Draws` is the one frame of
everything that goes through the memory port.
-/

namespace Sys2Proof.Machine

/-! ### Combinators -/

@[simp] theorem Flow.bind_go {α β : Type} (a : α) (s : State) (k : α → State → Flow β) :
    (Flow.go a s).bind k = k a s := rfl

@[simp] theorem Flow.bind_trap {α β : Type} (c : FaultCause) (x : Word) (s : State) (k : α → State → Flow β) :
    (Flow.trap c x s).bind k = .trap c x s := rfl

theorem Flow.bind_assoc {α β γ : Type} (m : Flow α) (k : α → State → Flow β) (l : β → State → Flow γ) :
    (m.bind k).bind l = m.bind fun a s => (k a s).bind l := by
  cases m <;> rfl

@[simp] theorem Flow.fold_nil {α β : Type} (f : β → α → State → Flow α) (a : α) (s : State) :
    Flow.fold f [] a s = .go a s := rfl

@[simp] theorem Flow.fold_cons {α β : Type} (f : β → α → State → Flow α) (b : β) (bs : List β) (a : α) (s : State) :
    Flow.fold f (b :: bs) a s = (f b a s).bind (Flow.fold f bs) := rfl

theorem Flow.fold_append {α β : Type} (f : β → α → State → Flow α) (bs cs : List β) (a : α) (s : State) :
    Flow.fold f (bs ++ cs) a s = (Flow.fold f bs a s).bind (Flow.fold f cs) := by
  induction bs generalizing a s with
  | nil => rfl
  | cons b bs ih =>
    rw [List.cons_append, Flow.fold_cons, Flow.fold_cons, Flow.bind_assoc]
    congr 1
    funext a s
    exact ih a s

@[simp] theorem Flow.each_nil {β : Type} (f : β → State → Flow Unit) (s : State) : Flow.each f [] s = .go () s := rfl

@[simp] theorem Flow.each_cons {β : Type} (f : β → State → Flow Unit) (b : β) (bs : List β) (s : State) :
    Flow.each f (b :: bs) s = (f b s).bind fun _ s => Flow.each f bs s := rfl

theorem Flow.each_append {β : Type} (f : β → State → Flow Unit) (bs cs : List β) (s : State) :
    Flow.each f (bs ++ cs) s = (Flow.each f bs s).bind fun _ s => Flow.each f cs s :=
  Flow.fold_append _ bs cs () s

@[simp] theorem storePixels_nil (s : State) : storePixels [] s = .go () s := rfl

@[simp] theorem storePixels_cons (p : Coord) (ps : List Coord) (s : State) :
    storePixels (p :: ps) s = (pixelWrite p s).bind fun _ s => storePixels ps s := rfl

theorem storePixels_append (ps qs : List Coord) (s : State) :
    storePixels (ps ++ qs) s = (storePixels ps s).bind fun _ s => storePixels qs s :=
  Flow.each_append pixelWrite ps qs s

/-- The state a flow ends in, whether it goes on or not. -/
def Flow.final {α : Type} : Flow α → State
  | .go _ s => s
  | .trap _ _ s => s

/-- The end of a command: it went on, or it took a fault with its own word in FAULT_CMD (60_exceptions.md R174). -/
theorem Flow.finish_cases {i : Instr} {f : Flow Unit} {t : State} (h : f.finish i = .next t) :
    f = .go () t ∨ ∃ c x s, f = .trap c x s ∧ t = raiseFault c x (encode i) s := by
  cases f with
  | go a s => exact .inl (by cases h; rfl)
  | trap c x s => exact .inr ⟨c, x, s, rfl, by cases h; rfl⟩

/-! ### The frame of the memory port -/

/-- Everything that draws changes only memory, which it keeps canonical, and OOB; and of memory only bytes of pixels
whose store is admitted (20_memory.md R52). -/
structure Draws (s t : State) : Prop where
  frame : t = { s with mem := t.mem, oob := t.oob }
  wf : Memory.wf s.mem = true → Memory.wf t.mem = true
  oob : s.oob = true → t.oob = true
  kept : Memory.wf s.mem = true → ∀ a : Word,
    (∀ p, s.Admits p → a ≠ s.pixelAddr p ∧ a ≠ s.pixelAddr p + 1) → t.byteAt a = s.byteAt a

theorem Draws.refl (s : State) : Draws s s := ⟨rfl, id, id, fun _ _ _ => rfl⟩

/-- What drawing leaves alone decides where a pixel goes, whether it is admitted and whether it is backed. -/
theorem Draws.same {s t : State} (h : Draws s t) :
    t.guard = s.guard ∧ t.color = s.color ∧ t.cfg = s.cfg ∧ (∀ i, t.indexAddr i = s.indexAddr i) ∧
      (∀ p, t.pixelAddr p = s.pixelAddr p) ∧ (∀ p, t.inRange p = s.inRange p) ∧ (∀ a, t.backed a = s.backed a) := by
  have hf := h.frame
  generalize t.mem = m at hf
  generalize t.oob = o at hf
  subst hf
  exact ⟨rfl, rfl, rfl, fun _ => rfl, fun _ => rfl, fun _ => rfl, fun _ => rfl⟩

theorem Draws.admits {s t : State} (h : Draws s t) (p : Coord) : t.Admits p ↔ s.Admits p := by
  unfold State.Admits
  rw [h.same.1, h.same.2.2.2.2.2.1]

theorem Draws.trans {s t u : State} (h : Draws s t) (k : Draws t u) : Draws s u := by
  refine ⟨by rw [k.frame, h.frame], k.wf ∘ h.wf, k.oob ∘ h.oob, fun hw a ha => ?_⟩
  rw [k.kept (h.wf hw) a fun p hp => by
    rw [h.same.2.2.2.2.1 p]
    exact ha p ((h.admits p).mp hp)]
  exact h.kept hw a ha

/-- A flow through the memory port: it draws, and ends early only by a bus fault (60_exceptions.md R172). -/
structure Port {α : Type} (s : State) (f : Flow α) : Prop where
  draws : Draws s f.final
  cause : ∀ c x u, f = .trap c x u → c = .busRead ∨ c = .busWrite

theorem Port.go {α : Type} {s t : State} (h : Draws s t) (a : α) : Port s (.go a t) :=
  ⟨h, fun _ _ _ h => by cases h⟩

theorem Port.bind {α β : Type} {s : State} {m : Flow α} {k : α → State → Flow β} (hm : Port s m)
    (hk : ∀ a t, Port t (k a t)) : Port s (m.bind k) := by
  cases m with
  | go a t => exact ⟨hm.draws.trans (hk a t).draws, (hk a t).cause⟩
  | trap c x t => exact ⟨hm.draws, fun c' x' u h => by cases h; exact hm.cause c x t rfl⟩

theorem Port.fold {α β : Type} {f : β → α → State → Flow α} (hf : ∀ b a s, Port s (f b a s)) (bs : List β) (a : α)
    (s : State) : Port s (Flow.fold f bs a s) := by
  induction bs generalizing a s with
  | nil => exact Port.go (Draws.refl s) a
  | cons b bs ih => exact Port.bind (hf b a s) ih

theorem Port.each {β : Type} {f : β → State → Flow Unit} (hf : ∀ b s, Port s (f b s)) (bs : List β) (s : State) :
    Port s (Flow.each f bs s) :=
  Port.fold (fun b _ s => hf b s) bs () s

/-- The end of a command that goes through the memory port: it only drew, or it drew and then latched a bus fault with
its own word in FAULT_CMD (60_exceptions.md R174, R175). -/
theorem Port.finish {i : Instr} {f : Flow Unit} {s t : State} (hf : Port s f) (h : f.finish i = .next t) :
    ∃ u, Draws s u ∧ (t = u ∨ ∃ c x, (c = .busRead ∨ c = .busWrite) ∧ t = raiseFault c x (encode i) u) := by
  rcases Flow.finish_cases h with h | ⟨c, x, u, h, ht⟩
  · subst h
    exact ⟨t, hf.draws, .inl rfl⟩
  · subst h
    exact ⟨u, hf.draws, .inr ⟨c, x, hf.cause c x u rfl, ht⟩⟩

/-! ### What the shared operations can do -/

/-- `MemRead`: the byte and no change, or BUS_READ at that address (20_memory.md R42). -/
theorem memRead_eq (a : Word) (s : State) :
    memRead a s = if s.backed a then .go (s.byteAt a) s else .trap .busRead a s := rfl

theorem memRead_port (a : Word) (s : State) : Port s (memRead a s) := by
  rw [memRead_eq]
  split
  · exact Port.go (Draws.refl s) _
  · exact ⟨Draws.refl s, fun c x u h => by cases h; exact .inl rfl⟩

@[simp] theorem memRead_final (a : Word) (s : State) : (memRead a s).final = s := by
  rw [memRead_eq]
  split <;> rfl

/-- `MemWrite`: the two bytes, or BUS_WRITE at that address with nothing stored (20_memory.md R43). -/
theorem memWrite_eq (a : Word) (v : Half) (s : State) :
    memWrite a v s = if s.backed a && s.backed (a + 1) then .go () (s.setHalf a v) else .trap .busWrite a s := rfl

/-- `PixelWrite`: dropped with OOB set, stored, or BUS_WRITE (20_memory.md R52). -/
theorem pixelWrite_cases (p : Coord) (s : State) :
    (s.guard = true ∧ s.inRange p = false ∧ pixelWrite p s = .go () { s with oob := true }) ∨
    (s.Admits p ∧ s.backed (s.pixelAddr p) = true ∧ s.backed (s.pixelAddr p + 1) = true ∧
      pixelWrite p s = .go () (s.setHalf (s.pixelAddr p) s.color)) ∨
    (s.Admits p ∧ (s.backed (s.pixelAddr p) && s.backed (s.pixelAddr p + 1)) = false ∧
      pixelWrite p s = .trap .busWrite (s.pixelAddr p) s) := by
  unfold pixelWrite State.Admits
  rw [memWrite_eq]
  cases hg : s.guard <;> cases hr : s.inRange p <;> cases hb : s.backed (s.pixelAddr p) <;>
    cases hc : s.backed (s.pixelAddr p + 1) <;> simp

theorem pixelWrite_port (p : Coord) (s : State) : Port s (pixelWrite p s) := by
  rcases pixelWrite_cases p s with ⟨-, -, h⟩ | ⟨ha, -, -, h⟩ | ⟨-, -, h⟩ <;> rw [h]
  · exact Port.go (t := { s with oob := true }) ⟨rfl, id, fun _ => rfl, fun _ _ _ => rfl⟩ ()
  · refine Port.go ⟨rfl, State.setHalf_wf, id, fun hw a ha' => ?_⟩ ()
    rw [State.byteAt_setHalf hw, if_neg (ha' p ha).1, if_neg (ha' p ha).2]
  · exact ⟨Draws.refl s, fun c x u h => by cases h; exact .inr rfl⟩

theorem storePixels_port (ps : List Coord) (s : State) : Port s (storePixels ps s) := Port.each pixelWrite_port ps s

/-- CLEAR stores the pixels of the frame buffer in index order: each is in range, so GUARD drops none (41_rasterizer.md R104). -/
theorem clearPixels_stores (s : State) : clearPixels s = storePixels s.bufferInOrder s := by
  have pixel : ∀ i, i < s.panelW.toNat * s.panelH.toNat → ∀ u, Draws s u →
      memWrite (u.indexAddr i) u.color u = pixelWrite (pixelAt (i % s.panelW.toNat) (i / s.panelW.toNat)) u := by
    intro i hi u hu
    obtain ⟨-, -, -, hx, hp, hr, -⟩ := hu.same
    have hW : 0 < s.panelW.toNat := Nat.pos_of_ne_zero fun h => by simp [h] at hi
    have h1 : i % s.panelW.toNat < s.panelW.toNat := Nat.mod_lt _ hW
    have h2 : i / s.panelW.toNat < s.panelH.toNat := Nat.div_lt_of_lt_mul hi
    have h3 := s.panelW.isLt
    have h4 := s.panelH.isLt
    have hin : u.inRange (pixelAt (i % s.panelW.toNat) (i / s.panelW.toNat)) = true := by
      rw [hr]
      simp only [State.inRange, pixelAt, BitVec.toNat_ofNat, Bool.and_eq_true, decide_eq_true_eq]
      rw [Nat.mod_eq_of_lt (Nat.lt_trans h1 h3), Nat.mod_eq_of_lt (Nat.lt_trans h2 h4)]
      exact ⟨h1, h2⟩
    have hidx : s.pixelIndex (pixelAt (i % s.panelW.toNat) (i / s.panelW.toNat)) = i := by
      simp only [State.pixelIndex, pixelAt, BitVec.toNat_ofNat]
      rw [Nat.mod_eq_of_lt (Nat.lt_trans h1 h3), Nat.mod_eq_of_lt (Nat.lt_trans h2 h4), Nat.mul_comm]
      exact Nat.mod_add_div i _
    rw [pixelWrite, hin, hp, State.pixelAddr, hidx, hx]
    simp
  have all : ∀ (is : List Nat) (u : State), Draws s u → (∀ i ∈ is, i < s.panelW.toNat * s.panelH.toNat) →
      Flow.each (fun i s => memWrite (s.indexAddr i) s.color s) is u =
        storePixels (is.map fun i => pixelAt (i % s.panelW.toNat) (i / s.panelW.toNat)) u := by
    intro is
    induction is with
    | nil => exact fun u _ _ => rfl
    | cons i is ih =>
      intro u hu hi
      rw [Flow.each_cons, List.map_cons, storePixels_cons, pixel i (hi i List.mem_cons_self) u hu]
      have hd := (pixelWrite_port (pixelAt (i % s.panelW.toNat) (i / s.panelW.toNat)) u).draws
      cases hp : pixelWrite (pixelAt (i % s.panelW.toNat) (i / s.panelW.toNat)) u with
      | go _ v =>
        rw [hp] at hd
        exact ih v (hu.trans hd) fun j hj => hi j (List.mem_cons_of_mem i hj)
      | trap c x v => rfl
  exact all _ s (Draws.refl s) fun i hi => List.mem_range.mp hi

theorem clearPixels_port (s : State) : Port s (clearPixels s) := by
  rw [clearPixels_stores]
  exact storePixels_port _ s

theorem readDesc_port (f : Font) (ch : Half) (s : State) : Port s (readDesc f ch s) :=
  (memRead_port _ s).bind fun _ _ => (memRead_port _ _).bind fun _ _ => (memRead_port _ _).bind fun _ _ =>
    (memRead_port _ _).bind fun _ _ => Port.go (Draws.refl _) _

theorem charWidth_port (f : Font) (ch : Half) (s : State) : Port s (charWidth f ch s) := by
  unfold charWidth
  split
  · exact Port.go (Draws.refl s) _
  · exact Port.go (Draws.refl s) _
  · exact (readDesc_port f ch s).bind fun _ _ => Port.go (Draws.refl _) _

theorem measure_port (f : Font) (addr : Word) (len : Nat) (s : State) : Port s (measure f addr len s) :=
  Port.fold (fun _ _ _ => (memRead_port _ _).bind fun _ _ => (charWidth_port _ _ _).bind fun _ _ =>
    Port.go (Draws.refl _) _) _ _ s

theorem drawByte_port (g : Word) (px py w : Half) (rk : Nat × Nat) (s : State) : Port s (drawByte g px py w rk s) :=
  (memRead_port _ s).bind fun _ _ => storePixels_port _ _

theorem drawGlyph_port (f : Font) (px py ch : Half) (s : State) : Port s (drawGlyph f px py ch s) := by
  unfold drawGlyph
  split
  · exact Port.go (Draws.refl s) _
  · exact Port.go (Draws.refl s) _
  · exact (readDesc_port f ch s).bind fun _ _ => (Port.each (drawByte_port _ _ _ _) _ _).bind fun _ _ =>
      Port.go (Draws.refl _) _

theorem drawStr_port (f : Font) (x0 y0 : Half) (addr : Word) (len : Nat) (s : State) :
    Port s (drawStr f x0 y0 addr len s) :=
  (Port.fold (fun _ _ _ => (memRead_port _ _).bind fun _ _ => (drawGlyph_port _ _ _ _ _).bind fun _ _ =>
    Port.go (Draws.refl _) _) _ _ s).bind fun _ _ => Port.go (Draws.refl _) ()

/-! ### What only reads -/

/-- A flow that only reads ends in the state it began in, also along `bind`. -/
theorem Flow.bind_reads {α β : Type} {s : State} {m : Flow α} {k : α → State → Flow β} (hm : m.final = s)
    (hk : ∀ a, (k a s).final = s) : (m.bind k).final = s := by
  cases m with
  | go a t => cases hm; exact hk a
  | trap c x t => exact hm

@[simp] theorem readDesc_final (f : Font) (ch : Half) (s : State) : (readDesc f ch s).final = s := by
  unfold readDesc
  exact Flow.bind_reads (memRead_final _ s) fun _ => Flow.bind_reads (memRead_final _ s) fun _ =>
    Flow.bind_reads (memRead_final _ s) fun _ => Flow.bind_reads (memRead_final _ s) fun _ => rfl

@[simp] theorem charWidth_final (f : Font) (ch : Half) (s : State) : (charWidth f ch s).final = s := by
  unfold charWidth
  split
  · rfl
  · rfl
  · exact Flow.bind_reads (readDesc_final f ch s) fun _ => rfl

theorem measureStep_final (f : Font) (addr : Word) (len i : Nat) (m : Word) (s : State) :
    (measureStep f addr len i m s).final = s := by
  unfold measureStep
  exact Flow.bind_reads (memRead_final _ s) fun _ => Flow.bind_reads (charWidth_final _ _ s) fun _ => rfl

/-- Measuring only reads (42_glyph_engine.md R147). -/
@[simp] theorem measure_final (f : Font) (addr : Word) (len : Nat) (s : State) : (measure f addr len s).final = s := by
  unfold measure
  generalize (0 : Word) = m
  generalize List.range len = is
  induction is generalizing m with
  | nil => rfl
  | cons i is ih => exact Flow.bind_reads (measureStep_final f addr len i m s) fun _ => ih _

end Sys2Proof.Machine
end

