-- ==== Sys2Proof/Laws/Paint.lean ====
section
/-!
SUPPORT. The one specification of storing pixels: `storePixels ps` paints exactly the set of the pixels in `ps`,
whatever their order and however often each occurs.
-/

namespace Sys2Proof.Machine

/-! ### Pixel addresses -/

/-- Two pixels of one frame buffer never overlap in one byte only (20_memory.md R44, R50). -/
theorem State.indexAddr_ne_succ (s : State) (i j : Nat) : s.indexAddr i ≠ s.indexAddr j + 1 := by
  intro h
  unfold State.indexAddr at h
  rw [BitVec.add_assoc, BitVec.add_right_inj] at h
  have := congrArg BitVec.toNat h
  simp only [BitVec.toNat_add, BitVec.toNat_ofNat, show (1 : Word).toNat = 1 from rfl] at this
  omega

theorem State.indexAddr_succ_ne (s : State) (i j : Nat) : s.indexAddr i + 1 ≠ s.indexAddr j :=
  Ne.symm (State.indexAddr_ne_succ s j i)

theorem Draws.storable {s t : State} (h : Draws s t) (P : Coord → Prop) : t.Storable P ↔ s.Storable P := by
  obtain ⟨-, -, -, -, hp, -, hb⟩ := h.same
  unfold State.Storable
  simp only [hp, hb, h.admits]

/-! ### Painting -/

theorem Paints.none (s : State) : Paints s (fun _ => False) s :=
  ⟨rfl, by simp, fun _ h => h.elim, fun _ _ => rfl⟩

theorem Paints.congr {s t : State} {P Q : Coord → Prop} (h : Paints s P t) (hPQ : ∀ p, P p ↔ Q p) : Paints s Q t := by
  have : P = Q := funext fun p => propext (hPQ p)
  exact this ▸ h

/-- Painting `P` and then `Q` paints both. -/
theorem Paints.trans {s t u : State} {P Q : Coord → Prop} (h : Paints s P t) (k : Paints t Q u) (hd : Draws s t) :
    Paints s (fun p => P p ∨ Q p) u := by
  obtain ⟨hg, hc, -, -, hp, hr, -⟩ := hd.same
  refine ⟨by rw [k.frame, h.frame], ?_, ?_, ?_⟩
  · rw [k.oob, h.oob, hg]
    simp only [hr]
    constructor
    · rintro ((h | ⟨h1, p, h2, h3⟩) | ⟨h1, p, h2, h3⟩)
      · exact .inl h
      · exact .inr ⟨h1, p, .inl h2, h3⟩
      · exact .inr ⟨h1, p, .inr h2, h3⟩
    · rintro (h | ⟨h1, p, h2 | h2, h3⟩)
      · exact .inl (.inl h)
      · exact .inl (.inr ⟨h1, p, h2, h3⟩)
      · exact .inr ⟨h1, p, h2, h3⟩
  · have hQ : ∀ p, Q p → s.Admits p → u.halfAt (s.pixelAddr p) = s.color := by
      intro p hq ha
      rw [← hp p, ← hc]
      exact k.drawn p hq ((hd.admits p).mpr ha)
    rintro p (h1 | h1) ha
    · by_cases hex : ∃ q, Q q ∧ s.Admits q ∧ s.pixelAddr q = s.pixelAddr p
      · obtain ⟨q, h2, h3, h4⟩ := hex
        rw [← h4]
        exact hQ q h2 h3
      · have hk : ∀ a, a = s.pixelAddr p ∨ a = s.pixelAddr p + 1 → u.byteAt a = t.byteAt a := by
          intro a hpa
          refine k.kept a fun q hq hqa => ?_
          rw [hp q]
          have hqa' := (hd.admits q).mp hqa
          rcases hpa with rfl | rfl
          · exact ⟨fun he => hex ⟨q, hq, hqa', he.symm⟩, State.indexAddr_ne_succ s _ _⟩
          · exact ⟨State.indexAddr_succ_ne s _ _,
              fun he => hex ⟨q, hq, hqa', ((BitVec.add_left_inj 1).mp he).symm⟩⟩
        rw [State.halfAt, hk _ (.inl rfl), hk _ (.inr rfl)]
        exact h.drawn p h1 ha
    · exact hQ p h1 ha
  · intro a ha
    rw [k.kept a fun q hq hqa => by rw [hp q]; exact ha q (.inr hq) ((hd.admits q).mp hqa)]
    exact h.kept a fun q hq hqa => ha q (.inl hq) hqa

/-- One pixel through the addressing unit, where its store, if made, is backed. -/
theorem pixelWrite_paints {p : Coord} {s : State} (hw : Memory.wf s.mem = true) (hs : s.Storable fun q => q = p) :
    ∃ t, pixelWrite p s = .go () t ∧ Paints s (fun q => q = p) t ∧ Draws s t := by
  have hd := (pixelWrite_port p s).draws
  rcases pixelWrite_cases p s with ⟨hg, hr, h⟩ | ⟨ha, -, -, h⟩ | ⟨ha, hb, h⟩
  · rw [h] at hd
    refine ⟨_, h, ⟨rfl, ?_, ?_, fun _ _ => rfl⟩, hd⟩
    · simp [hg, hr]
    · rintro q rfl hq
      rcases hq with hq | hq
      · rw [hg] at hq; cases hq
      · rw [hr] at hq; cases hq
  · rw [h] at hd
    refine ⟨_, h, ⟨rfl, ?_, ?_, ?_⟩, hd⟩
    · rcases ha with hg | hr
      · simp [hg]
      · simp [hr]
    · rintro q rfl -
      exact State.halfAt_setHalf_same hw
    · intro a hk
      obtain ⟨h1, h2⟩ := hk p rfl ha
      rw [State.byteAt_setHalf hw, if_neg h1, if_neg h2]
  · obtain ⟨h1, h2⟩ := hs p rfl ha
    rw [h1, h2] at hb
    cases hb

/-- The specification of `storePixels`: where every store made is backed, the command goes on and exactly the pixels of
the list are painted. -/
theorem storePixels_paints {ps : List Coord} {s : State} (hw : Memory.wf s.mem = true)
    (hs : s.Storable fun q => q ∈ ps) :
    ∃ t, storePixels ps s = .go () t ∧ Paints s (fun q => q ∈ ps) t ∧ Draws s t := by
  induction ps generalizing s with
  | nil => exact ⟨s, rfl, (Paints.none s).congr (by simp), Draws.refl s⟩
  | cons p ps ih =>
    obtain ⟨t, h1, h2, h3⟩ := pixelWrite_paints (p := p) hw
      (fun q hq => hs q (by subst hq; exact List.mem_cons_self))
    obtain ⟨u, k1, k2, k3⟩ := ih (h3.wf hw)
      ((h3.storable _).mpr fun q hq => hs q (List.mem_cons_of_mem p hq))
    refine ⟨u, ?_, (h2.trans k2 h3).congr (by simp), h3.trans k3⟩
    rw [storePixels_cons, h1]
    exact k1

end Sys2Proof.Machine
end

