-- ==== Sys2Proof/Laws/Glyph.lean ====
section
/-!
SUPPORT. The specifications of the glyph engine's shared operations: descriptor reads, measuring, the blit of one glyph
and the layout of a string, each against the closed forms of Safety.lean.
-/

namespace Sys2Proof.Machine

/-! ### Reading -/

theorem memRead_go {a : Word} {s : State} (h : s.backed a = true) : memRead a s = .go (s.byteAt a) s := by
  rw [memRead_eq, if_pos h]

theorem word_add_ofNat (a : Word) (m n : Nat) : a + BitVec.ofNat 32 m + BitVec.ofNat 32 n = a + BitVec.ofNat 32 (m + n) := by
  rw [BitVec.add_assoc, BitVec.ofNat_add]

/-- The machine's descriptor address is the rule's (42_glyph_engine.md R132). -/
theorem State.descriptorAt_eq (s : State) (f : Font) (ch : Half) : s.descriptorAt f ch = descAddr s.cfg f ch := by
  unfold State.descriptorAt descAddr
  rw [BitVec.ofNat_add, BitVec.ofNat_toNat, BitVec.setWidth_eq]

/-- Desc where the four bytes are backed (42_glyph_engine.md R135). -/
theorem readDesc_go {f : Font} {ch : Half} {s : State}
    (h : ∀ k, k < 4 → s.backed (s.descriptorAt f ch + BitVec.ofNat 32 k) = true) :
    readDesc f ch s = .go (s.glyphWidth f ch, s.halfAt (s.descriptorAt f ch + 2)) s := by
  have h0 : s.backed (s.descriptorAt f ch) = true := by simpa using h 0 (by omega)
  unfold readDesc State.glyphWidth State.halfAt
  rw [State.descriptorAt_eq] at *
  generalize descAddr s.cfg f ch = d at *
  have h1 : s.backed (d + 1) = true := h 1 (by omega)
  have h2 : s.backed (d + 2) = true := h 2 (by omega)
  have h3 : s.backed (d + 3) = true := h 3 (by omega)
  dsimp only
  rw [memRead_go h0, Flow.bind_go, memRead_go h1, Flow.bind_go, memRead_go h2, Flow.bind_go, memRead_go h3,
    Flow.bind_go]
  have : d + 2 + 1 = d + 3 := by rw [BitVec.add_assoc]; rfl
  rw [this]

theorem classify_space (c : Config) : classify c 0x20 = .space := if_pos rfl

theorem classify_supported {s : State} {ch : Half} (h : s.Supports ch) : classify s.cfg ch = .supported := by
  rw [classify, Config.spaceChar, if_neg h.1, if_pos h.2]

theorem classify_unsupported {s : State} {ch : Half} (h1 : ch ≠ 0x20) (h2 : ¬ s.Supports ch) :
    classify s.cfg ch = .unsupported := by
  rw [classify, Config.spaceChar, if_neg h1, if_neg fun h => h2 ⟨h1, h⟩]

theorem advance_space (s : State) (f : Font) : s.advance f 0x20 = f.spaceWidth.toNat := if_pos rfl

theorem advance_supported {s : State} {f : Font} {ch : Half} (h : s.Supports ch) :
    s.advance f ch = (s.glyphWidth f ch).toNat := by
  rw [State.advance, if_neg h.1, if_pos h.2]

theorem advance_unsupported {s : State} {f : Font} {ch : Half} (h1 : ch ≠ 0x20) (h2 : ¬ s.Supports ch) :
    s.advance f ch = 0 := by
  rw [State.advance, if_neg h1, if_neg fun h => h2 ⟨h1, h⟩]

/-- Width where the descriptor bytes it reads are backed: the advance width (42_glyph_engine.md R136). -/
theorem charWidth_go {f : Font} {ch : Half} {s : State} (h : ∀ a, s.DescByte f ch a → s.backed a = true) :
    charWidth f ch s = .go (BitVec.ofNat 16 (s.advance f ch)) s := by
  unfold charWidth
  by_cases hsp : ch = 0x20
  · subst hsp
    simp only [classify_space, advance_space, BitVec.ofNat_toNat, BitVec.setWidth_eq]
  · by_cases hsu : s.Supports ch
    · simp only [classify_supported hsu, advance_supported hsu, BitVec.ofNat_toNat, BitVec.setWidth_eq]
      rw [readDesc_go fun k hk => h _ ⟨hsu, k, hk, rfl⟩, Flow.bind_go]
    · simp only [classify_unsupported hsp hsu, advance_unsupported hsp hsu]
      rfl

theorem State.advance_lt (s : State) (f : Font) (ch : Half) : s.advance f ch < 2 ^ 16 := by
  unfold State.advance
  split
  · exact f.spaceWidth.isLt
  · split
    · exact (s.glyphWidth f ch).isLt
    · decide

theorem State.widthSum_succ (s : State) (f : Font) (addr : Word) (n : Nat) :
    s.widthSum f addr (n + 1) = s.widthSum f addr n + s.advance f (s.charAt addr n) := by
  simp [State.widthSum, List.range_succ]

theorem charOf_byteAt (s : State) (addr : Word) (i : Nat) :
    charOf (s.byteAt (addr + BitVec.ofNat 32 i)) = s.charAt addr i := rfl

/-- What Measure holds after `n` of the `len` characters (42_glyph_engine.md R147). -/
def State.measuredTo (s : State) (f : Font) (addr : Word) (len n : Nat) : Word :=
  BitVec.ofNat 32 (s.widthSum f addr n + min n (len - 1) * f.charGap.toNat)

theorem State.measuredTo_all (s : State) (f : Font) (addr : Word) (len : Nat) :
    s.measuredTo f addr len len = BitVec.ofNat 32 (s.measureOf f addr len) := by
  rw [State.measuredTo, State.measureOf, show min len (len - 1) = len - 1 by omega]

theorem State.measuredTo_succ (s : State) (f : Font) (addr : Word) (len n : Nat) :
    (if n < len - 1 then
        s.measuredTo f addr len n + (BitVec.ofNat 16 (s.advance f (s.charAt addr n))).setWidth 32 + f.charGap.setWidth 32
      else s.measuredTo f addr len n + (BitVec.ofNat 16 (s.advance f (s.charAt addr n))).setWidth 32) =
      s.measuredTo f addr len (n + 1) := by
  have hg : f.charGap.setWidth 32 = BitVec.ofNat 32 f.charGap.toNat := by simp
  have hw : (BitVec.ofNat 16 (s.advance f (s.charAt addr n))).setWidth 32 =
      BitVec.ofNat 32 (s.advance f (s.charAt addr n)) := by
    apply BitVec.eq_of_toNat_eq
    have := s.advance_lt f (s.charAt addr n)
    simp only [BitVec.toNat_setWidth, BitVec.toNat_ofNat]
    omega
  unfold State.measuredTo
  rw [hg, hw, State.widthSum_succ]
  split
  · rw [show min (n + 1) (len - 1) = min n (len - 1) + 1 by omega, Nat.add_mul, Nat.one_mul, ← BitVec.ofNat_add,
      ← BitVec.ofNat_add]
    congr 1
    omega
  · rw [show min (n + 1) (len - 1) = min n (len - 1) by omega, ← BitVec.ofNat_add]
    congr 1
    omega

/-- Measure after `n` of the `len` characters. -/
theorem measure_prefix {f : Font} {addr : Word} {len : Nat} {s : State}
    (h : ∀ a, s.MeasuredByte f addr len a → s.backed a = true) (n : Nat) (hn : n ≤ len) :
    Flow.fold (measureStep f addr len) (List.range n) 0 s = .go (s.measuredTo f addr len n) s := by
  induction n with
  | zero => simp [State.measuredTo, State.widthSum]
  | succ n ih =>
    rw [List.range_succ, Flow.fold_append, ih (by omega), Flow.bind_go, Flow.fold_cons, measureStep,
      memRead_go (h _ ⟨n, by omega, .inl rfl⟩), Flow.bind_go, charOf_byteAt,
      charWidth_go fun a ha => h a ⟨n, by omega, .inr ha⟩, Flow.bind_go, Flow.bind_go, Flow.fold_nil,
      State.measuredTo_succ]

/-- Measure where the bytes it reads are backed (42_glyph_engine.md R147). -/
theorem measure_go {f : Font} {addr : Word} {len : Nat} {s : State}
    (h : ∀ a, s.MeasuredByte f addr len a → s.backed a = true) :
    measure f addr len s = .go (BitVec.ofNat 32 (s.measureOf f addr len)) s := by
  rw [measure, measure_prefix h len (Nat.le_refl len), State.measuredTo_all]

/-! ### The blit of one glyph -/

/-- The pixels stored for a set of bitmap bytes, read as memory stands in `s`. -/
theorem each_drawByte_paints {g : Word} {px py w : Half} {s₀ s : State} (l : List (Nat × Nat))
    (hw : Memory.wf s.mem = true)
    (hb : ∀ rk ∈ l, s.backed (g + BitVec.ofNat 32 (rk.1 * rowBytes w + rk.2)) = true)
    (heq : ∀ rk ∈ l, s.byteAt (g + BitVec.ofNat 32 (rk.1 * rowBytes w + rk.2)) =
      s₀.byteAt (g + BitVec.ofNat 32 (rk.1 * rowBytes w + rk.2)))
    (hs : s.Storable fun p => ∃ rk ∈ l,
      p ∈ bytePixels px py w rk.1 rk.2 (s₀.byteAt (g + BitVec.ofNat 32 (rk.1 * rowBytes w + rk.2))))
    (ha : s.Apart
      (fun p => ∃ rk ∈ l,
        p ∈ bytePixels px py w rk.1 rk.2 (s₀.byteAt (g + BitVec.ofNat 32 (rk.1 * rowBytes w + rk.2))))
      fun a => ∃ rk ∈ l, a = g + BitVec.ofNat 32 (rk.1 * rowBytes w + rk.2)) :
    ∃ t, Flow.each (drawByte g px py w) l s = .go () t ∧
      Paints s (fun p => ∃ rk ∈ l,
        p ∈ bytePixels px py w rk.1 rk.2 (s₀.byteAt (g + BitVec.ofNat 32 (rk.1 * rowBytes w + rk.2)))) t ∧
      Draws s t := by
  induction l generalizing s with
  | nil => exact ⟨s, rfl, (Paints.none s).congr (by simp), Draws.refl s⟩
  | cons rk l ih =>
    have hmem : rk ∈ rk :: l := List.mem_cons_self
    obtain ⟨t, h1, h2, h3⟩ := storePixels_paints
      (ps := bytePixels px py w rk.1 rk.2 (s₀.byteAt (g + BitVec.ofNat 32 (rk.1 * rowBytes w + rk.2)))) hw
      (fun p hp => hs p ⟨rk, hmem, hp⟩)
    obtain ⟨-, -, -, -, hpa, -, hbk⟩ := h3.same
    obtain ⟨u, k1, k2, k3⟩ := ih (s := t) (h3.wf hw)
      (fun x hx => by rw [hbk]; exact hb x (List.mem_cons_of_mem rk hx))
      (fun x hx => by
        rw [← heq x (List.mem_cons_of_mem rk hx)]
        refine h2.kept _ fun p hp hap => ?_
        obtain ⟨n1, n2⟩ := ha p ⟨rk, hmem, hp⟩ hap
        exact ⟨fun he => n1 ⟨x, List.mem_cons_of_mem rk hx, he.symm⟩,
          fun he => n2 ⟨x, List.mem_cons_of_mem rk hx, he.symm⟩⟩)
      ((h3.storable _).mpr fun p hp => by
        obtain ⟨x, hx, hp⟩ := hp
        exact hs p ⟨x, List.mem_cons_of_mem rk hx, hp⟩)
      (fun p hp hap => by
        obtain ⟨x, hx, hp⟩ := hp
        rw [hpa]
        obtain ⟨n1, n2⟩ := ha p ⟨x, List.mem_cons_of_mem rk hx, hp⟩ ((h3.admits p).mp hap)
        exact ⟨fun ⟨y, hy, he⟩ => n1 ⟨y, List.mem_cons_of_mem rk hy, he⟩,
          fun ⟨y, hy, he⟩ => n2 ⟨y, List.mem_cons_of_mem rk hy, he⟩⟩)
    refine ⟨u, ?_, (h2.trans k2 h3).congr (by simp), h3.trans k3⟩
    rw [Flow.each_cons, drawByte, memRead_go (hb rk hmem), Flow.bind_go, heq rk hmem, h1]
    exact k1

/-- The pixels of all bitmap bytes are the set bits of the glyph, by row and column (42_glyph_engine.md R133). -/
theorem mem_bitmap_iff {px py w : Half} {h : Nat} (b : Nat → Byte) (p : Coord) :
    (∃ rk ∈ bitmapBytes h (rowBytes w), p ∈ bytePixels px py w rk.1 rk.2 (b (rk.1 * rowBytes w + rk.2))) ↔
      ∃ r c, r < h ∧ c < w.toNat ∧ (b (r * rowBytes w + c / 8)).getLsbD (7 - c % 8) = true ∧
        p = { x := px + BitVec.ofNat 16 c, y := py + BitVec.ofNat 16 r } := by
  constructor
  · rintro ⟨⟨r, k⟩, hrk, hp⟩
    simp only [bitmapBytes, List.mem_flatMap, List.mem_range, List.mem_map, Prod.mk.injEq] at hrk
    obtain ⟨r', hr, k', hk, rfl, rfl⟩ := hrk
    simp only [bytePixels, List.mem_map, List.mem_filter, List.mem_range, Bool.and_eq_true, decide_eq_true_eq] at hp
    obtain ⟨j, ⟨hj, hc, hbit⟩, rfl⟩ := hp
    refine ⟨r', 8 * k' + j, hr, hc, ?_, rfl⟩
    rw [show (8 * k' + j) / 8 = k' by omega, show (8 * k' + j) % 8 = j by omega]
    exact hbit
  · rintro ⟨r, c, hr, hc, hbit, rfl⟩
    refine ⟨(r, c / 8), ?_, ?_⟩
    · simp only [bitmapBytes, List.mem_flatMap, List.mem_range, List.mem_map, Prod.mk.injEq]
      exact ⟨r, hr, c / 8, by unfold rowBytes; omega, rfl, rfl⟩
    · simp only [bytePixels, List.mem_map, List.mem_filter, List.mem_range, Bool.and_eq_true, decide_eq_true_eq]
      exact ⟨c % 8, ⟨by omega, by omega, hbit⟩, by rw [show 8 * (c / 8) + c % 8 = c by omega]⟩

/-- The (row, byte) pairs read are those of the columns (42_glyph_engine.md R133). -/
theorem mem_bitmapBytes_iff {w : Half} {h : Nat} (rk : Nat × Nat) :
    rk ∈ bitmapBytes h (rowBytes w) ↔ ∃ c, rk.1 < h ∧ c < w.toNat ∧ rk.2 = c / 8 := by
  obtain ⟨r, k⟩ := rk
  simp only [bitmapBytes, List.mem_flatMap, List.mem_range, List.mem_map, Prod.mk.injEq]
  constructor
  · rintro ⟨r', hr, k', hk, rfl, rfl⟩
    exact ⟨8 * k', hr, by unfold rowBytes at hk; omega, by omega⟩
  · rintro ⟨c, hr, hc, rfl⟩
    exact ⟨r, hr, c / 8, by unfold rowBytes; omega, rfl, rfl⟩

/-- The specification of the blit: where what it reads and stores is backed and no store hits a byte it reads, exactly
the glyph's set pixels are painted, and the value is the advance width (42_glyph_engine.md R150). -/
theorem drawGlyph_paints {f : Font} {px py ch : Half} {s : State} (hw : Memory.wf s.mem = true)
    (hr : ∀ a, s.GlyphByte f ch a → s.backed a = true) (hs : s.Storable (s.OnGlyph f px py ch))
    (ha : s.Apart (s.OnGlyph f px py ch) (s.GlyphByte f ch)) :
    ∃ t, drawGlyph f px py ch s = .go (BitVec.ofNat 16 (s.advance f ch)) t ∧
      Paints s (s.OnGlyph f px py ch) t ∧ Draws s t := by
  unfold drawGlyph
  by_cases hsp : ch = 0x20
  · subst hsp
    refine ⟨s, ?_, (Paints.none s).congr fun p => ⟨False.elim, fun h => h.1.1 rfl⟩, Draws.refl s⟩
    simp only [classify_space, advance_space, BitVec.ofNat_toNat, BitVec.setWidth_eq]
  by_cases hsu : s.Supports ch
  swap
  · refine ⟨s, ?_, (Paints.none s).congr fun p => ⟨False.elim, fun h => hsu h.1⟩, Draws.refl s⟩
    simp only [classify_unsupported hsp hsu, advance_unsupported hsp hsu]
    rfl
  have hset : ∀ p, s.OnGlyph f px py ch p ↔ ∃ rk ∈ bitmapBytes f.height.toNat (rowBytes (s.glyphWidth f ch)),
      p ∈ bytePixels px py (s.glyphWidth f ch) rk.1 rk.2
        (s.byteAt (s.glyphBase f ch + BitVec.ofNat 32 (rk.1 * rowBytes (s.glyphWidth f ch) + rk.2))) := by
    intro p
    rw [mem_bitmap_iff fun n => s.byteAt (s.glyphBase f ch + BitVec.ofNat 32 n)]
    exact ⟨fun h => h.2, fun h => ⟨hsu, h⟩⟩
  have hread : ∀ rk ∈ bitmapBytes f.height.toNat (rowBytes (s.glyphWidth f ch)),
      s.GlyphByte f ch (s.glyphBase f ch + BitVec.ofNat 32 (rk.1 * rowBytes (s.glyphWidth f ch) + rk.2)) := by
    intro rk hrk
    obtain ⟨c, h1, h2, h3⟩ := (mem_bitmapBytes_iff rk).mp hrk
    exact .inr ⟨hsu, rk.1, c, h1, h2, by rw [h3]; rfl⟩
  obtain ⟨t, h1, h2, h3⟩ := each_drawByte_paints (g := s.glyphBase f ch) (px := px) (py := py)
    (w := s.glyphWidth f ch) (s₀ := s) (s := s) _ hw (fun rk hrk => hr _ (hread rk hrk)) (fun _ _ => rfl)
    (fun p hp => hs p ((hset p).mpr hp))
    (fun p hp hap => by
      obtain ⟨n1, n2⟩ := ha p ((hset p).mpr hp) hap
      exact ⟨fun ⟨rk, hrk, he⟩ => n1 (he ▸ hread rk hrk), fun ⟨rk, hrk, he⟩ => n2 (he ▸ hread rk hrk)⟩)
  refine ⟨t, ?_, h2.congr fun p => (hset p).symm, h3⟩
  simp only [classify_supported hsu, advance_supported hsu, BitVec.ofNat_toNat, BitVec.setWidth_eq]
  rw [readDesc_go fun k hk => hr _ (.inl ⟨hsu, k, hk, rfl⟩), Flow.bind_go, drawBitmap]
  unfold State.glyphBase at h1
  rw [h1, Flow.bind_go]

/-! ### Strings -/

/-- `t` holds the same font and string bytes `R` as `s`, under the same parameters. -/
structure SameBytes (s t : State) (R : Word → Prop) : Prop where
  cfg : t.cfg = s.cfg
  bytes : ∀ a, R a → t.byteAt a = s.byteAt a

theorem Paints.sameBytes {s t : State} {P : Coord → Prop} {R : Word → Prop} (h : Paints s P t) (hd : Draws s t)
    (ha : s.Apart P R) : SameBytes s t R :=
  ⟨hd.same.2.2.1, fun a hR => h.kept a fun p hp hap =>
    ⟨fun he => (ha p hp hap).1 (he ▸ hR), fun he => (ha p hp hap).2 (he ▸ hR)⟩⟩

theorem SameBytes.supports {s t : State} {R : Word → Prop} (h : SameBytes s t R) (ch : Half) :
    t.Supports ch ↔ s.Supports ch := by
  unfold State.Supports
  rw [h.cfg]

section
variable {s t : State} {R : Word → Prop} {f : Font} {ch : Half}

theorem SameBytes.descriptorAt (h : SameBytes s t R) : t.descriptorAt f ch = s.descriptorAt f ch := by
  rw [State.descriptorAt_eq, State.descriptorAt_eq, h.cfg]

theorem SameBytes.descHalf (h : SameBytes s t R) (hsu : s.Supports ch) (hR : ∀ a, s.DescByte f ch a → R a) (k : Nat)
    (hk : k + 1 < 4) :
    t.halfAt (s.descriptorAt f ch + BitVec.ofNat 32 k) = s.halfAt (s.descriptorAt f ch + BitVec.ofNat 32 k) := by
  unfold State.halfAt
  rw [show (1 : Word) = BitVec.ofNat 32 1 from rfl, word_add_ofNat, h.bytes _ (hR _ ⟨hsu, k, by omega, rfl⟩),
    h.bytes _ (hR _ ⟨hsu, k + 1, hk, rfl⟩)]

theorem SameBytes.glyphWidth (h : SameBytes s t R) (hsu : s.Supports ch) (hR : ∀ a, s.DescByte f ch a → R a) :
    t.glyphWidth f ch = s.glyphWidth f ch := by
  unfold State.glyphWidth
  rw [h.descriptorAt]
  simpa using h.descHalf hsu hR 0 (by omega)

theorem SameBytes.glyphBase (h : SameBytes s t R) (hsu : s.Supports ch) (hR : ∀ a, s.DescByte f ch a → R a) :
    t.glyphBase f ch = s.glyphBase f ch := by
  unfold State.glyphBase
  rw [h.descriptorAt]
  congr 2
  exact h.descHalf hsu hR 2 (by omega)

theorem SameBytes.advance (h : SameBytes s t R) (hR : ∀ a, s.DescByte f ch a → R a) :
    t.advance f ch = s.advance f ch := by
  by_cases hsp : ch = 0x20
  · subst hsp
    rw [advance_space, advance_space]
  · by_cases hsu : s.Supports ch
    · rw [advance_supported hsu, advance_supported ((h.supports ch).mpr hsu), h.glyphWidth hsu hR]
    · rw [advance_unsupported hsp hsu, advance_unsupported hsp fun hs => hsu ((h.supports ch).mp hs)]

theorem SameBytes.glyphByteAddr (h : SameBytes s t R) (hsu : s.Supports ch) (hR : ∀ a, s.DescByte f ch a → R a)
    (r c : Nat) : t.glyphByteAddr f ch r c = s.glyphByteAddr f ch r c := by
  unfold State.glyphByteAddr
  rw [h.glyphBase hsu hR, h.glyphWidth hsu hR]

/-- States with the same font bytes have the same glyph. -/
theorem SameBytes.onGlyph (h : SameBytes s t R) (hR : ∀ a, s.GlyphByte f ch a → R a) (px py : Half) (p : Coord) :
    t.OnGlyph f px py ch p ↔ s.OnGlyph f px py ch p := by
  have hD : ∀ a, s.DescByte f ch a → R a := fun a ha => hR a (.inl ha)
  unfold State.OnGlyph
  rw [h.supports]
  refine and_congr_right fun hsu => exists_congr fun r => exists_congr fun c => and_congr_right fun hr => ?_
  rw [h.glyphWidth hsu hD]
  refine and_congr_right fun hc => ?_
  rw [h.glyphByteAddr hsu hD, h.bytes _ (hR _ (.inr ⟨hsu, r, c, hr, hc, rfl⟩))]

theorem SameBytes.glyphByte (h : SameBytes s t R) (hR : ∀ a, s.GlyphByte f ch a → R a) (a : Word) :
    t.GlyphByte f ch a ↔ s.GlyphByte f ch a := by
  have hD : ∀ a, s.DescByte f ch a → R a := fun a ha => hR a (.inl ha)
  unfold State.GlyphByte State.DescByte
  rw [h.supports, h.descriptorAt]
  refine or_congr_right (and_congr_right fun hsu => exists_congr fun r => exists_congr fun c => ?_)
  rw [h.glyphWidth hsu hD, h.glyphByteAddr hsu hD]

end

theorem cursorAt_succ (s : State) (f : Font) (x0 : Half) (addr : Word) (i : Nat) :
    s.cursorAt f x0 addr i + BitVec.ofNat 16 (s.advance f (s.charAt addr i)) + f.charGap =
      s.cursorAt f x0 addr (i + 1) := by
  unfold State.cursorAt
  rw [State.widthSum_succ]
  conv_lhs => rw [show f.charGap = BitVec.ofNat 16 f.charGap.toNat by simp]
  rw [BitVec.add_assoc, BitVec.add_assoc, ← BitVec.ofNat_add, ← BitVec.ofNat_add]
  congr 2
  rw [Nat.add_mul]
  simp only [BitVec.ofNat_toNat, BitVec.setWidth_eq]
  omega

/-- The layout after `n` of the `len` characters. -/
theorem drawStr_prefix {f : Font} {x0 y0 : Half} {addr : Word} {len : Nat} {s : State} (hw : Memory.wf s.mem = true)
    (hr : ∀ a, s.TextByte f addr len a → s.backed a = true) (hs : s.Storable (s.OnText f x0 y0 addr len))
    (ha : s.Apart (s.OnText f x0 y0 addr len) (s.TextByte f addr len)) (n : Nat) (hn : n ≤ len) :
    ∃ t, Flow.fold (drawStrStep f y0 addr) (List.range n) x0 s = .go (s.cursorAt f x0 addr n) t ∧
      Paints s (s.OnText f x0 y0 addr n) t ∧ Draws s t := by
  induction n with
  | zero =>
    refine ⟨s, ?_, (Paints.none s).congr fun p => ⟨False.elim, fun ⟨i, hi, _⟩ => by omega⟩, Draws.refl s⟩
    simp [State.cursorAt, State.widthSum]
  | succ n ih =>
    obtain ⟨t, h1, h2, h3⟩ := ih (by omega)
    have hap : s.Apart (s.OnText f x0 y0 addr n) (s.TextByte f addr len) :=
      fun p ⟨i, hi, hp⟩ => ha p ⟨i, by omega, hp⟩
    have hsame := h2.sameBytes h3 hap
    have hch : t.charAt addr n = s.charAt addr n := by
      unfold State.charAt
      rw [hsame.bytes _ ⟨n, by omega, .inl rfl⟩]
    have hR : ∀ a, s.GlyphByte f (s.charAt addr n) a → s.TextByte f addr len a := fun a h => ⟨n, by omega, .inr h⟩
    obtain ⟨-, -, -, -, hpa, -, hbk⟩ := h3.same
    have hset := hsame.onGlyph hR (s.cursorAt f x0 addr n) y0
    obtain ⟨u, k1, k2, k3⟩ := drawGlyph_paints (f := f) (px := s.cursorAt f x0 addr n) (py := y0)
      (ch := s.charAt addr n) (s := t) (h3.wf hw)
      (fun a h => by rw [hbk]; exact hr a (hR a ((hsame.glyphByte hR a).mp h)))
      ((h3.storable _).mpr fun p hp => hs p ⟨n, by omega, (hset p).mp hp⟩)
      (fun p hp hadm => by
        rw [hpa]
        obtain ⟨n1, n2⟩ := ha p ⟨n, by omega, (hset p).mp hp⟩ ((h3.admits p).mp hadm)
        exact ⟨fun h => n1 (hR _ ((hsame.glyphByte hR _).mp h)), fun h => n2 (hR _ ((hsame.glyphByte hR _).mp h))⟩)
    refine ⟨u, ?_, ?_, h3.trans k3⟩
    · rw [List.range_succ, Flow.fold_append, h1, Flow.bind_go, Flow.fold_cons, drawStrStep,
        memRead_go (by rw [hbk]; exact hr _ ⟨n, by omega, .inl rfl⟩), Flow.bind_go, charOf_byteAt, hch, k1,
        Flow.bind_go, Flow.bind_go, Flow.fold_nil, hsame.advance fun a h => hR a (.inl h), cursorAt_succ]
    · refine (h2.trans k2 h3).congr fun p => ?_
      rw [hset p]
      constructor
      · rintro (⟨i, hi, hp⟩ | hp)
        · exact ⟨i, by omega, hp⟩
        · exact ⟨n, by omega, hp⟩
      · rintro ⟨i, hi, hp⟩
        by_cases hin : i < n
        · exact .inl ⟨i, hin, hp⟩
        · rw [show i = n by omega] at hp
          exact .inr hp

/-- The specification of DrawStr: where what it reads and stores is backed and no store hits a byte it reads, exactly
the string's set pixels are painted (42_glyph_engine.md R155). -/
theorem drawStr_paints {f : Font} {x0 y0 : Half} {addr : Word} {len : Nat} {s : State} (hw : Memory.wf s.mem = true)
    (hr : ∀ a, s.TextByte f addr len a → s.backed a = true) (hs : s.Storable (s.OnText f x0 y0 addr len))
    (ha : s.Apart (s.OnText f x0 y0 addr len) (s.TextByte f addr len)) :
    ∃ t, drawStr f x0 y0 addr len s = .go () t ∧ Paints s (s.OnText f x0 y0 addr len) t ∧ Draws s t := by
  obtain ⟨t, h1, h2, h3⟩ := drawStr_prefix hw hr hs ha len (Nat.le_refl len)
  refine ⟨t, ?_, h2, h3⟩
  rw [drawStr, h1, Flow.bind_go]

end Sys2Proof.Machine
end

