-- ==== Sys2Proof/Laws/Exec.lean ====
section
/-!
SUPPORT. Inversion lemmas for the meanings: what a drawing command, a measuring command and a command on a layer can
do, said once.
-/

namespace Sys2Proof.Machine

theorem Flow.finish_next (i : Instr) (f : Flow Unit) : ∃ t, f.finish i = .next t := by
  cases f <;> exact ⟨_, rfl⟩

@[simp] theorem layerOperand_layerImm (l : LayerId) : layerOperand (layerImm l) = some l := by
  cases l <;> rfl

/-- A command on a layer: its effect on the layer its operand names, or ILLEGAL_CMD. -/
theorem onLayer_cases {i : Instr} {imm : Half} {run : LayerId → State → State} {s t : State}
    (h : onLayer i imm run s = .next t) :
    (∃ l, layerOperand imm = some l ∧ t = run l s) ∨ t = illegalCommand (encode i) s := by
  unfold onLayer at h
  split at h
  · rename_i l hl
    exact .inl ⟨l, hl, by cases h; rfl⟩
  · exact .inr (by cases h; rfl)

/-- What a drawing command can do: nothing; draw; or draw and then latch a bus fault with its own word in FAULT_CMD
(41_rasterizer.md R102, 42_glyph_engine.md R152, 60_exceptions.md R174, R175). -/
theorem exec_draws {i : Instr} {s t : State} (hi : isRaster i = true ∨ isText i = true) (h : exec i s = .next t) :
    ∃ u, Draws s u ∧ (t = u ∨ ∃ c x, (c = .busRead ∨ c = .busWrite) ∧ t = raiseFault c x (encode i) u) := by
  have gate : ∀ (b : Bool) (f : Flow Unit), Port s f → (if b then f.finish i else .next s) = .next t →
      ∃ u, Draws s u ∧ (t = u ∨ ∃ c x, (c = .busRead ∨ c = .busWrite) ∧ t = raiseFault c x (encode i) u) := by
    intro b f hf hb
    split at hb
    · exact hf.finish hb
    · cases hb
      exact ⟨s, Draws.refl s, .inl rfl⟩
  cases i with
  | clear => exact gate _ _ (clearPixels_port s) h
  | drawPixel => exact gate _ _ (pixelWrite_port _ s) h
  | drawLine => exact gate _ _ (storePixels_port _ s) h
  | drawRect => exact gate _ _ (storePixels_port _ s) h
  | drawRectFill => exact gate _ _ (storePixels_port _ s) h
  | drawChar ch =>
    exact gate _ _ ((drawGlyph_port _ _ _ _ s).bind fun _ _ => Port.go (Draws.refl _) ()) h
  | drawStrL len => exact gate _ _ (drawStr_port _ _ _ _ _ s) h
  | drawStrC len => exact gate _ _ ((measure_port _ _ _ s).bind fun _ _ => drawStr_port _ _ _ _ _ _) h
  | drawStrR len => exact gate _ _ ((measure_port _ _ _ s).bind fun _ _ => drawStr_port _ _ _ _ _ _) h
  | _ => rcases hi with hi | hi <;> cases hi

/-- A flow that only reads, then a result: the result, or a bus fault that leaves all else (60_exceptions.md R175). -/
theorem finish_result_cases {α : Type} {i : Instr} {m : Flow α} {g : α → Word} {s t : State} (hm : Port s m)
    (hf : m.final = s) (h : (m.bind fun a s => .go () (s.setResult (g a) true)).finish i = .next t) :
    (∃ v, t = s.setResult v true) ∨ ∃ c x, (c = .busRead ∨ c = .busWrite) ∧ t = raiseFault c x (encode i) s := by
  cases m with
  | go a u => cases hf; cases h; exact .inl ⟨g a, rfl⟩
  | trap c x u => cases hf; cases h; exact .inr ⟨c, x, hm.cause c x u rfl, rfl⟩

/-- What a measuring command can do (42_glyph_engine.md R145, R146, 60_exceptions.md R175). -/
theorem exec_measures {i : Instr} {s t : State} (hi : (∃ ch, i = .measureChar ch) ∨ ∃ len, i = .measureStr len)
    (h : exec i s = .next t) :
    (∃ v b, t = s.setResult v b) ∨ ∃ c x, (c = .busRead ∨ c = .busWrite) ∧ t = raiseFault c x (encode i) s := by
  rcases hi with ⟨ch, rfl⟩ | ⟨len, rfl⟩
  · simp only [exec, execMeasureChar] at h
    split at h
    · exact (finish_result_cases (charWidth_port _ ch s) (charWidth_final _ ch s) h).imp (fun ⟨v, hv⟩ => ⟨v, true, hv⟩) id
    · cases h; exact .inl ⟨0, false, rfl⟩
  · simp only [exec, execMeasureStr] at h
    split at h
    · exact (finish_result_cases (measure_port _ _ _ s) (measure_final _ _ _ s) h).imp (fun ⟨v, hv⟩ => ⟨v, true, hv⟩) id
    · cases h; exact .inl ⟨0, false, rfl⟩

end Sys2Proof.Machine
end

