-- ==== Sys2Proof/Laws/Accesses.lean ====
section
/-!
SUPPORT. A command performs its accesses in order (60_exceptions.md R175): what performing a list of accesses does when
each goes through and when one fails, and that measuring, the blit, string layout and CLEAR perform the lists of
Safety.lean.
-/

namespace Sys2Proof.Machine

/-! ### Performing a list of accesses -/

/-- Make one access; the value read is not used. -/
def runAccess : Access → State → Flow Unit
  | .read a, s => (memRead a s).bind fun _ s => .go () s
  | .store p, s => pixelWrite p s

/-- Make the accesses in order, ending at the first that fails. -/
def perform (l : List Access) (s : State) : Flow Unit := Flow.each runAccess l s

@[simp] theorem perform_nil (s : State) : perform [] s = .go () s := rfl

theorem perform_cons (x : Access) (l : List Access) (s : State) :
    perform (x :: l) s = (runAccess x s).bind fun _ s => perform l s := rfl

theorem perform_append (k l : List Access) (s : State) :
    perform (k ++ l) s = (perform k s).bind fun _ s => perform l s :=
  Flow.each_append runAccess k l s

theorem perform_stores (ps : List Coord) (s : State) : perform (ps.map .store) s = storePixels ps s := by
  induction ps generalizing s with
  | nil => rfl
  | cons p ps ih =>
    rw [List.map_cons, perform_cons, storePixels_cons]
    congr 1
    funext _ s
    exact ih s

theorem Draws.serves {s t : State} (h : Draws s t) (x : Access) : t.Serves x ↔ s.Serves x := by
  obtain ⟨-, -, -, -, hp, -, hb⟩ := h.same
  cases x with
  | read a => simp only [State.Serves, hb]
  | store p => simp only [State.Serves, hp, hb, h.admits]

/-- One access that goes through. -/
theorem runAccess_served {x : Access} {s : State} (hw : Memory.wf s.mem = true) (hx : s.Serves x) :
    ∃ t, runAccess x s = .go () t ∧ Paints s (fun p => .store p = x) t ∧ Draws s t ∧
      ((∀ p, .store p ≠ x) → t = s) := by
  cases x with
  | read a =>
    refine ⟨s, ?_, (Paints.none s).congr (by simp), Draws.refl s, fun _ => rfl⟩
    rw [runAccess, memRead_go hx, Flow.bind_go]
  | store p =>
    obtain ⟨t, h1, h2, h3⟩ := pixelWrite_paints (p := p) hw (by rintro q rfl; exact hx)
    exact ⟨t, h1, h2.congr (by simp), h3, fun h => (h p rfl).elim⟩

/-- One access that fails: the cause and the address it leaves, and no other effect. -/
theorem runAccess_fails {x : Access} {s : State} (hx : ¬ s.Serves x) : runAccess x s = .trap x.cause (s.failAddr x) s := by
  cases x with
  | read a =>
    rw [runAccess, memRead_eq, if_neg (show ¬ s.backed a = true from hx)]
    rfl
  | store p =>
    rcases pixelWrite_cases p s with ⟨hg, hr, -⟩ | ⟨-, h1, h2, -⟩ | ⟨-, -, h⟩
    · exact (hx fun ha => by rcases ha with h | h <;> simp_all).elim
    · exact (hx fun _ => ⟨h1, h2⟩).elim
    · exact h

/-- Where every access goes through, exactly the pixels among them are painted. -/
theorem perform_served {l : List Access} {s : State} (hw : Memory.wf s.mem = true) (hl : ∀ x ∈ l, s.Serves x) :
    ∃ t, perform l s = .go () t ∧ Paints s (fun p => .store p ∈ l) t ∧ Draws s t ∧
      ((∀ p, .store p ∉ l) → t = s) := by
  induction l generalizing s with
  | nil => exact ⟨s, rfl, (Paints.none s).congr (by simp), Draws.refl s, fun _ => rfl⟩
  | cons x l ih =>
    obtain ⟨t, h1, h2, h3, h4⟩ := runAccess_served hw (hl x List.mem_cons_self)
    obtain ⟨u, k1, k2, k3, k4⟩ := ih (h3.wf hw) fun y hy => (h3.serves y).mpr (hl y (List.mem_cons_of_mem x hy))
    refine ⟨u, ?_, (h2.trans k2 h3).congr (by simp), h3.trans k3, fun hn => ?_⟩
    · rw [perform_cons, h1, Flow.bind_go, k1]
    · rw [k4 fun p hp => hn p (List.mem_cons_of_mem x hp), h4 fun p hp => hn p (hp ▸ List.mem_cons_self)]

/-- What has gone through was served. -/
theorem served_of_perform {l : List Access} {s t : State} (hw : Memory.wf s.mem = true) (h : perform l s = .go () t) :
    ∀ x ∈ l, s.Serves x := by
  induction l generalizing s with
  | nil => simp
  | cons x l ih =>
    by_cases hx : s.Serves x
    · obtain ⟨u, h1, -, h3, -⟩ := runAccess_served hw hx
      rw [perform_cons, h1, Flow.bind_go] at h
      intro y hy
      rcases List.mem_cons.mp hy with rfl | hy
      · exact hx
      · exact (h3.serves y).mp (ih (h3.wf hw) h y hy)
    · rw [perform_cons, runAccess_fails hx] at h
      cases h

/-- At the first access that fails: what was done before it stays, nothing after it is done (60_exceptions.md R175). -/
theorem perform_fails {before after : List Access} {x : Access} {s : State} (hw : Memory.wf s.mem = true)
    (hb : ∀ y ∈ before, s.Serves y) (hx : ¬ s.Serves x) :
    ∃ u, perform (before ++ x :: after) s = .trap x.cause (s.failAddr x) u ∧
      Paints s (fun p => .store p ∈ before) u ∧ ((∀ p, .store p ∉ before) → u = s) := by
  obtain ⟨u, h1, h2, h3, h4⟩ := perform_served hw hb
  refine ⟨u, ?_, h2, h4⟩
  rw [perform_append, h1, Flow.bind_go, perform_cons, runAccess_fails fun h => hx ((h3.serves x).mp h), Flow.bind_trap]
  congr 1
  cases x with
  | read a => rfl
  | store p => exact h3.same.2.2.2.2.1 p

/-! ### Reads that the stores before them leave alone -/

/-- However far the accesses `l` get from `t`, the bytes `R` read as in `s`. -/
def Steady (s t : State) (R : Word → Prop) (l : List Access) : Prop :=
  ∀ pre post u, l = pre ++ post → perform pre t = .go () u → SameBytes s u R

theorem Steady.now {s t : State} {R : Word → Prop} {l : List Access} (h : Steady s t R l) : SameBytes s t R :=
  h [] l t rfl rfl

theorem Steady.left {s t : State} {R : Word → Prop} {k l : List Access} (h : Steady s t R (k ++ l)) : Steady s t R k :=
  fun pre post u he hp => h pre (post ++ l) u (by rw [he, List.append_assoc]) hp

theorem Steady.right {s t u : State} {R : Word → Prop} {k l : List Access} (h : Steady s t R (k ++ l))
    (hu : perform k t = .go () u) : Steady s u R l :=
  fun pre post v he hp => h (k ++ pre) post v (by rw [he, List.append_assoc])
    (by rw [perform_append, hu, Flow.bind_go, hp])

/-- Stores apart from the bytes `R` keep them, as far as the accesses are served. -/
theorem Steady.of_apart {s : State} {R : Word → Prop} {before after : List Access} {x : Access}
    (hw : Memory.wf s.mem = true) (hx : ¬ s.Serves x) (ha : s.Apart (fun p => .store p ∈ before) R) :
    Steady s s R (before ++ x :: after) := by
  intro pre post u he hp
  have hs := served_of_perform hw hp
  obtain ⟨v, h1, h2, h3, -⟩ := perform_served hw hs
  rw [hp] at h1
  cases h1
  refine h2.sameBytes h3 fun p hpp hadm => ha p ?_ hadm
  rcases List.append_eq_append_iff.mp he with ⟨c, hc, hd⟩ | ⟨c, hc, -⟩
  · cases c with
    | nil => simpa [hc] using hpp
    | cons y c =>
      simp only [List.cons_append, List.cons.injEq] at hd
      exact (hx (hs x (by rw [hc, hd.1]; simp))).elim
  · rw [hc]
    exact List.mem_append_left c hpp

/-- `m` performs `k` and answers `a`; from where that ends the rest performs `l` and answers `b`. -/
theorem Flow.bind_performs {α β : Type} {m : Flow α} {r : α → State → Flow β} {t : State} {k l : List Access} {a : α}
    {b : β} (hm : m = (perform k t).bind fun _ u => .go a u)
    (hr : ∀ u, perform k t = .go () u → r a u = (perform l u).bind fun _ v => .go b v) :
    m.bind r = (perform (k ++ l) t).bind fun _ v => .go b v := by
  rw [hm, perform_append]
  cases hk : perform k t with
  | go _ u => exact hr u hk
  | trap c x u => rfl

theorem Flow.fold_performs {α : Type} {f : Nat → α → State → Flow α} {val : Nat → α} {acc : Nat → List Access}
    {s t : State} {R : Word → Prop} (n : Nat) (hs : Steady s t R ((List.range n).flatMap acc))
    (hf : ∀ i, i < n → ∀ u, Steady s u R (acc i) → f i (val i) u = (perform (acc i) u).bind fun _ v => .go (val (i + 1)) v) :
    Flow.fold f (List.range n) (val 0) t = (perform ((List.range n).flatMap acc) t).bind fun _ v => .go (val n) v := by
  induction n with
  | zero => rfl
  | succ n ih =>
    have he : (List.range (n + 1)).flatMap acc = (List.range n).flatMap acc ++ acc n := by
      simp [List.range_succ, List.flatMap_append]
    rw [he] at hs
    rw [he, List.range_succ, Flow.fold_append]
    refine Flow.bind_performs (ih hs.left fun i hi => hf i (by omega)) fun u hu => ?_
    rw [Flow.fold_cons, hf n (by omega) u (hs.right hu), Flow.bind_assoc]
    rfl

theorem Flow.each_performs {β : Type} {f : β → State → Flow Unit} {acc : β → List Access} {s t : State}
    {R : Word → Prop} (l : List β) (hs : Steady s t R (l.flatMap acc))
    (hf : ∀ b ∈ l, ∀ u, SameBytes s u R → f b u = perform (acc b) u) : Flow.each f l t = perform (l.flatMap acc) t := by
  induction l generalizing t with
  | nil => rfl
  | cons b l ih =>
    rw [List.flatMap_cons] at hs
    rw [Flow.each_cons, List.flatMap_cons, perform_append, hf b List.mem_cons_self t hs.now]
    cases hk : perform (acc b) t with
    | go _ u => exact ih (hs.right hk) fun c hc => hf c (List.mem_cons_of_mem b hc)
    | trap c x u => rfl

/-! ### What the glyph engine and CLEAR perform -/

section
variable {s t : State} {R : Word → Prop} {f : Font} {ch : Half}

/-- A byte read from where `R` holds. -/
theorem memRead_performs {a : Word} (h : SameBytes s t R) (ha : R a) :
    memRead a t = (perform [.read a] t).bind fun _ u => .go (s.byteAt a) u := by
  rw [perform_cons, runAccess, memRead_eq, h.bytes a ha]
  split <;> rfl

theorem State.widthAccesses_supported (h : s.Supports ch) :
    s.widthAccesses f ch = (List.range 4).map fun k => .read (s.descriptorAt f ch + BitVec.ofNat 32 k) :=
  if_pos h

theorem State.widthAccesses_not (h : ¬ s.Supports ch) : s.widthAccesses f ch = [] := if_neg h

/-- A descriptor byte is read by the width of its character. -/
theorem State.DescByte.mem {a : Word} (h : s.DescByte f ch a) : .read a ∈ s.widthAccesses f ch := by
  obtain ⟨hsu, k, hk, rfl⟩ := h
  rw [State.widthAccesses_supported hsu]
  exact List.mem_map.mpr ⟨k, List.mem_range.mpr hk, rfl⟩

theorem readDesc_performs (h : SameBytes s t R) (hsu : s.Supports ch) (hR : ∀ a, .read a ∈ s.widthAccesses f ch → R a) :
    readDesc f ch t = (perform (s.widthAccesses f ch) t).bind fun _ u =>
      .go (s.glyphWidth f ch, s.halfAt (s.descriptorAt f ch + 2)) u := by
  have hD : ∀ k, k < 4 → R (s.descriptorAt f ch + BitVec.ofNat 32 k) := fun k hk =>
    hR _ (State.DescByte.mem ⟨hsu, k, hk, rfl⟩)
  rw [State.widthAccesses_supported hsu]
  unfold readDesc State.glyphWidth State.halfAt
  rw [← State.descriptorAt_eq, h.descriptorAt]
  generalize s.descriptorAt f ch = d at *
  have h0 : R d := by simpa using hD 0 (by omega)
  have h1 : R (d + 1) := hD 1 (by omega)
  have h2 : R (d + 2) := hD 2 (by omega)
  have h3 : R (d + 3) := hD 3 (by omega)
  have hl : (List.range 4).map (fun k => Access.read (d + BitVec.ofNat 32 k)) =
      [.read d] ++ ([.read (d + 1)] ++ ([.read (d + 2)] ++ [.read (d + 3)])) := by
    simp [List.range_succ]
  have keep : ∀ a u, perform [.read a] t = .go () u → u = t := by
    intro a u hu
    rw [perform_cons, runAccess, memRead_eq] at hu
    split at hu <;> cases hu
    rfl
  rw [hl, show d + 2 + 1 = d + 3 by rw [BitVec.add_assoc]; rfl]
  refine Flow.bind_performs (memRead_performs h h0) fun u hu => ?_
  obtain rfl := keep d u hu
  refine Flow.bind_performs (memRead_performs h h1) fun u hu => ?_
  obtain rfl := keep _ u hu
  refine Flow.bind_performs (memRead_performs h h2) fun u hu => ?_
  obtain rfl := keep _ u hu
  rw [memRead_performs h h3, Flow.bind_assoc]
  rfl

/-- Width performs the reads of the character's width (42_glyph_engine.md R136). -/
theorem charWidth_performs (h : SameBytes s t R) (hR : ∀ a, .read a ∈ s.widthAccesses f ch → R a) :
    charWidth f ch t = (perform (s.widthAccesses f ch) t).bind fun _ u => .go (BitVec.ofNat 16 (s.advance f ch)) u := by
  unfold charWidth
  rw [h.cfg]
  by_cases hsp : ch = 0x20
  · subst hsp
    simp only [classify_space, advance_space, BitVec.ofNat_toNat, BitVec.setWidth_eq,
      State.widthAccesses_not fun h : s.Supports 0x20 => h.1 rfl, perform_nil, Flow.bind_go]
  · by_cases hsu : s.Supports ch
    · simp only [classify_supported hsu, advance_supported hsu, BitVec.ofNat_toNat, BitVec.setWidth_eq]
      rw [readDesc_performs h hsu hR, Flow.bind_assoc]
      rfl
    · simp only [classify_unsupported hsp hsu, advance_unsupported hsp hsu, State.widthAccesses_not hsu, perform_nil,
        Flow.bind_go]
      rfl

/-- A bitmap byte: its read, then the stores of its set bits (42_glyph_engine.md R150). -/
theorem drawByte_performs {px py : Half} (h : SameBytes s t R) (r k : Nat)
    (hR : R (s.glyphByteAddr f ch r (8 * k))) :
    drawByte (s.glyphBase f ch) px py (s.glyphWidth f ch) (r, k) t = perform (s.bitmapByteAccesses f px py ch r k) t := by
  have ha : s.glyphBase f ch + BitVec.ofNat 32 (r * rowBytes (s.glyphWidth f ch) + k) = s.glyphByteAddr f ch r (8 * k) := by
    unfold State.glyphByteAddr rowBytes
    rw [show 8 * k / 8 = k by omega]
  unfold drawByte State.bitmapByteAccesses
  dsimp only
  rw [ha, memRead_performs h hR, perform_cons, perform_cons, Flow.bind_assoc, Flow.bind_assoc]
  congr 1
  funext _ u
  rw [perform_nil, Flow.bind_go, Flow.bind_go, ← perform_stores, bytePixels, List.map_map]
  rfl

theorem State.glyphAccesses_supported (px py : Half) (h : s.Supports ch) :
    s.glyphAccesses f px py ch = s.widthAccesses f ch ++
      (bitmapBytes f.height.toNat (rowBytes (s.glyphWidth f ch))).flatMap fun rk =>
        s.bitmapByteAccesses f px py ch rk.1 rk.2 := by
  have hc := h
  unfold State.Supports at hc
  rw [State.glyphAccesses, if_pos hc, bitmapBytes, List.flatMap_assoc]
  simp only [List.flatMap_map]
  rfl

theorem State.glyphAccesses_not (px py : Half) (h : ¬ s.Supports ch) : s.glyphAccesses f px py ch = [] := by
  have hc := h
  unfold State.Supports at hc
  rw [State.glyphAccesses, State.widthAccesses_not h, if_neg hc, List.nil_append]

/-- The blit performs the accesses of the character and answers its advance width (42_glyph_engine.md R150). -/
theorem drawGlyph_performs {px py : Half} (hs : Steady s t R (s.glyphAccesses f px py ch))
    (hR : ∀ a, .read a ∈ s.glyphAccesses f px py ch → R a) :
    drawGlyph f px py ch t =
      (perform (s.glyphAccesses f px py ch) t).bind fun _ u => .go (BitVec.ofNat 16 (s.advance f ch)) u := by
  unfold drawGlyph
  rw [hs.now.cfg]
  by_cases hsp : ch = 0x20
  · subst hsp
    simp only [classify_space, advance_space, BitVec.ofNat_toNat, BitVec.setWidth_eq,
      State.glyphAccesses_not px py fun h : s.Supports 0x20 => h.1 rfl, perform_nil, Flow.bind_go]
  by_cases hsu : s.Supports ch
  swap
  · simp only [classify_unsupported hsp hsu, advance_unsupported hsp hsu, State.glyphAccesses_not px py hsu,
      perform_nil, Flow.bind_go]
    rfl
  rw [State.glyphAccesses_supported px py hsu] at hs hR ⊢
  simp only [classify_supported hsu, advance_supported hsu, BitVec.ofNat_toNat, BitVec.setWidth_eq]
  refine Flow.bind_performs (readDesc_performs hs.now hsu fun a ha => hR a (List.mem_append_left _ ha)) fun u hu => ?_
  rw [drawBitmap]
  congr 1
  refine Flow.each_performs _ (hs.right hu) fun rk hrk v hv => drawByte_performs hv rk.1 rk.2 ?_
  exact hR _ (List.mem_append_right _ (List.mem_flatMap.mpr ⟨rk, hrk, List.mem_cons_self⟩))

/-- DrawStr performs the accesses of the string (42_glyph_engine.md R155). -/
theorem drawStr_performs {x0 y0 : Half} {addr : Word} {len : Nat} (hs : Steady s t R (s.textAccesses f x0 y0 addr len))
    (hR : ∀ a, .read a ∈ s.textAccesses f x0 y0 addr len → R a) :
    drawStr f x0 y0 addr len t = perform (s.textAccesses f x0 y0 addr len) t := by
  have h0 : s.cursorAt f x0 addr 0 = x0 := by simp [State.cursorAt, State.widthSum]
  have hfold : Flow.fold (drawStrStep f y0 addr) (List.range len) (s.cursorAt f x0 addr 0) t =
      (perform (s.textAccesses f x0 y0 addr len) t).bind fun _ v => .go (s.cursorAt f x0 addr len) v := by
    refine Flow.fold_performs len hs fun i hi u hu => ?_
    have hi' : ∀ a, .read a ∈ Access.read (addr + BitVec.ofNat 32 i) ::
        s.glyphAccesses f (s.cursorAt f x0 addr i) y0 (s.charAt addr i) → R a := fun a ha =>
      hR a (List.mem_flatMap.mpr ⟨i, List.mem_range.mpr hi, ha⟩)
    refine Flow.bind_performs (k := [_]) (memRead_performs hu.now (hi' _ List.mem_cons_self)) fun v hv => ?_
    rw [charOf_byteAt, drawGlyph_performs (Steady.right (k := [_]) hu hv) fun a ha => hi' a (List.mem_cons_of_mem _ ha),
      Flow.bind_assoc]
    simp only [Flow.bind_go, cursorAt_succ]
    rfl
  rw [drawStr, ← h0, hfold, h0, Flow.bind_assoc]
  simp only [Flow.bind_go]
  cases perform (s.textAccesses f x0 y0 addr len) t <;> rfl

/-- Measure performs its reads and answers the measure (42_glyph_engine.md R147). -/
theorem measure_performs {addr : Word} {len : Nat} (hs : Steady s t R (s.measureAccesses f addr len))
    (hR : ∀ a, .read a ∈ s.measureAccesses f addr len → R a) :
    measure f addr len t = (perform (s.measureAccesses f addr len) t).bind fun _ v =>
      .go (BitVec.ofNat 32 (s.measureOf f addr len)) v := by
  have h0 : s.measuredTo f addr len 0 = 0 := by simp [State.measuredTo, State.widthSum]
  rw [measure, ← h0, ← State.measuredTo_all]
  refine Flow.fold_performs (val := s.measuredTo f addr len) len hs fun i hi u hu => ?_
  have hi' : ∀ a, .read a ∈ Access.read (addr + BitVec.ofNat 32 i) :: s.widthAccesses f (s.charAt addr i) → R a :=
    fun a ha => hR a (List.mem_flatMap.mpr ⟨i, List.mem_range.mpr hi, ha⟩)
  refine Flow.bind_performs (k := [_]) (memRead_performs hu.now (hi' _ List.mem_cons_self)) fun v hv => ?_
  rw [charOf_byteAt, charWidth_performs (Steady.right (k := [_]) hu hv).now fun a ha => hi' a (List.mem_cons_of_mem _ ha),
    Flow.bind_assoc]
  simp only [Flow.bind_go, State.measuredTo_succ s f addr len i]
  rfl

/-- CLEAR performs the stores of the frame buffer (41_rasterizer.md R104). -/
theorem clearPixels_performs (s : State) : clearPixels s = perform (s.bufferInOrder.map .store) s := by
  rw [perform_stores, clearPixels_stores]

end

end Sys2Proof.Machine
end

