-- ==== Sys2Proof/Laws/Decode.lean ====
section
/-!
SUPPORT. The fields of a command word: a word is its three fields, and its fields are what it was built from.
-/

namespace Sys2Proof

/-- The bits of a command word: `op` below bit 8, `imm16` from bit 16 on. -/
theorem getLsbD_commandWord (op : Byte) (imm : Half) (i : Nat) :
    (commandWord op imm).getLsbD i = (op.getLsbD i || (decide (16 ≤ i) && imm.getLsbD (i - 16))) := by
  unfold commandWord
  rw [BitVec.getLsbD_or, BitVec.getLsbD_setWidth, BitVec.getLsbD_shiftLeft, BitVec.getLsbD_setWidth]
  by_cases h : i < 32
  · by_cases h2 : i < 16
    · simp [h, h2, show ¬ 16 ≤ i by omega]
    · simp [h, h2, show 16 ≤ i by omega, show i - 16 < 32 by omega]
  · simp [h, BitVec.getLsbD_of_ge op i (by omega), BitVec.getLsbD_of_ge imm (i - 16) (by omega)]

@[simp] theorem opField_commandWord (op : Byte) (imm : Half) : opField (commandWord op imm) = op := by
  apply BitVec.eq_of_getLsbD_eq
  intro i hi
  rw [opField, BitVec.getLsbD_extractLsb', Nat.zero_add, getLsbD_commandWord]
  simp [hi, show ¬ 16 ≤ i by omega]

@[simp] theorem zField_commandWord (op : Byte) (imm : Half) : zField (commandWord op imm) = 0 := by
  apply BitVec.eq_of_getLsbD_eq
  intro i hi
  rw [zField, BitVec.getLsbD_extractLsb', getLsbD_commandWord, BitVec.getLsbD_of_ge op (8 + i) (by omega)]
  simp [show ¬ 16 ≤ 8 + i by omega]

@[simp] theorem immField_commandWord (op : Byte) (imm : Half) : immField (commandWord op imm) = imm := by
  apply BitVec.eq_of_getLsbD_eq
  intro i hi
  rw [immField, BitVec.getLsbD_extractLsb', getLsbD_commandWord, BitVec.getLsbD_of_ge op (16 + i) (by omega)]
  simp [hi]

/-- A word with a zero reserved field is the command word of its `op` and `imm16`. -/
theorem commandWord_of_fields (w : Word) (h : zField w = 0) : commandWord (opField w) (immField w) = w := by
  apply BitVec.eq_of_getLsbD_eq
  intro i hi
  rw [getLsbD_commandWord, opField, immField, BitVec.getLsbD_extractLsb', BitVec.getLsbD_extractLsb']
  by_cases h1 : i < 8
  · simp [h1, show ¬ 16 ≤ i by omega]
  · by_cases h2 : i < 16
    · have hz := congrArg (fun v => BitVec.getLsbD v (i - 8)) h
      simp only [zField, BitVec.getLsbD_extractLsb'] at hz
      rw [show 8 + (i - 8) = i by omega] at hz
      simpa [h1, show ¬ 16 ≤ i by omega, show i - 8 < 8 by omega] using hz.symm
    · simp [h1, show 16 ≤ i by omega, show i - 16 < 16 by omega, show 16 + (i - 16) = i by omega]

end Sys2Proof
end

