-- ==== Sys2Proof/Laws/PerInstr.lean ====
section
/-!
SUPPORT. Facts about every instruction as syntax, one lemma per constructor of `Instr`.
-/

namespace Sys2Proof.Laws.FieldsOfEncode

/-- The word of `i` has a zero reserved field, and its `op` names a row of 30_encoding.md R64 whose command, built
from the word's `imm16`, is `i`. -/
def Statement (i : Instr) : Prop :=
  zField (encode i) = 0 ∧
    ∃ f build, opcodeRow (opField (encode i)) = some (f, build) ∧ build (immField (encode i)) = i

theorem nop : Statement .nop := ⟨by simp [encode], _, _, by rw [encode, opField_commandWord]; rfl, rfl⟩

theorem init : Statement .init := ⟨by simp [encode], _, _, by rw [encode, opField_commandWord]; rfl, rfl⟩

theorem deinit : Statement .deinit := ⟨by simp [encode], _, _, by rw [encode, opField_commandWord]; rfl, rfl⟩

theorem setDrawBuffer (imm : Half) : Statement (.setDrawBuffer imm) :=
  ⟨by simp [encode], _, _, by rw [encode, opField_commandWord]; rfl, by simp [encode]⟩

theorem setDrawColor (imm : Half) : Statement (.setDrawColor imm) :=
  ⟨by simp [encode], _, _, by rw [encode, opField_commandWord]; rfl, by simp [encode]⟩

theorem setDrawColorArgb : Statement .setDrawColorArgb := ⟨by simp [encode], _, _, by rw [encode, opField_commandWord]; rfl, rfl⟩

theorem queryBack (imm : Half) : Statement (.queryBack imm) :=
  ⟨by simp [encode], _, _, by rw [encode, opField_commandWord]; rfl, by simp [encode]⟩

theorem flip (imm : Half) : Statement (.flip imm) :=
  ⟨by simp [encode], _, _, by rw [encode, opField_commandWord]; rfl, by simp [encode]⟩

theorem clear : Statement .clear := ⟨by simp [encode], _, _, by rw [encode, opField_commandWord]; rfl, rfl⟩

theorem drawPixel : Statement .drawPixel := ⟨by simp [encode], _, _, by rw [encode, opField_commandWord]; rfl, rfl⟩

theorem drawLine : Statement .drawLine := ⟨by simp [encode], _, _, by rw [encode, opField_commandWord]; rfl, rfl⟩

theorem drawRect : Statement .drawRect := ⟨by simp [encode], _, _, by rw [encode, opField_commandWord]; rfl, rfl⟩

theorem drawRectFill : Statement .drawRectFill := ⟨by simp [encode], _, _, by rw [encode, opField_commandWord]; rfl, rfl⟩

theorem fontClear : Statement .fontClear := ⟨by simp [encode], _, _, by rw [encode, opField_commandWord]; rfl, rfl⟩

theorem fontAdd : Statement .fontAdd := ⟨by simp [encode], _, _, by rw [encode, opField_commandWord]; rfl, rfl⟩

theorem setFontIndex (imm : Half) : Statement (.setFontIndex imm) :=
  ⟨by simp [encode], _, _, by rw [encode, opField_commandWord]; rfl, by simp [encode]⟩

theorem setFontName : Statement .setFontName := ⟨by simp [encode], _, _, by rw [encode, opField_commandWord]; rfl, rfl⟩

theorem measureChar (imm : Half) : Statement (.measureChar imm) :=
  ⟨by simp [encode], _, _, by rw [encode, opField_commandWord]; rfl, by simp [encode]⟩

theorem measureStr (imm : Half) : Statement (.measureStr imm) :=
  ⟨by simp [encode], _, _, by rw [encode, opField_commandWord]; rfl, by simp [encode]⟩

theorem drawChar (imm : Half) : Statement (.drawChar imm) :=
  ⟨by simp [encode], _, _, by rw [encode, opField_commandWord]; rfl, by simp [encode]⟩

theorem drawStrL (imm : Half) : Statement (.drawStrL imm) :=
  ⟨by simp [encode], _, _, by rw [encode, opField_commandWord]; rfl, by simp [encode]⟩

theorem drawStrC (imm : Half) : Statement (.drawStrC imm) :=
  ⟨by simp [encode], _, _, by rw [encode, opField_commandWord]; rfl, by simp [encode]⟩

theorem drawStrR (imm : Half) : Statement (.drawStrR imm) :=
  ⟨by simp [encode], _, _, by rw [encode, opField_commandWord]; rfl, by simp [encode]⟩

end Sys2Proof.Laws.FieldsOfEncode
end

