-- ==== Sys2Proof/Tests/Slice0.lean ====
section
/-!
SUPPORT. Tests. Expected values come from spec/95_test_vectors.md (the vector's name stands at each test) or from the
rule named; the last two parts show, for each obligation with hypotheses, a state and operands that meet them.
-/

namespace Sys2Proof.Tests

open Sys2Proof Sys2Proof.Machine

/-! ### Well-formedness: the one check refuses an ill-formed term -/

theorem test_ill_formed_setDrawBuffer_refused : (Instr.setDrawBuffer 2).wellFormed = false := by decide
theorem test_ill_formed_queryBack_refused : (Instr.queryBack 0x8000).wellFormed = false := by decide
theorem test_ill_formed_flip_refused : (Instr.flip 2).wellFormed = false := by decide
theorem test_layers_0_and_1_well_formed :
    (Instr.flip 0).wellFormed = true ∧ (Instr.flip 1).wellFormed = true := by decide

/-! ### Decoding: the words of 30_encoding.md R64, written out from the table -/

theorem test_decode_layer_family :
    decode 0x00000000 = .ok .nop ∧ decode 0x00000001 = .ok .init ∧ decode 0x00000002 = .ok .deinit ∧
    decode 0x00010008 = .ok (.setDrawBuffer 1) ∧ decode 0xF0030009 = .ok (.setDrawColor 0xF003) ∧
    decode 0x0000000A = .ok .setDrawColorArgb ∧ decode 0x0001000C = .ok (.queryBack 1) ∧
    decode 0x0000000D = .ok (.flip 0) := by decide

theorem test_decode_raster_family :
    decode 0x00000010 = .ok .clear ∧ decode 0x00000011 = .ok .drawPixel ∧ decode 0x00000012 = .ok .drawLine ∧
    decode 0x00000013 = .ok .drawRect ∧ decode 0x00000014 = .ok .drawRectFill := by decide

theorem test_decode_registry_family :
    decode 0x00000020 = .ok .fontClear ∧ decode 0x00000021 = .ok .fontAdd ∧
    decode 0xFFFF0022 = .ok (.setFontIndex 65535) ∧ decode 0x00000023 = .ok .setFontName := by decide

theorem test_decode_glyph_family :
    decode 0x00410024 = .ok (.measureChar 0x41) ∧ decode 0x00030025 = .ok (.measureStr 3) ∧
    decode 0x00410028 = .ok (.drawChar 0x41) ∧ decode 0x00010029 = .ok (.drawStrL 1) ∧
    decode 0x8000002A = .ok (.drawStrC 32768) ∧ decode 0x0002002B = .ok (.drawStrR 2) := by decide

/-- Vectors E-3 to E-10, E-12, E-14, E-15, E-18, E-20. -/
theorem test_decode_rejects_by_name :
    decode 0x00010001 = .error .immediateNotZero ∧ decode 0x00010000 = .error .immediateNotZero ∧
    decode 0x00000100 = .error .reservedNotZero ∧ decode 0x00000003 = .error .unknownOpcode ∧
    decode 0x0000000B = .error .unknownOpcode ∧ decode 0x00000026 = .error .unknownOpcode ∧
    decode 0x0000002C = .error .unknownOpcode ∧ decode 0x000000FF = .error .unknownOpcode ∧
    decode 0x00020008 = .error .layerOutOfRange ∧ decode 0x0002000D = .error .layerOutOfRange ∧
    decode 0x00010012 = .error .immediateNotZero ∧ decode 0x00010021 = .error .immediateNotZero ∧
    decode 0x0000012A = .error .reservedNotZero := by decide

theorem test_encode_is_the_table_word :
    encode (.setDrawBuffer 1) = 0x00010008 ∧ encode .drawLine = 0x00000012 ∧ encode .fontAdd = 0x00000021 ∧
    encode (.drawStrC 5) = 0x0005002A := by decide

/-! ### Small states -/

/-- A layer that INIT has brought up. -/
def layerUp (buf0 buf1 : Word) : Layer := { init := true, front := .slot0, back := .slot1, buf0 := buf0, buf1 := buf1 }

/-- SETUP(8, 6) of spec/95_test_vectors.md before INIT. -/
def beforeInit : State :=
  { State.reset with
    panelW := 8, panelH := 6
    layer0 := { Layer.reset with buf0 := 0x1000, buf1 := 0x1100 }
    layer1 := { Layer.reset with buf0 := 0x1200, buf1 := 0x1300 }
    panelAnswers := [.ok] }

/-- SETUP(W, H) of spec/95_test_vectors.md, then SET_DRAW_BUFFER 0. -/
def setup (w h color : Half) : State :=
  { State.reset with
    state := .ready, panelW := w, panelH := h, rv := true
    layer0 := layerUp 0x1000 0x1100, layer1 := layerUp 0x1200 0x1300, scan0 := 0x1000, scan1 := 0x1200
    tvalid := true, target := 0x1100, color := color }

/-- The small panel with a target and colour 0xF003. -/
def ready : State := setup 8 6 0xF003

/-- `ready` with the events of its INIT. -/
def broughtUp : State :=
  { ready with events := [.panelInit 8 6, .setScanout .layer0 0x1000, .setScanout .layer1 0x1200] }

/-- The test font F of spec/95_test_vectors.md. -/
def fontF : Font := { name := 7, desc := 0x8000, blob := 0x9000, height := 2, spaceWidth := 4, charGap := 1 }

/-- Font F's bytes and the strings "A B" and "BA" of spec/95_test_vectors.md section 2.5. -/
def fontMem : Mem :=
  [(0x8080, 0x0A), (0x8084, 0x03), (0x8086, 0x04)] ++
  [(0x9000, 0xFF), (0x9001, 0xC0), (0x9002, 0x80), (0x9003, 0x40), (0x9004, 0xE0), (0x9005, 0xA0)] ++
  [(0xA000, 0x41), (0xA001, 0x20), (0xA002, 0x42), (0xA030, 0x42), (0xA031, 0x41)]

/-- SETUP(32, 4) with font F registered and selected. -/
def text : State :=
  { setup 32 4 0xF00F with
    fonts := fontF :: List.replicate 15 Font.blank, fcount := 1, fvalid := true, fcur := 0, mem := fontMem }

/-- A state with a latched BUS_WRITE. -/
def latched : State :=
  { ready with faulted := true, faultCause := .busWrite, faultAddr := 0x1120, faultCmd := 0x14 }

/-- The state a result goes on in. -/
def after : Result → State
  | .next t => t
  | _ => State.reset

/-- The state after the host's access `a`. -/
def access (a : HostAccess) (s : State) : State := after (step { s with pending := [a] })

/-- The state after a CMD write of `w`. -/
def cmd (w : Nat) (s : State) : State := after (step (s.withFetchWord 32 w))

/-- The register word of the point `(x, y)`. -/
def pt (x y : Nat) : Word := BitVec.ofNat 32 (x + 65536 * y)

/-- `s` with A0 and A1. -/
def ops (a0 a1 : Word) (s : State) : State := { s with a0 := a0, a1 := a1 }

/-- Pixels as pairs of numbers. -/
def pairs (ps : List Coord) : List (Nat × Nat) := ps.map fun p => (p.x.toNat, p.y.toNat)

/-- The pixels of a `w` by `h` frame buffer at 0x1100 that hold `c`, row by row. -/
def lit (w h : Nat) (c : Half) (s : State) : List (Nat × Nat) :=
  (List.range (w * h)).filterMap fun i =>
    if s.halfAt (0x1100 + BitVec.ofNat 32 (2 * i)) = c then some (i % w, i / w) else none

/-! ### The host's registers (section 2.2) -/

/-- Vectors S-2, S-3: bit 0 of a base and the high half of a size are not stored. -/
theorem test_base_bit0_and_size_high_half_ignored :
    (access (.regWrite 0x40 .word 0x1001) State.reset).layer0.buf0 = 0x1000 ∧
    (access (.regWrite 0x30 .word 0x12345) State.reset).panelW = 0x2345 := by decide

/-- Vectors S-11 to S-13. -/
theorem test_ctrl_guard_and_soft_reset :
    (access (.regWrite 0x00 .word 1) ready).guard = true ∧
    (access (.regWrite 0x00 .word 0x7FFFFFFE) ready).guard = false ∧
    access (.regWrite 0x00 .word 0x80000001) latched = { State.reset with response := .done } := by decide

/-- Vectors S-9, S-10: STATUS 0x34E, and OOB cleared by bit 9 alone. -/
theorem test_status_write_clears_oob_only :
    statusWord { ready with oob := true } = 0x34E ∧
    statusWord (access (.regWrite 0x04 .word 0xFFFFFDFF) { ready with oob := true }) = 0x34E ∧
    statusWord (access (.regWrite 0x04 .word 0x200) { ready with oob := true }) = 0x14E := by decide

/-- Vector S-8: an 8-bit access, a reserved offset and a misaligned one. -/
theorem test_unaccepted_accesses_get_an_error :
    (access (.regRead 0x04 .byte) ready).response = .error ∧ (access (.regRead 0x3C .word) ready).response = .error ∧
    (access (.regWrite 0x02 .word 1) ready) = { ready with response := .error } := by decide

/-! ### One command each (sections 2.1, 2.3 to 2.6) -/

/-- Vector E-1. -/
theorem test_nop : cmd 0x00000000 State.reset = { State.reset with response := .done } := by decide

/-- SETUP's INIT: STATUS, RESULT and events. -/
theorem test_init_ok :
    statusWord (cmd 0x00000001 beforeInit) = 0x10E ∧ (cmd 0x00000001 beforeInit).events =
      [.panelInit 8 6, .setScanout .layer0 0x1000, .setScanout .layer1 0x1200] := by decide

/-- Vector Y-5. -/
theorem test_init_fail :
    let t := cmd 0x00000001 { beforeInit with panelAnswers := [.fail] }
    statusWord t = 0x103 ∧ t.result = 1 ∧ t.events = [.panelInit 8 6] ∧ t.scan0 = 0 := by decide

/-- Vector Y-13: L1FRONT, the scan addresses and COLOR are kept. -/
theorem test_deinit_keeps_markers :
    let t := cmd 0x00000002 { ready with layer1 := { ready.layer1 with front := .slot1, back := .slot0 } }
    statusWord t = 0x120 ∧ t.events = [.panelDeinit] ∧ t.target = 0 ∧ t.scan0 = 0x1000 ∧ t.color = 0xF003 := by decide

/-- Vector Y-4: no event when STATE was not READY. -/
theorem test_deinit_from_uninit :
    statusWord (cmd 0x00000002 State.reset) = 0x100 ∧ (cmd 0x00000002 State.reset).events = [] := by decide

theorem test_setDrawBuffer_takes_slot1 : (cmd 0x00010008 ready).target = 0x1300 := by decide

/-- Vectors Y-3, Y-6: an uninitialised layer deselects the target. -/
theorem test_setDrawBuffer_deselects :
    (cmd 0x00010008 { ready with layer1 := Layer.reset }).tvalid = false ∧
    (cmd 0x00010008 { ready with layer1 := Layer.reset }).target = 0 := by decide

/-- Vector E-16. -/
theorem test_setDrawColor : (cmd 0xFFFF0009 State.reset).color = 0xFFFF := by decide

/-- Vector Y-12. -/
theorem test_setDrawColorArgb_masks :
    (cmd 0x0000000A { ready with a0 := 0x1F2007F3 }).color = 0xF073 ∧
    (cmd 0x0000000A { ready with a0 := 0x0F000003 }).color = 0xF003 := by decide

/-- Scenario S8 and vector Y-1. -/
theorem test_queryBack :
    (cmd 0x0001000C ready).result = 0x1300 ∧ statusWord (cmd 0x0000000C State.reset) = 0 := by decide

/-- Scenario S8: the flip programs the new front, and the back buffer is then slot 0. -/
theorem test_flip :
    (cmd 0x0001000D ready).events = [.setScanout .layer1 0x1300] ∧
    (cmd 0x0001000D ready).layer1.back = .slot0 := by decide

/-- Vector Y-2. -/
theorem test_flip_uninitialised : cmd 0x0000000D State.reset = { State.reset with response := .done } := by decide

/-- Scenario S1 on a small panel: every pixel, and nothing before or after the frame buffer. -/
theorem test_clear :
    let t := cmd 0x00000010 (setup 2 2 0x1234)
    lit 2 2 0x1234 t = [(0, 0), (1, 0), (0, 1), (1, 1)] ∧ t.halfAt 0x10FE = 0 ∧ t.halfAt 0x1108 = 0 := by decide

/-- Vector R-C1. -/
theorem test_clear_empty_panel : (cmd 0x00000010 (setup 0 6 0x1234)).mem = [] := by decide

/-- Vectors R-P1, R-P5: the stored address, in and far out of range. -/
theorem test_drawPixel_addresses :
    (cmd 0x00000011 { ready with a0 := pt 3 2 }).mem = [(0x1126, 0x03), (0x1127, 0xF0)] ∧
    (cmd 0x00000011 { ready with a0 := 0xFFFFFFFF }).mem = [(0x001210EE, 0x03), (0x001210EF, 0xF0)] := by decide

/-- Vector R-P6. -/
theorem test_drawPixel_guarded :
    let t := cmd 0x00000011 { ready with guard := true, a0 := pt 9 1 }
    t.mem = [] ∧ statusWord t = 0x34E := by decide

/-- Program P2's two lines, the second given from its other end. -/
theorem test_drawLine_pixels :
    pairs (linePixels (coordOf (pt 0 0)) (coordOf (pt 7 3))) =
      [(0, 0), (1, 0), (2, 1), (3, 1), (4, 2), (5, 2), (6, 3), (7, 3)] ∧
    pairs (linePixels (coordOf (pt 6 1)) (coordOf (pt 1 4))) =
      [(1, 4), (2, 3), (3, 3), (4, 2), (5, 2), (6, 1)] := by decide

/-- Vector R-G2. -/
theorem test_drawLine_guarded :
    let t := cmd 0x00000012 (ops (pt 6 4) (pt 9 7) { ready with guard := true })
    lit 8 6 0xF003 t = [(6, 4), (7, 5)] ∧ t.oob = true := by decide

/-- Program P2's rectangle, its corners given as (6,4) and (1,1), in store order. -/
theorem test_drawRect_pixels :
    pairs (rectPixels (coordOf (pt 6 4)) (coordOf (pt 1 1))) =
      [(1, 1), (2, 1), (3, 1), (4, 1), (5, 1), (6, 1)] ++ [(1, 4), (2, 4), (3, 4), (4, 4), (5, 4), (6, 4)] ++
      [(1, 2), (1, 3), (6, 2), (6, 3)] := by decide

/-- Vector R-G4. -/
theorem test_drawRect_guarded :
    lit 8 6 0xF003 (cmd 0x00000013 (ops (pt 6 4) (pt 9 7) { ready with guard := true })) =
      [(6, 4), (7, 4), (6, 5)] := by decide

/-- Vector R-G3. -/
theorem test_drawRectFill_guarded :
    lit 8 6 0xF003 (cmd 0x00000014 (ops (pt 6 4) (pt 9 7) { ready with guard := true })) =
      [(6, 4), (7, 4), (6, 5), (7, 5)] := by decide

/-- Program P4 with the hole of `Backed` moved to pixel (1,0): one store made, then BUS_WRITE. -/
theorem test_drawRectFill_bus_error :
    let t := cmd 0x00000014 (ops (pt 0 0) (pt 1 1)
      { ready with cfg := { Config.standard with unbacked := [⟨0x1102, 0x1102⟩] } })
    t.mem = [(0x1100, 0x03), (0x1101, 0xF0)] ∧ t.faultCause = .busWrite ∧ t.faultAddr = 0x1102 ∧
      t.faultCmd = 0x14 := by decide

/-- Vector G-R7. -/
theorem test_fontClear : fontselWord (cmd 0x00000020 text) = 0 := by decide

/-- Vector G-R2. -/
theorem test_fontAdd :
    let t := cmd 0x00000021 { ready with a0 := 7, a1 := 0x8000, a2 := 0x9000, a3 := 0x00040002, a4 := 1 }
    fontselWord t = 0x100 ∧ t.result = 0 ∧ t.fonts.head? = some fontF := by decide

/-- Vectors E-23 and G-R6. -/
theorem test_fontAdd_illegal_operand_and_full_table :
    (cmd 0x00000021 { State.reset with a4 := 0x00010002 }).faultCause = .illegalOperand ∧
    (cmd 0x00000021 { ready with fcount := 16 }).rv = false := by decide

/-- Vectors G-R3, G-R4. -/
theorem test_setFontIndex :
    (cmd 0x00000022 { text with fvalid := false }).fvalid = true ∧
    (cmd 0x00010022 { text with fvalid := false }).fvalid = false := by decide

/-- Vectors G-R4, G-R5: an unknown key, and the lowest of two equal keys. -/
theorem test_setFontName :
    let s := { text with fonts := [fontF, { fontF with name := 9 }, fontF], fcount := 3, fcur := 2 }
    (cmd 0x00000023 { s with a0 := 8 }).fcur = 2 ∧ (cmd 0x00000023 { s with a0 := 7 }).fcur = 0 := by decide

/-- Vectors G-M2, G-M5. -/
theorem test_measureChar :
    (cmd 0x00420024 text).result = 3 ∧ (cmd 0x01410024 text).result = 0 ∧ (cmd 0x01410024 text).rv = true := by decide

/-- Vector F-6. -/
theorem test_measureChar_bus_error :
    let s := { text with result := 0x55, cfg := { Config.standard with unbacked := [⟨0x8082, 0x8082⟩] } }
    cmd 0x00410024 s = { s with
      response := .done
      faulted := true, faultCause := .busRead, faultAddr := 0x8082, faultCmd := 0x00410024 } := by decide

/-- Vectors G-M9, G-M6. -/
theorem test_measureStr :
    (cmd 0x00030025 { text with a1 := 0xA000 }).result = 19 ∧
    (cmd 0x00000025 { text with a1 := 0xA000 }).result = 0 := by decide

/-- Vector G-C2. -/
theorem test_drawChar :
    lit 32 4 0xF00F (cmd 0x00420028 { text with a0 := pt 3 1 }) = [(3, 1), (4, 1), (5, 1), (3, 2), (5, 2)] := by decide

/-- Vector G-D1, second row. -/
theorem test_drawStrL :
    (lit 32 4 0xF00F (cmd 0x00020029 (ops (pt 2 0) 0xA030 text))).drop 13 =
      [(2, 1), (4, 1), (6, 1), (15, 1)] := by decide

/-- Vector G-D3, second row. -/
theorem test_drawStrC :
    (lit 32 4 0xF00F (cmd 0x0002002A (ops (pt 20 2) 0xA030 text))).drop 13 =
      [(13, 3), (15, 3), (17, 3), (26, 3)] := by decide

/-- Vector G-D7: a start below 0 wraps, and GUARD drops the first glyph. -/
theorem test_drawStrC_wraps :
    let t := cmd 0x0002002A (ops (pt 3 0) 0xA030 { text with guard := true })
    statusWord t = 0x3CE ∧ (lit 32 4 0xF00F t).drop 10 = [(0, 1), (9, 1)] := by decide

/-- Vector G-D2, second row. -/
theorem test_drawStrR :
    (lit 32 4 0xF00F (cmd 0x0002002B (ops (pt 20 0) 0xA030 text))).drop 13 =
      [(6, 1), (8, 1), (10, 1), (19, 1)] := by decide

/-- Vectors E-6, E-24: the illegal word is latched, and the second one is dropped. -/
theorem test_illegal_word_latches_once :
    let t := cmd 0x00000100 (cmd 0x00000003 State.reset)
    t.faultCause = .illegalCmd ∧ t.faultCmd = 0x00000003 ∧ t.faultAddr = 0 ∧ statusWord t = 0x400 := by decide

/-! ### Every obligation's hypotheses can be met: encoding and host accesses

`test_meets_X` shows concrete operands and a state that meet the hypotheses of `Obligations.X` together. -/

/-- `s` with the host's one access `a` to make. -/
def due (a : HostAccess) (s : State) : State := { s with pending := [a] }

theorem test_meets_DecodeOfEncodeIsTheCommand :
    (Instr.flip 1).wellFormed = true ∧ (Instr.drawStrR 0xFFFF).wellFormed = true := by decide

theorem test_meets_DecodedWordIsTheCommandsWord : decode 0xFFFF002B = .ok (.drawStrR 0xFFFF) := by decide

theorem test_meets_WordIsRowsCommandExactlyWhenItMatches :
    (⟨"FLIP", 0x0000000D, 0xFFFEFFFF⟩ : TableRow) ∈ opcodeTable ∧ (0x0001000D#32 &&& 0xFFFEFFFF#32) = 0x0000000D#32 ∧
    decode 0x0001000D = .ok (.flip 1) := ⟨by simp [opcodeTable], by decide, by decide⟩

theorem illegal_of_error {w : Word} {e : DecodeError} (h : decode w = .error e) (i : Instr) : decode w ≠ .ok i := by
  rw [h]
  exact fun k => by cases k

/-- One word for each of the four grounds of R65. -/
theorem test_meets_IllegalWordRaisesIllegalCmdAndNothingElse :
    (∀ i, decode 0x0000002C ≠ .ok i) ∧ (∀ i, decode 0x00000100 ≠ .ok i) ∧ (∀ i, decode 0x00010000 ≠ .ok i) ∧
    (∀ i, decode 0x0002000D ≠ .ok i) ∧ ready.faulted = false ∧
    (due (.regWrite 0x08 .word 0x0002000D) ready).pending = [.regWrite 0x08 .word 0x0002000D] :=
  ⟨illegal_of_error (e := .unknownOpcode) (by decide), illegal_of_error (e := .reservedNotZero) (by decide),
    illegal_of_error (e := .immediateNotZero) (by decide), illegal_of_error (e := .layerOutOfRange) (by decide),
    rfl, rfl⟩

theorem test_meets_StepRunsTheDecodedCommand :
    (due (.regWrite 0x08 .word 0x0001000D) ready).pending = [.regWrite 0x08 .word 0x0001000D] ∧
    ready.faulted = false ∧ decode 0x0001000D = .ok (.flip 1) ∧ decodeTableWord 32 0x0001000D = some (.flip 1) := by
  decide

theorem test_meets_LatchedFaultDropsEveryCommand :
    (due (.regWrite 0x08 .word 0x00000002) latched).pending = [.regWrite 0x08 .word 0x00000002] ∧
    latched.faulted = true := by decide

/-- A dropped command, the hardware reset and the soft reset. -/
theorem test_meets_OnlyResetClearsALatchedFault :
    (∃ t, step (due (.regWrite 0x08 .word 0x00000002) latched) = .next t ∧ t.faulted = true) ∧
    (∃ t, step (due .hardReset latched) = .next t ∧ t.faulted = false) ∧
    (∃ t, step (due (.regWrite 0x00 .word 0x80000000) latched) = .next t ∧ t.faulted = false) ∧
    latched.faulted = true := ⟨⟨_, rfl, rfl⟩, ⟨_, rfl, rfl⟩, ⟨_, rfl, rfl⟩, rfl⟩

theorem test_meets_EveryStepAnswersAState : ready.pending = [] := rfl

theorem test_meets_ResetLeavesTheTablesValues :
    (due .hardReset latched).pending = [.hardReset] ∧ (0x80000000#32).getLsbD 31 = true ∧
    (due (.regWrite 0x00 .word 0x80000000) latched).pending = [.regWrite 0x00 .word 0x80000000] := by decide

/-- The first and the last offset of the list, a state whose GUARD is on, and FAULT_CAUSE with its highest code. -/
theorem test_meets_RegisterReadAnswersItsValueOnly :
    let s := { latched with guard := true }
    (0x00#7, 1#32) ∈ [(0x00#7, if s.guard then 1#32 else 0#32)] ∧ (0x60#7, 0x14#32) ∈ [(0x60#7, s.faultCmd)] ∧
    (0x58#7, 4#32) ∈ [(0x58#7, match s.faultCause with
      | .none => 0#32 | .illegalCmd => 1#32 | .illegalOperand => 2#32 | .busRead => 3#32 | .busWrite => 4#32)] ∧
    (due (.regRead 0x58 .word) s).pending = [.regRead 0x58 .word] ∧
    (due (.regRead 0x60 .word) s).pending = [.regRead 0x60 .word] := by decide

/-- The codes of R172 as the host reads them. -/
theorem test_fault_cause_codes :
    (FaultCause.none :: [.illegalCmd, .illegalOperand, .busRead, .busWrite]).map
      (fun c => (access (.regRead 0x58 .word) { ready with faultCause := c }).response) =
      [.data 0, .data 1, .data 2, .data 3, .data 4] := by decide

theorem test_meets_StatusAndFontselShowTheirBits :
    (due (.regRead 0x04 .word) text).pending = [.regRead 0x04 .word] ∧
    (due (.regRead 0x2C .word) text).pending = [.regRead 0x2C .word] := by decide

/-- An access of another width, a misaligned one, and the first and last reserved offset. -/
theorem test_meets_UnacceptedAccessGetsAnErrorOnly :
    AccessWidth.half ≠ .word ∧ (0x7F#7).toNat % 4 ≠ 0 ∧ 0x38#7 ∈ [0x38#7] ∧ 0x7C#7 ∈ [0x38#7, 0x7C#7] ∧
    (due (.regRead 0x38 .word) ready).pending = [.regRead 0x38 .word] ∧
    (due (.regWrite 0x7C .word 1) ready).pending = [.regWrite 0x7C .word 1] := by decide

theorem test_meets_ReadOnlyFieldsIgnoreWrites :
    (due (.regWrite 0x0C .word 1) ready).pending = [.regWrite 0x0C .word 1] ∧
    (due (.regWrite 0x60 .word 1) ready).pending = [.regWrite 0x60 .word 1] ∧
    (due (.regWrite 0x04 .word 0x200) ready).pending = [.regWrite 0x04 .word 0x200] ∧
    (due (.regWrite 0x00 .word 1) ready).pending = [.regWrite 0x00 .word 1] ∧ (1#32).getLsbD 31 = false := by decide

theorem test_meets_OnlyTheHostWritesOperandRegisters :
    (due (.regWrite 0x10 .word 5) ready).pending = [.regWrite 0x10 .word 5] ∧
    (due (.regWrite 0x20 .word 5) ready).pending = [.regWrite 0x20 .word 5] ∧
    exec .nop ready = .next ready ∧ (0x20#7, text.a4) ∈ [(0x10#7, text.a0), (0x20#7, text.a4)] ∧
    (due (.regRead 0x20 .word) text).pending = [.regRead 0x20 .word] :=
  ⟨rfl, rfl, rfl, by simp, rfl⟩

/-- UNINIT, FAILED and READY, at both offsets. -/
theorem test_meets_PanelSizeIsLockedWhileReady :
    State.reset.state = .uninit ∧ ({ ready with state := .failed }).state = .failed ∧ ready.state = .ready ∧
    (due (.regWrite 0x30 .word 10) State.reset).pending = [.regWrite 0x30 .word 10] ∧
    (due (.regWrite 0x34 .word 10) ready).pending = [.regWrite 0x34 .word 10] ∧
    (due (.regRead 0x34 .word) ready).pending = [.regRead 0x34 .word] := by decide

theorem test_meets_FrameBufferBasesAreEvenAndLocked :
    State.reset.state = .uninit ∧ ready.state = .ready ∧
    (due (.regWrite 0x40 .word 0x1001) State.reset).pending = [.regWrite 0x40 .word 0x1001] ∧
    (due (.regWrite 0x4C .word 0x1001) State.reset).pending = [.regWrite 0x4C .word 0x1001] ∧
    (due (.regWrite 0x4C .word 0x1001) ready).pending = [.regWrite 0x4C .word 0x1001] := by decide

/-! ### States with every address backed -/

theorem all_backed {s : State} (h : s.cfg.unbacked = []) (a : Word) : s.backed a = true := by
  simp [State.backed, Config.isBacked, h]

theorem all_storable {s : State} (h : s.cfg.unbacked = []) (P : Coord → Prop) : s.Storable P :=
  fun _ _ _ => ⟨all_backed h _, all_backed h _⟩

/-! ### Stores and reads that lie apart, and the access a command stops at -/

/-- Every admitted store of these pixels lies below address 0x8000. -/
def low (s : State) (ps : List Coord) : Bool :=
  ps.all fun p => (s.guard && !s.inRange p) || decide ((s.pixelAddr p).toNat + 1 < 0x8000)

/-- Every byte lies at 0x8000 or above. -/
def high (as : List Word) : Bool := as.all fun a => decide (0x8000 ≤ a.toNat)

theorem apart_of_low_high {s : State} {P : Coord → Prop} {R : Word → Prop} {ps : List Coord} {as : List Word}
    (hP : ∀ p, P p → p ∈ ps) (hR : ∀ a, R a → a ∈ as) (hl : low s ps = true) (hh : high as = true) : s.Apart P R := by
  intro p hp ha
  have h1 := List.all_eq_true.mp hl p (hP p hp)
  have h2 : (s.pixelAddr p).toNat + 1 < 0x8000 := by
    rcases ha with hg | hr
    · simpa [hg] using h1
    · simpa [hr] using h1
  have h3 : (s.pixelAddr p + 1).toNat = (s.pixelAddr p).toNat + 1 := by
    rw [BitVec.toNat_add, Nat.mod_eq_of_lt (by simp; omega)]
    rfl
  constructor
  · intro hr
    have := of_decide_eq_true (List.all_eq_true.mp hh _ (hR _ hr))
    omega
  · intro hr
    have := of_decide_eq_true (List.all_eq_true.mp hh _ (hR _ hr))
    omega

/-- The access goes through whether or not the store is dropped. -/
def goesThrough (s : State) : Access → Bool
  | .read a => s.backed a
  | .store p => s.backed (s.pixelAddr p) && s.backed (s.pixelAddr p + 1)

theorem serves_iff {s : State} (hg : s.guard = false) (x : Access) : s.Serves x ↔ goesThrough s x = true := by
  cases x with
  | read a => rfl
  | store p => simp [State.Serves, State.Admits, goesThrough, hg]

/-- The pixels stored by these accesses. -/
def stored (l : List Access) : List Coord :=
  l.filterMap fun x => match x with | .store p => some p | .read _ => none

/-- The bytes read by these accesses. -/
def bytesRead (l : List Access) : List Word :=
  l.filterMap fun x => match x with | .read a => some a | .store _ => none

/-- `x` is access `n` of the command and the first that fails, and the stores before it lie apart from its reads. -/
theorem stops_at {s : State} {f : Font} {i : Instr} (n : Nat) (x : Access) (hg : s.guard = false)
    (hn : (s.accesses f i)[n]? = some x) (hb : ((s.accesses f i).take n).all (goesThrough s) = true)
    (hx : goesThrough s x = false) (hl : low s (stored ((s.accesses f i).take n)) = true)
    (hh : high (bytesRead (s.accesses f i)) = true) :
    ∃ before after, s.accesses f i = before ++ x :: after ∧ (∀ y ∈ before, s.Serves y) ∧ ¬ s.Serves x ∧
      s.Apart (fun p => .store p ∈ before) fun a => .read a ∈ s.accesses f i := by
  obtain ⟨hlt, he⟩ := List.getElem?_eq_some_iff.mp hn
  refine ⟨_, (s.accesses f i).drop (n + 1), ?_, fun y hy => (serves_iff hg y).mpr (List.all_eq_true.mp hb y hy),
    fun h => absurd ((serves_iff hg x).mp h) (by simp [hx]), apart_of_low_high ?_ ?_ hl hh⟩
  · rw [← he, ← List.drop_eq_getElem_cons hlt, List.take_append_drop]
  · exact fun p hp => List.mem_filterMap.mpr ⟨_, hp, rfl⟩
  · exact fun a ha => List.mem_filterMap.mpr ⟨_, ha, rfl⟩

/-- A 32-bit access at the top of the address space, whose bytes wrap to address 0 and 1 (20_memory.md R50), one of each
other width, and accesses whose last byte alone is unbacked. -/
theorem test_meets_HostMemoryAccessIsLittleEndian :
    let holed := { text with cfg := { Config.standard with unbacked := [⟨0x1101, 0x1101⟩] } }
    Memory.wf text.mem = true ∧ Memory.wf holed.mem = true ∧
    (∀ k, k < 4 → text.backed (0xFFFFFFFE + BitVec.ofNat 32 k) = true) ∧
    (∀ p ∈ [(AccessWidth.byte, 1), (.half, 2), (.word, 4)], p ∈ [(AccessWidth.byte, 1), (.half, 2), (.word, 4)] ∧
      (due (.memWrite 0xFFFFFFFE p.1 5) text).pending = [.memWrite 0xFFFFFFFE p.1 5] ∧
      (due (.memRead 0xFFFFFFFE p.1) text).pending = [.memRead 0xFFFFFFFE p.1] ∧
      holed.backed (0x1101 - BitVec.ofNat 32 (p.2 - 1) + BitVec.ofNat 32 (p.2 - 1)) = false ∧ p.2 - 1 < p.2) ∧
    (due (.memWrite 0x1100 .half 5) holed).pending = [.memWrite 0x1100 .half 5] :=
  ⟨by decide, by decide, fun _ _ => all_backed rfl _, by decide, rfl⟩

/-- A 16-bit store and what 8, 16 and 32 bits of it read as (20_memory.md R41), and the answer for an unbacked byte. -/
theorem test_host_memory_widths :
    let s := access (.memWrite 0x2000 .half 0xAABB1234) ready
    s.mem = [(0x2000, 0x34), (0x2001, 0x12)] ∧ (access (.memRead 0x2001 .byte) s).response = .data 0x12 ∧
    (access (.memRead 0x2001 .word) s).response = .data 0x12 ∧
    (access (.memRead 0x1100 .half)
      { s with cfg := { Config.standard with unbacked := [⟨0x1101, 0x1101⟩] } }).response = .error := by decide

/-! ### Invariants -/

theorem test_meets_StepKeepsTheStateInvariants :
    (due (.regWrite 0x08 .word 0x00000002) text).Inv ∧
    ∃ t, step (due (.regWrite 0x08 .word 0x00000002) text) = .next t ∧ t.state = .uninit := by
  refine ⟨?_, _, rfl, rfl⟩
  constructor <;> decide

theorem test_meets_StepKeepsRegistryAndTargetCoherent :
    (due (.regWrite 0x08 .word 0x00000020) text).Coherent ∧
    (∃ t, step (due (.regWrite 0x08 .word 0x00000020) text) = .next t ∧ t.fvalid = false) ∧
    (due (.regWrite 0x08 .word 0x0001000D) broughtUp).Mirrors ∧
    ∃ t, step (due (.regWrite 0x08 .word 0x0001000D) broughtUp) = .next t ∧ t.scan1 = 0x1300 := by
  refine ⟨?_, ⟨_, rfl, rfl⟩, ?_, ⟨_, rfl, rfl⟩⟩
  · constructor <;> decide
  · intro l
    cases l <;> decide

theorem test_meets_StepKeepsMemoryCanonical :
    Memory.wf text.mem = true ∧ ∃ t, step (due (.memWrite 0x8080 .byte 0) text) = .next t ∧ t.mem = fontMem.tail :=
  ⟨by decide, _, rfl, by decide⟩

theorem test_meets_StepKeepsParametersAndPastEvents :
    ∃ t, step (due (.regWrite 0x08 .word 0x0000000D) ready) = .next t ∧ t.events = [.setScanout .layer0 0x1100] :=
  ⟨_, rfl, rfl⟩

theorem test_meets_OnlySixCommandsWriteResult :
    writesResult (.flip 0) = false ∧ exec (.setDrawColor 5) ready = .next { ready with color := 5 } ∧
    writesResult (.setDrawColor 5) = false := ⟨rfl, rfl, rfl⟩

/-- SET_DRAW_COLOR, INIT and FLIP: the three kinds the clauses tell apart. -/
theorem test_meets_ModeAndMarkersChangeOnlyWhereStated :
    exec (.setDrawColor 5) ready = .next { ready with color := 5 } ∧ Instr.setDrawColor 5 ≠ .init ∧
    Instr.setDrawColor 5 ≠ .deinit ∧ (∀ l, Instr.setDrawColor 5 ≠ .flip l) ∧
    (∃ t, exec (.flip 1) ready = .next t ∧ t.layer1.front = .slot1) ∧
    ∃ t, exec .init ready = .next t ∧ t.state = .ready :=
  ⟨rfl, by decide, by decide, (fun l h => nomatch h), ⟨_, rfl, rfl⟩, ⟨_, rfl, rfl⟩⟩

theorem test_meets_OnlyDrawingCommandsWriteMemory :
    isRaster (.flip 0) = false ∧ isText (.flip 0) = false ∧ ∃ t, exec (.flip 0) ready = .next t ∧ t.scan0 = 0x1100 :=
  ⟨rfl, rfl, _, rfl, rfl⟩

/-- A drawing command that stores, one that ends in a bus fault, and CLEAR; an odd distance from TARGET with GUARD on, and
the byte just after the frame buffer, are no byte of an admitted pixel. -/
theorem test_meets_DrawingCommandsFrame :
    isRaster .drawPixel = true ∧ isText (.drawChar 0x41) = true ∧ Memory.wf ready.mem = true ∧
    (∃ t, exec .drawPixel { ready with oob := true } = .next t ∧ t.faulted = false) ∧
    (∃ t, exec .drawPixel { ready with cfg := { Config.standard with unbacked := [⟨0x1100, 0x1100⟩] } } = .next t ∧
      t.faultCause = .busWrite) ∧
    (∀ p, ({ ready with guard := true, panelW := 0 }).Admits p →
      0x1100#32 ≠ ({ ready with guard := true, panelW := 0 }).pixelAddr p ∧
      0x1100#32 ≠ ({ ready with guard := true, panelW := 0 }).pixelAddr p + 1) ∧
    (∃ t, exec .clear ready = .next t ∧ t.faulted = false) ∧
    ∀ k, k < ready.panelW.toNat * ready.panelH.toNat → 0x1160#32 ≠ ready.indexAddr k ∧ 0x1160#32 ≠ ready.indexAddr k + 1 := by
  refine ⟨rfl, rfl, rfl, ⟨_, rfl, by decide⟩, ⟨_, rfl, by decide⟩, ?_, ⟨_, rfl, by decide⟩, by decide⟩
  rintro p (h | h)
  · cases h
  · simp [State.inRange] at h

/-! ### Memory port and addressing unit -/

/-- `ready` with the one byte 0x1101 unbacked. -/
def holed : State := { ready with cfg := { Config.standard with unbacked := [⟨0x1101, 0x1101⟩] } }

theorem test_meets_MemoryPortReadsBytesAndStoresPixels :
    holed.backed 0x1100 = true ∧ holed.backed 0x1101 = false ∧ holed.backed (0x1100 + 1) = false ∧
    Memory.wf holed.mem = true ∧ holed.backed 0x1102 = true ∧ holed.backed (0x1102 + 1) = true := by decide

/-- The last pixel in range and the first one out of range on either axis. -/
theorem test_meets_PixelWriteFollowsTheAddressingRule :
    (coordOf (pt 7 5)).x.toNat < ready.panelW.toNat ∧ (coordOf (pt 7 5)).y.toNat < ready.panelH.toNat ∧
    ({ ready with guard := true }).guard = true ∧ ready.guard = false ∧
    ready.panelW.toNat ≤ (coordOf (pt 8 5)).x.toNat ∧ ready.panelH.toNat ≤ (coordOf (pt 7 6)).y.toNat := by decide

theorem test_meets_InRangePixelLandsInTheFrameBuffer :
    (coordOf (pt 7 5)).x.toNat < ready.panelW.toNat ∧ (coordOf (pt 7 5)).y.toNat < ready.panelH.toNat := by decide

/-- The byte just after the frame buffer, and a fill that runs past it. -/
theorem test_meets_GuardConfinesEveryCommand :
    let s := ops (pt 6 4) (pt 9 7) { ready with guard := true }
    Memory.wf s.mem = true ∧ s.guard = true ∧ (∃ t, exec .drawRectFill s = .next t ∧ t.oob = true) ∧
    ∀ idx, idx < s.panelW.toNat * s.panelH.toNat →
      0x1160#32 ≠ s.target + BitVec.ofNat 32 (2 * idx) ∧ 0x1160#32 ≠ s.target + BitVec.ofNat 32 (2 * idx) + 1 := by
  refine ⟨by decide, rfl, ⟨_, rfl, by decide⟩, by decide⟩

/-! ### Layer commands -/

theorem test_meets_InitBringsUpThePanel :
    ready.state = .ready ∧ beforeInit.state ≠ .ready ∧ beforeInit.panelAnswer = .ok ∧
    beforeInit.panelAnswers = .ok :: [] ∧ ({ beforeInit with panelAnswers := [.fail] }).panelAnswer = .fail ∧
    State.reset.state ≠ .ready ∧ State.reset.panelAnswers = [] ∧ ({ ready with state := .failed }).state ≠ .ready := by
  decide

theorem test_meets_DeinitTearsDown : ready.state = .ready ∧ ({ ready with state := .failed }).state ≠ .ready := by
  decide

/-- Layer 1 of `ready` is initialised; after reset it is not. -/
theorem test_meets_SetDrawBufferTakesTheBackBuffer :
    ((1 : Half) = 1 ∧ layerUp 0x1200 0x1300 = ready.layer1) ∧ (layerUp 0x1200 0x1300).init = true ∧
    ((0 : Half) = 0 ∧ Layer.reset = State.reset.layer0) ∧ Layer.reset.init = false := by decide

theorem test_meets_QueryBackAnswersTheBackBuffer :
    ((0 : Half) = 0 ∧ layerUp 0x1000 0x1100 = ready.layer0) ∧ (layerUp 0x1000 0x1100).init = true ∧
    ((1 : Half) = 1 ∧ Layer.reset = State.reset.layer1) ∧ Layer.reset.init = false := by decide

theorem test_meets_FlipSwapsAndProgramsTheFront :
    ready.layer0.init = true ∧ ready.layer1.init = true ∧ ready.layer1.back = .slot1 ∧
    (0x1300 : Word) = ready.layer1.buf1 ∧ State.reset.layer0.init = false ∧ State.reset.layer1.init = false := by decide

theorem test_meets_FlipTogglesTheBackBuffer :
    (broughtUp.layer .layer1).init = true ∧ (broughtUp.layer .layer1).front ≠ (broughtUp.layer .layer1).back ∧
    (broughtUp.layer .layer1).buf0 ≠ (broughtUp.layer .layer1).buf1 ∧ broughtUp.Mirrors ∧
    lastScanout .layer1 broughtUp.events = some 0x1200 := by
  refine ⟨by decide, by decide, by decide, ?_, by decide⟩
  intro l
  cases l <;> decide

/-- R89 (b) right after INIT and right after FLIP: what QUERY_BACK answers, and what was last programmed. -/
theorem test_queryBack_is_not_the_scanout :
    let s := cmd 0x00000001 beforeInit
    (cmd 0x0000000C s).result = 0x1100 ∧ lastScanout .layer0 s.events = some 0x1000 ∧
    (cmd 0x0000000C (cmd 0x0000000D s)).result = 0x1000 ∧
    lastScanout .layer0 (cmd 0x0000000D s).events = some 0x1100 := by decide

/-! ### Rasterizer -/

theorem test_meets_UnselectedStateMakesDrawingANoOp :
    isRaster .clear = true ∧ State.reset.tvalid = false ∧ isText (.drawStrR 0xFFFF) = true ∧
    ready.tvalid = true ∧ ready.fvalid = false := by decide

theorem test_meets_ClearFillsTheFrameBuffer :
    ready.tvalid = true ∧ Memory.wf ready.mem = true ∧
    ∀ i, i < ready.panelW.toNat * ready.panelH.toNat →
      ready.backed (ready.indexAddr i) = true ∧ ready.backed (ready.indexAddr i + 1) = true :=
  ⟨rfl, rfl, fun _ _ => ⟨all_backed rfl _, all_backed rfl _⟩⟩

/-- A backed pixel at the largest coordinates, and a pixel whose second byte is unbacked. -/
theorem test_meets_DrawPixelPaintsItsPixel :
    ready.tvalid = true ∧ Memory.wf ready.mem = true ∧ AsPoint 0xFFFFFFFF ⟨65535, 65535⟩ ∧
    ready.Storable (fun q => q = ⟨65535, 65535⟩) ∧ AsPoint holed.a0 ⟨0, 0⟩ ∧ holed.Admits ⟨0, 0⟩ ∧
    holed.backed (holed.pixelAddr ⟨0, 0⟩ + 1) = false ∧ holed.tvalid = true :=
  ⟨rfl, rfl, rfl, all_storable rfl _, rfl, .inl rfl, by decide, rfl⟩

/-- Both orders of the endpoints. -/
theorem test_meets_DrawLinePaintsTheClosedForm :
    let s := ops (pt 0 5) (pt 7 3) ready
    let r := ops (pt 7 3) (pt 0 5) ready
    s.tvalid = true ∧ Memory.wf s.mem = true ∧ ComesFirst ⟨0, 5⟩ ⟨7, 3⟩ ∧ AsPoint s.a0 ⟨0, 5⟩ ∧
    AsPoint s.a1 ⟨7, 3⟩ ∧ AsPoint r.a0 ⟨7, 3⟩ ∧ AsPoint r.a1 ⟨0, 5⟩ ∧ s.Storable (OnLine ⟨0, 5⟩ ⟨7, 3⟩) :=
  ⟨rfl, rfl, .inl (by decide), rfl, rfl, rfl, rfl, all_storable rfl _⟩

/-- Different columns, one column, and one point; a shallow and a steep line, each with its last index. -/
theorem test_meets_LinePixelsAreTheClosedFormInOrder :
    ComesFirst ⟨0, 5⟩ ⟨65535, 3⟩ ∧ ComesFirst ⟨2, 0⟩ ⟨2, 65535⟩ ∧ ComesFirst ⟨3, 3⟩ ⟨3, 3⟩ ∧
    lineDy ⟨0, 5⟩ ⟨65535, 3⟩ ≤ lineDx ⟨0, 5⟩ ⟨65535, 3⟩ ∧ 65535 ≤ max (lineDx ⟨0, 5⟩ ⟨65535, 3⟩) (lineDy ⟨0, 5⟩ ⟨65535, 3⟩) ∧
    lineDx ⟨2, 0⟩ ⟨2, 65535⟩ < lineDy ⟨2, 0⟩ ⟨2, 65535⟩ ∧ 65535 ≤ max (lineDx ⟨2, 0⟩ ⟨2, 65535⟩) (lineDy ⟨2, 0⟩ ⟨2, 65535⟩) :=
  ⟨.inl (by decide), .inr ⟨rfl, by decide⟩, .inr ⟨rfl, by decide⟩, by decide, by decide, by decide, by decide⟩

theorem test_meets_DrawRectPaintsTheOutline :
    let s := ops (pt 6 4) (pt 1 1) ready
    s.tvalid = true ∧ Memory.wf s.mem = true ∧ AsPoint s.a0 ⟨6, 4⟩ ∧ AsPoint s.a1 ⟨1, 1⟩ ∧
    s.Storable (OnOutline ⟨6, 4⟩ ⟨1, 1⟩) ∧ OnOutline ⟨6, 4⟩ ⟨1, 1⟩ ⟨1, 3⟩ :=
  ⟨rfl, rfl, rfl, rfl, all_storable rfl _, ⟨by unfold InRect; decide, by decide⟩⟩

theorem test_meets_DrawRectFillPaintsTheRectangle :
    let s := ops (pt 6 4) (pt 1 1) ready
    s.tvalid = true ∧ Memory.wf s.mem = true ∧ AsPoint s.a0 ⟨6, 4⟩ ∧ AsPoint s.a1 ⟨1, 1⟩ ∧
    s.Storable (InRect ⟨6, 4⟩ ⟨1, 1⟩) ∧ InRect ⟨6, 4⟩ ⟨1, 1⟩ ⟨1, 4⟩ :=
  ⟨rfl, rfl, rfl, rfl, all_storable rfl _, by unfold InRect; decide⟩

/-- The whole coordinate range, the smallest rectangle with an inside corner, and one row. -/
theorem test_meets_RectangleStoreCounts :
    65536 = max (0 : Half).toNat (65535 : Half).toNat - min (0 : Half).toNat (65535 : Half).toNat + 1 ∧
    2 = max (4 : Half).toNat (5 : Half).toNat - min (4 : Half).toNat (5 : Half).toNat + 1 ∧
    1 = max (4 : Half).toNat (4 : Half).toNat - min (4 : Half).toNat (4 : Half).toNat + 1 := by decide

/-- First clause: a hole at pixel (0,1); the pixels before it, all of row 0, are backed. -/
theorem test_meets_FillStopsAtItsFirstBusError_fill :
    let s := ops (pt 0 0) (pt 1 1) { ready with cfg := { Config.standard with unbacked := [⟨0x1110, 0x1111⟩] } }
    s.tvalid = true ∧ s.guard = false ∧ Memory.wf s.mem = true ∧ AsPoint s.a0 ⟨0, 0⟩ ∧ AsPoint s.a1 ⟨1, 1⟩ ∧
    InRect ⟨0, 0⟩ ⟨1, 1⟩ ⟨0, 1⟩ ∧ s.backed (s.pixelAddr ⟨0, 1⟩) = false ∧
    s.Storable (fun q => InRect ⟨0, 0⟩ ⟨1, 1⟩ q ∧ RowMajorBefore q ⟨0, 1⟩) := by
  refine ⟨rfl, rfl, rfl, rfl, rfl, by unfold InRect; decide, by decide, ?_⟩
  rintro ⟨x, y⟩ ⟨⟨⟨-, hx⟩, -⟩, h⟩ -
  have hy : y = 0 := by
    rcases h with h | ⟨-, h⟩
    · exact BitVec.eq_of_toNat_eq (by simpa using h)
    · exact absurd h (by simp)
  have hx' : x.toNat ≤ 1 := hx
  have hx2 : x = 0 ∨ x = 1 := by
    rcases Nat.le_one_iff_eq_zero_or_eq_one.mp hx' with h | h
    · exact .inl (BitVec.eq_of_toNat_eq h)
    · exact .inr (BitVec.eq_of_toNat_eq h)
  subst hy
  rcases hx2 with rfl | rfl <;> decide

/-- Second clause, a store that fails: the fourth pixel of the line from (0,0) to (7,3), (3,1) at 0x1116. -/
theorem test_meets_FillStopsAtItsFirstBusError_line :
    let s := ops (pt 0 0) (pt 7 3) { ready with cfg := { Config.standard with unbacked := [⟨0x1117, 0x1117⟩] } }
    s.Enabled fontF .drawLine ∧ Memory.wf s.mem = true ∧ s.failAddr (.store ⟨3, 1⟩) = 0x1116 ∧
    ∃ before after, s.accesses fontF .drawLine = before ++ .store ⟨3, 1⟩ :: after ∧ (∀ y ∈ before, s.Serves y) ∧
      ¬ s.Serves (.store ⟨3, 1⟩) ∧ s.Apart (fun p => .store p ∈ before) fun a => .read a ∈ s.accesses fontF .drawLine :=
  ⟨⟨fun _ => rfl, fun h => by rcases h with h | h <;> cases h⟩, rfl, by decide,
    stops_at 3 _ rfl (by decide) (by decide) (by decide) (by decide) (by decide)⟩

/-- Second clause, a read that fails after stores: byte 0x9001 of the glyph 'A' in vector G-D2's state. -/
theorem test_meets_FillStopsAtItsFirstBusError_text :
    let s := ops (pt 20 0) 0xA030 { text with cfg := { Config.standard with unbacked := [⟨0x9001, 0x9001⟩] } }
    s.Enabled fontF (.drawStrR 2) ∧ Memory.wf s.mem = true ∧
    ∃ before after, s.accesses fontF (.drawStrR 2) = before ++ .read 0x9001 :: after ∧ (∀ y ∈ before, s.Serves y) ∧
      ¬ s.Serves (.read 0x9001) ∧
      s.Apart (fun p => .store p ∈ before) fun a => .read a ∈ s.accesses fontF (.drawStrR 2) :=
  ⟨⟨fun _ => rfl, fun _ => ⟨rfl, rfl⟩⟩, by decide,
    stops_at 36 _ rfl (by decide) (by decide) (by decide) (by decide) (by decide)⟩

/-- Vector F-5's state: the third descriptor byte is the unbacked one. -/
theorem test_meets_FillStopsAtItsFirstBusError_descriptor :
    let s := { text with cfg := { Config.standard with unbacked := [⟨0x8082, 0x8082⟩] } }
    ∃ before after, s.accesses fontF (.drawChar 0x41) = before ++ .read 0x8082 :: after ∧
      (∀ y ∈ before, s.Serves y) ∧ ¬ s.Serves (.read 0x8082) ∧
      s.Apart (fun p => .store p ∈ before) fun a => .read a ∈ s.accesses fontF (.drawChar 0x41) :=
  stops_at 2 _ rfl (by decide) (by decide) (by decide) (by decide) (by decide)

/-- Vector F-5: the fault registers, and no store made. -/
theorem test_drawChar_bus_error :
    let t := cmd 0x00410028 { text with cfg := { Config.standard with unbacked := [⟨0x8082, 0x8082⟩] } }
    t.faultCause = .busRead ∧ t.faultAddr = 0x8082 ∧ t.faultCmd = 0x00410028 ∧ t.mem = fontMem := by decide

/-- Vector G-C1: the reads in order, the first eight stores after the fifth of them. -/
theorem test_accesses_drawChar :
    let l := { text with a0 := pt 3 1 }.accesses fontF (.drawChar 0x41)
    bytesRead l = [0x8080, 0x8081, 0x8082, 0x8083, 0x9000, 0x9001, 0x9002, 0x9003] ∧
    (l[4]?, l[5]?, l[12]?, l[13]?) =
      (some (.read 0x9000), some (.store ⟨3, 1⟩), some (.store ⟨10, 1⟩), some (.read 0x9001)) ∧
    pairs ((stored l).drop 8) = [(11, 1), (12, 1), (3, 2), (12, 2)] := by decide

/-- Vectors G-M9, G-D1, G-D2, G-D3: how many reads and stores, and where the first store goes. -/
theorem test_accesses_counts :
    let n (i : Instr) (s : State) := ((bytesRead (s.accesses fontF i)).length, (stored (s.accesses fontF i)).length)
    n (.measureStr 3) { text with a1 := 0xA000 } = (11, 0) ∧ n (.drawStrL 2) (ops (pt 2 0) 0xA030 text) = (16, 17) ∧
    n (.drawStrR 2) (ops (pt 20 0) 0xA030 text) = (26, 17) ∧ n (.drawStrC 2) (ops (pt 20 2) 0xA030 text) = (26, 17) ∧
    pairs ((stored ((ops (pt 20 2) 0xA030 text).accesses fontF (.drawStrC 2))).take 1) = [(13, 2)] := by decide

/-- Program P2's line and rectangle, and CLEAR, as the lists of accesses. -/
theorem test_accesses_raster :
    pairs (stored ((ops (pt 6 1) (pt 1 4) ready).accesses fontF .drawLine)) =
      [(1, 4), (2, 3), (3, 3), (4, 2), (5, 2), (6, 1)] ∧
    pairs (stored ((ops (pt 3 3) (pt 1 1) ready).accesses fontF .drawRect)) =
      [(1, 1), (2, 1), (3, 1), (1, 3), (2, 3), (3, 3), (1, 2), (3, 2)] ∧
    pairs (stored ((ops (pt 2 1) (pt 1 2) ready).accesses fontF .drawRectFill)) = [(1, 1), (2, 1), (1, 2), (2, 2)] ∧
    pairs (stored ((setup 2 2 0).accesses fontF .clear)) = [(0, 0), (1, 0), (0, 1), (1, 1)] := by decide

/-! ### Fonts and text -/

/-- The reserved field at its least illegal value, a full table, and a table with room. -/
theorem test_meets_FontAddAppendsTheOperands :
    65536 ≤ (0x00010000#32).toNat ∧ (0x0000FFFF#32).toNat < 65536 ∧
    ({ ready with fcount := 16 }).fcount = ready.cfg.maxFonts ∧ ready.fcount ≠ ready.cfg.maxFonts := by decide

theorem test_meets_SetFontIndexSelectsRegisteredOnly :
    (0 : Half).toNat < text.fcount ∧ text.fcount ≤ (1 : Half).toNat ∧ text.fcount ≤ (65535 : Half).toNat := by decide

/-- Index 1 is the lowest with key 9; no font has key 8. -/
theorem test_meets_SetFontNameSelectsTheLowestMatch :
    let s := { text with fonts := [fontF, { fontF with name := 9 }, { fontF with name := 9 }], fcount := 3, a0 := 9 }
    s.fcount ≤ s.fonts.length ∧ 1 < s.fcount ∧ s.fonts[1]? = some { fontF with name := 9 } ∧
    (∀ (j : Nat) (g : Font), j < 1 → s.fonts[j]? = some g → g.name ≠ s.a0) ∧
    ∀ (j : Nat) (g : Font), j < s.fcount → s.fonts[j]? = some g → g.name ≠ 8 := by
  refine ⟨by decide, by decide, rfl, ?_, ?_⟩
  · intro j g hj hg
    obtain rfl : j = 0 := by omega
    cases hg
    decide
  · intro j g hj hg
    have hj' : j < 3 := hj
    obtain rfl | rfl | rfl : j = 0 ∨ j = 1 ∨ j = 2 := by omega
    all_goals cases hg; decide

theorem test_meets_MeasureCharAnswersTheAdvanceWidth :
    ready.fvalid = false ∧ text.fvalid = true ∧ text.fonts[text.fcur]? = some fontF ∧
    text.Supports 0x7E ∧ (∀ a, text.DescByte fontF 0x7E a → text.backed a = true) ∧
    (0x7E : Half) ≠ 0x20 ∧ text.cfg.firstChar ≤ (0x7E : Half).toNat ∧ (0x7E : Half).toNat ≤ text.cfg.lastChar ∧
    (0x8174 : Word).toNat = (fontF.desc.toNat + 4 * ((0x7E : Half).toNat - text.cfg.firstChar)) % 2 ^ 32 ∧
    (0x21 : Half) ≠ 0x20 ∧ text.cfg.firstChar ≤ (0x21 : Half).toNat ∧ (0x21 : Half).toNat ≤ text.cfg.lastChar ∧
    (0x8000 : Word).toNat = (fontF.desc.toNat + 4 * ((0x21 : Half).toNat - text.cfg.firstChar)) % 2 ^ 32 ∧
    (∀ k, k < 4 → text.backed (0x8174 + BitVec.ofNat 32 k) = true ∧ text.backed (0x8000 + BitVec.ofNat 32 k) = true) ∧
    (0x1F : Half) ≠ 0x20 ∧ (0x1F : Half).toNat < text.cfg.firstChar ∧ (0x7F : Half) ≠ 0x20 ∧
    text.cfg.lastChar < (0x7F : Half).toNat :=
  ⟨rfl, rfl, rfl, by unfold State.Supports; decide, fun a _ => all_backed rfl a, by decide, by decide, by decide,
    by decide, by decide, by decide, by decide, by decide, fun _ _ => ⟨all_backed rfl _, all_backed rfl _⟩, by decide,
    by decide, by decide, by decide⟩

/-- The last byte of the descriptor is the unbacked one. -/
theorem test_meets_MeasureCharFaultsAtTheFirstUnbackedByte :
    let s := { text with cfg := { Config.standard with unbacked := [⟨0x8083, 0x8083⟩] } }
    s.fvalid = true ∧ s.fonts[s.fcur]? = some fontF ∧ (0x41 : Half) ≠ 0x20 ∧ s.cfg.firstChar ≤ (0x41 : Half).toNat ∧ (0x41 : Half).toNat ≤ s.cfg.lastChar ∧
    (0x8080 : Word).toNat = (fontF.desc.toNat + 4 * ((0x41 : Half).toNat - s.cfg.firstChar)) % 2 ^ 32 ∧
    (∀ j, j < 3 → s.backed (0x8080 + BitVec.ofNat 32 j) = true) ∧ s.backed (0x8080 + BitVec.ofNat 32 3) = false := by
  decide

theorem test_meets_MeasureStrAnswersWidthsPlusGaps :
    ready.fvalid = false ∧ text.fvalid = true ∧ text.fonts[text.fcur]? = some fontF ∧
    ∀ a, text.MeasuredByte fontF 0xA000 65535 a → text.backed a = true :=
  ⟨rfl, rfl, rfl, fun a _ => all_backed rfl a⟩

/-- The cells of the glyph of `ch`, set or not. -/
def glyphBox (s : State) (f : Font) (px py ch : Half) : List Coord :=
  (List.range f.height.toNat).flatMap fun r => (List.range (s.glyphWidth f ch).toNat).map fun c =>
    { x := px + BitVec.ofNat 16 c, y := py + BitVec.ofNat 16 r }

/-- The bytes the blit of `ch` may read. -/
def glyphBytes (s : State) (f : Font) (ch : Half) : List Word :=
  ((List.range 4).map fun k => s.descriptorAt f ch + BitVec.ofNat 32 k) ++
  (List.range f.height.toNat).flatMap fun r => (List.range (s.glyphWidth f ch).toNat).map fun c =>
    s.glyphByteAddr f ch r c

theorem mem_glyphBox {s : State} {f : Font} {px py ch : Half} {p : Coord} (h : s.OnGlyph f px py ch p) :
    p ∈ glyphBox s f px py ch := by
  obtain ⟨-, r, c, hr, hc, -, rfl⟩ := h
  simp only [glyphBox, List.mem_flatMap, List.mem_map, List.mem_range]
  exact ⟨r, hr, c, hc, rfl⟩

theorem mem_glyphBytes {s : State} {f : Font} {ch : Half} {a : Word} (h : s.GlyphByte f ch a) :
    a ∈ glyphBytes s f ch := by
  simp only [glyphBytes, List.mem_append, List.mem_flatMap, List.mem_map, List.mem_range]
  obtain ⟨-, k, hk, rfl⟩ | ⟨-, r, c, hr, hc, rfl⟩ := h
  · exact .inl ⟨k, hk, rfl⟩
  · exact .inr ⟨r, hr, c, hc, rfl⟩

/-- The cells of the glyphs of a string. -/
def textBox (s : State) (f : Font) (x0 y0 : Half) (addr : Word) (len : Nat) : List Coord :=
  (List.range len).flatMap fun i => glyphBox s f (s.cursorAt f x0 addr i) y0 (s.charAt addr i)

/-- The bytes that drawing a string may read. -/
def textBytes (s : State) (f : Font) (addr : Word) (len : Nat) : List Word :=
  (List.range len).flatMap fun i => (addr + BitVec.ofNat 32 i) :: glyphBytes s f (s.charAt addr i)

theorem text_apart {s : State} {f : Font} {x0 y0 : Half} {addr : Word} {len : Nat}
    (hl : low s (textBox s f x0 y0 addr len) = true) (hh : high (textBytes s f addr len) = true) :
    s.Apart (s.OnText f x0 y0 addr len) (s.TextByte f addr len) := by
  refine apart_of_low_high ?_ ?_ hl hh
  · rintro p ⟨i, hi, hp⟩
    exact List.mem_flatMap.mpr ⟨i, List.mem_range.mpr hi, mem_glyphBox hp⟩
  · rintro a ⟨i, hi, rfl | ha⟩
    · exact List.mem_flatMap.mpr ⟨i, List.mem_range.mpr hi, List.mem_cons_self⟩
    · exact List.mem_flatMap.mpr ⟨i, List.mem_range.mpr hi, List.mem_cons_of_mem _ (mem_glyphBytes ha)⟩

/-- Vector G-C2's state: 'B' at (3,1). -/
theorem test_meets_DrawCharPaintsTheGlyph :
    let s := { text with a0 := pt 3 1 }
    s.tvalid = true ∧ s.fvalid = true ∧ s.fonts[s.fcur]? = some fontF ∧ AsPoint s.a0 ⟨3, 1⟩ ∧
    Memory.wf s.mem = true ∧ (∀ a, s.GlyphByte fontF 0x42 a → s.backed a = true) ∧
    s.Storable (s.OnGlyph fontF 3 1 0x42) ∧ s.Apart (s.OnGlyph fontF 3 1 0x42) (s.GlyphByte fontF 0x42) :=
  ⟨rfl, rfl, rfl, rfl, by decide, fun a _ => all_backed rfl a, all_storable rfl _,
    apart_of_low_high (fun _ => mem_glyphBox) (fun _ => mem_glyphBytes) (by decide) (by decide)⟩

/-- Vector G-D1's state: "BA" from (2,0). -/
theorem test_meets_DrawStrLPaintsTheText :
    let s := ops (pt 2 0) 0xA030 text
    s.tvalid = true ∧ s.fvalid = true ∧ s.fonts[s.fcur]? = some fontF ∧ AsPoint s.a0 ⟨2, 0⟩ ∧
    Memory.wf s.mem = true ∧ (∀ a, s.TextByte fontF 0xA030 2 a → s.backed a = true) ∧
    s.Storable (s.OnText fontF 2 0 0xA030 2) ∧
    s.Apart (s.OnText fontF 2 0 0xA030 2) (s.TextByte fontF 0xA030 2) :=
  ⟨rfl, rfl, rfl, rfl, by decide, fun a _ => all_backed rfl a, all_storable rfl _, text_apart (by decide) (by decide)⟩

/-- Vector G-D7's state: the start lies left of column 0 and wraps. -/
theorem test_meets_DrawStrCPaintsTheCentredText :
    let s := ops (pt 3 0) 0xA030 { text with guard := true }
    s.tvalid = true ∧ s.fvalid = true ∧ s.fonts[s.fcur]? = some fontF ∧ AsPoint s.a0 ⟨3, 0⟩ ∧
    Memory.wf s.mem = true ∧
    (65532 : Half) = BitVec.ofInt 16 (((3 : Half).toNat : Int) - ((s.measureOf fontF s.a1 2 % 2 ^ 32 / 2 : Nat) : Int)) ∧
    (∀ a, s.TextByte fontF 0xA030 2 a → s.backed a = true) ∧ s.Storable (s.OnText fontF 65532 0 0xA030 2) ∧
    s.Apart (s.OnText fontF 65532 0 0xA030 2) (s.TextByte fontF 0xA030 2) :=
  ⟨rfl, rfl, rfl, rfl, by decide, by decide, fun a _ => all_backed rfl a, all_storable rfl _,
    text_apart (by decide) (by decide)⟩

/-- Vector G-D2's state: "BA" ending left of column 20. -/
theorem test_meets_DrawStrRPaintsTheRightAlignedText :
    let s := ops (pt 20 0) 0xA030 text
    s.tvalid = true ∧ s.fvalid = true ∧ s.fonts[s.fcur]? = some fontF ∧ AsPoint s.a0 ⟨20, 0⟩ ∧
    Memory.wf s.mem = true ∧
    (6 : Half) = BitVec.ofInt 16 (((20 : Half).toNat : Int) - ((s.measureOf fontF s.a1 2 % 2 ^ 32 : Nat) : Int)) ∧
    (∀ a, s.TextByte fontF 0xA030 2 a → s.backed a = true) ∧ s.Storable (s.OnText fontF 6 0 0xA030 2) ∧
    s.Apart (s.OnText fontF 6 0 0xA030 2) (s.TextByte fontF 0xA030 2) :=
  ⟨rfl, rfl, rfl, rfl, by decide, by decide, fun a _ => all_backed rfl a, all_storable rfl _,
    text_apart (by decide) (by decide)⟩

end Sys2Proof.Tests
end

section
/-!
The scope's two standing facts (00_scope.md R4, R9): the parameters are fixed and the event list only grows. What one
step can do is said first, as inversion lemmas of the host's side; each operation is then shown to keep the past.
-/

namespace Sys2Proof.Machine

/-! ### What one step can do -/

/-- A step: idle with nothing queued (60_exceptions.md R187), or the first queued access, taken. -/
theorem step_cases {s t : State} (h : step s = .next t) :
    (s.pending = [] ∧ t = s) ∨ ∃ a rest, s.pending = a :: rest ∧ takeAccess a (s.accept rest) = .next t := by
  unfold step hostStep at h
  split at h
  · next hp => exact .inl ⟨hp, by cases h; rfl⟩
  · next a rest hp => exact .inr ⟨a, rest, hp, h⟩

/-- An access: an answer and nothing else, a write to a register, a store by the host's own path, or the hardware
reset (10_state.md R30, R31, 70_reset_and_hazards.md R190). -/
theorem takeAccess_cases {a : HostAccess} {s t : State} (h : takeAccess a s = .next t) :
    (∃ r, t = s.respond r) ∨
    (∃ offset r v, a = .regWrite offset .word v ∧ regAt offset = some r ∧ regWrite r v s = .next t) ∨
    (∃ addr w v, a = .memWrite addr w v ∧ (accessAddrs addr w).all s.backed = true ∧ t = hostStore addr w v s) ∨
    (a = .hardReset ∧ t = (resetBlock s).respond .none) := by
  cases a with
  | regRead offset w =>
    cases h
    split
    · exact .inl ⟨_, rfl⟩
    · exact .inl ⟨_, rfl⟩
  | regWrite offset w v =>
    unfold takeAccess at h
    dsimp only at h
    split at h
    · next r hr => exact .inr (.inl ⟨offset, r, v, rfl, hr, h⟩)
    · cases h
      exact .inl ⟨_, rfl⟩
  | memRead addr w =>
    cases h
    split
    · exact .inl ⟨_, rfl⟩
    · exact .inl ⟨_, rfl⟩
  | memWrite addr w v =>
    cases h
    split
    · next hb => exact .inr (.inr (.inl ⟨addr, w, v, rfl, hb, rfl⟩))
    · exact .inl ⟨_, rfl⟩
  | hardReset =>
    cases h
    exact .inr (.inr (.inr ⟨rfl, rfl⟩))

/-- A CMD write: dropped while a fault is latched, ILLEGAL_CMD for an illegal word, else the command
(30_encoding.md R61). -/
theorem writeCmd_cases {w : Word} {s t : State} (h : writeCmd w s = .next t) :
    (s.faulted = true ∧ t = s) ∨
    (s.faulted = false ∧ (∃ e, decode w = .error e) ∧ t = illegalCommand w s) ∨
    (s.faulted = false ∧ ∃ i, decode w = .ok i ∧ exec i s = .next t) := by
  unfold writeCmd at h
  split at h
  · next hf => exact .inl ⟨hf, by cases h; rfl⟩
  · next hf =>
    have hf : s.faulted = false := Bool.eq_false_iff.mpr hf
    split at h
    · next e he => exact .inr (.inl ⟨hf, ⟨e, he⟩, by cases h; rfl⟩)
    · next i hi => exact .inr (.inr ⟨hf, i, hi, h⟩)

/-! ### Keeping the past -/

/-- `t` has the parameters of `s`, and its events are those of `s` followed by new ones (00_scope.md R4, R9). -/
structure KeepsPast (s t : State) : Prop where
  cfg : t.cfg = s.cfg
  events : ∃ new, t.events = s.events ++ new

/-- An operation that touches neither the parameters nor the event list. -/
theorem KeepsPast.of_same {s t : State} (hc : t.cfg = s.cfg) (he : t.events = s.events) : KeepsPast s t :=
  ⟨hc, [], by rw [he, List.append_nil]⟩

theorem KeepsPast.refl (s : State) : KeepsPast s s := .of_same rfl rfl

theorem KeepsPast.trans {s t u : State} (h : KeepsPast s t) (k : KeepsPast t u) : KeepsPast s u := by
  obtain ⟨hc, new, he⟩ := h
  obtain ⟨kc, more, ke⟩ := k
  exact ⟨kc.trans hc, new ++ more, by rw [ke, he, List.append_assoc]⟩

theorem KeepsPast.ite {c : Prop} [Decidable c] {s t u : State} (ht : KeepsPast s t) (hu : KeepsPast s u) :
    KeepsPast s (if c then t else u) := by
  split
  · exact ht
  · exact hu

/-! ### The shared operations -/

theorem Draws.keepsPast {s t : State} (h : Draws s t) : KeepsPast s t := by
  rw [h.frame]
  exact .of_same rfl rfl

theorem raiseFault_keepsPast (c : FaultCause) (a w : Word) (s : State) : KeepsPast s (raiseFault c a w s) :=
  .of_same rfl rfl

theorem setResult_keepsPast (v : Word) (rv : Bool) (s : State) : KeepsPast s (s.setResult v rv) := .of_same rfl rfl

theorem clearRegistry_keepsPast (s : State) : KeepsPast s (clearRegistry s) := .of_same rfl rfl

theorem setLayer_keepsPast (l : LayerId) (x : Layer) (s : State) : KeepsPast s (s.setLayer l x) :=
  .of_same (State.setLayer_cfg l x s) (State.setLayer_events l x s)

theorem setScanout_keepsPast (l : LayerId) (a : Word) (s : State) : KeepsPast s (setScanout l a s) :=
  ⟨setScanout_cfg l a s, _, setScanout_events l a s⟩

theorem resetBlock_keepsPast (s : State) : KeepsPast s (resetBlock s) := by
  obtain ⟨-, he, hc, -⟩ := resetBlock_keeps s
  exact .of_same hc he

theorem setHalf_keepsPast (a : Word) (v : Half) (s : State) : KeepsPast s (s.setHalf a v) := .of_same rfl rfl

theorem hostStore_keepsPast (a : Word) (w : AccessWidth) (v : Word) (s : State) : KeepsPast s (hostStore a w v s) := by
  cases w with
  | byte => exact .of_same rfl rfl
  | half => exact setHalf_keepsPast a _ s
  | word => exact (setHalf_keepsPast a _ s).trans (setHalf_keepsPast _ _ _)

/-! ### The commands -/

theorem initLayer_keepsPast (l : LayerId) (s : State) : KeepsPast s (initLayer l s) :=
  (setLayer_keepsPast l _ s).trans (setScanout_keepsPast l _ _)

theorem finishInit_keepsPast (r : PanelAnswer) (s : State) : KeepsPast s (finishInit r s) := by
  cases r with
  | ok =>
    have layers : KeepsPast s (initLayer .layer1 (initLayer .layer0 s)) :=
      (initLayer_keepsPast .layer0 s).trans (initLayer_keepsPast .layer1 _)
    exact layers.trans (.of_same rfl rfl)
  | fail => exact .of_same rfl rfl

theorem requestPanelInit_keepsPast (s : State) : KeepsPast s (requestPanelInit s) := ⟨rfl, _, rfl⟩

theorem leaveReady_keepsPast (s : State) : KeepsPast s (leaveReady s) := .ite ⟨rfl, _, rfl⟩ (.refl s)

theorem selectTarget_keepsPast (l : LayerId) (s : State) : KeepsPast s (selectTarget l s) :=
  .ite (.of_same rfl rfl) (.of_same rfl rfl)

theorem reportBack_keepsPast (l : LayerId) (s : State) : KeepsPast s (reportBack l s) :=
  .ite (setResult_keepsPast _ _ s) (setResult_keepsPast _ _ s)

theorem flipLayer_keepsPast (l : LayerId) (s : State) : KeepsPast s (flipLayer l s) :=
  .ite ((setLayer_keepsPast l _ s).trans (setScanout_keepsPast l _ _)) (.refl s)

theorem addFont_keepsPast (f : Font) (s : State) : KeepsPast s (addFont f s) :=
  .ite (setResult_keepsPast _ _ s) (.of_same rfl rfl)

theorem onLayer_keepsPast {i : Instr} {imm : Half} {run : LayerId → State → State} {s t : State}
    (hrun : ∀ l, KeepsPast s (run l s)) (h : onLayer i imm run s = .next t) : KeepsPast s t := by
  rcases onLayer_cases h with ⟨l, -, rfl⟩ | rfl
  · exact hrun l
  · exact raiseFault_keepsPast _ _ _ s

theorem exec_draws_keepsPast {i : Instr} {s t : State} (hi : isRaster i = true ∨ isText i = true)
    (h : exec i s = .next t) : KeepsPast s t := by
  obtain ⟨u, hu, rfl | ⟨c, x, -, rfl⟩⟩ := exec_draws hi h
  · exact hu.keepsPast
  · exact hu.keepsPast.trans (raiseFault_keepsPast c x _ u)

theorem exec_measures_keepsPast {i : Instr} {s t : State}
    (hi : (∃ ch, i = .measureChar ch) ∨ ∃ len, i = .measureStr len) (h : exec i s = .next t) : KeepsPast s t := by
  obtain ⟨v, b, rfl⟩ | ⟨c, x, -, rfl⟩ := exec_measures hi h
  · exact setResult_keepsPast v b s
  · exact raiseFault_keepsPast c x _ s

/-- Only INIT, DEINIT and FLIP emit events (60_exceptions.md R184), and each appends them. -/
theorem exec_keepsPast {i : Instr} {s t : State} (h : exec i s = .next t) : KeepsPast s t := by
  cases i with
  | nop => cases h; exact .refl s
  | init =>
    cases h
    have initializing : KeepsPast s { s with state := .initializing } := .of_same rfl rfl
    exact .ite (setResult_keepsPast 0 true s)
      ((initializing.trans (requestPanelInit_keepsPast _)).trans (finishInit_keepsPast _ _))
  | deinit =>
    cases h
    exact ((clearRegistry_keepsPast s).trans (leaveReady_keepsPast _)).trans (.of_same rfl rfl)
  | setDrawBuffer imm => exact onLayer_keepsPast (fun l => selectTarget_keepsPast l s) h
  | setDrawColor raw => cases h; exact .of_same rfl rfl
  | setDrawColorArgb => cases h; exact .of_same rfl rfl
  | queryBack imm => exact onLayer_keepsPast (fun l => reportBack_keepsPast l s) h
  | flip imm => exact onLayer_keepsPast (fun l => flipLayer_keepsPast l s) h
  | clear | drawPixel | drawLine | drawRect | drawRectFill => exact exec_draws_keepsPast (.inl rfl) h
  | fontClear => cases h; exact clearRegistry_keepsPast s
  | fontAdd => cases h; exact .ite (raiseFault_keepsPast _ _ _ s) (addFont_keepsPast _ s)
  | setFontIndex idx => cases h; exact .ite (.of_same rfl rfl) (.refl s)
  | setFontName =>
    cases h
    split
    · exact .of_same rfl rfl
    · exact .refl s
  | measureChar ch => exact exec_measures_keepsPast (.inl ⟨ch, rfl⟩) h
  | measureStr len => exact exec_measures_keepsPast (.inr ⟨len, rfl⟩) h
  | drawChar _ | drawStrL _ | drawStrC _ | drawStrR _ => exact exec_draws_keepsPast (.inr rfl) h

/-! ### The host's side -/

theorem writeCmd_keepsPast {w : Word} {s t : State} (h : writeCmd w s = .next t) : KeepsPast s t := by
  rcases writeCmd_cases h with ⟨-, rfl⟩ | ⟨-, -, rfl⟩ | ⟨-, i, -, hx⟩
  · exact .refl _
  · exact raiseFault_keepsPast _ _ _ s
  · exact exec_keepsPast hx

theorem whileUnlocked_keepsPast {s t : State} (h : KeepsPast s t) : KeepsPast s (whileUnlocked s t) := by
  unfold whileUnlocked
  split
  · exact h
  · exact h
  · exact .refl s
  · exact .refl s

theorem regWrite_keepsPast {r : Reg} {v : Word} {s t : State} (h : regWrite r v s = .next t) : KeepsPast s t := by
  cases r with
  | ctrl => cases h; exact .ite (resetBlock_keepsPast s) (.of_same rfl rfl)
  | status => cases h; exact .ite (.of_same rfl rfl) (.refl s)
  | cmd => exact writeCmd_keepsPast h
  | a0 | a1 | a2 | a3 | a4 => cases h; exact .of_same rfl rfl
  | panelW | panelH | l0buf0 | l0buf1 | l1buf0 | l1buf1 =>
    cases h; exact whileUnlocked_keepsPast (.of_same rfl rfl)
  | result | color | target | fontsel | scan0 | scan1 | faultCause | faultAddr | faultCmd => cases h; exact .refl s

theorem takeAccess_keepsPast {a : HostAccess} {s t : State} (h : takeAccess a s = .next t) : KeepsPast s t := by
  rcases takeAccess_cases h with ⟨r, rfl⟩ | ⟨_, r, v, -, -, hw⟩ | ⟨addr, w, v, -, -, rfl⟩ | ⟨-, rfl⟩
  · exact .of_same rfl rfl
  · exact regWrite_keepsPast hw
  · exact hostStore_keepsPast addr w v s
  · exact (resetBlock_keepsPast s).trans (.of_same rfl rfl)

theorem step_keepsPast {s t : State} (h : step s = .next t) : KeepsPast s t := by
  rcases step_cases h with ⟨-, rfl⟩ | ⟨a, rest, -, ha⟩
  · exact .refl _
  · have accepted : KeepsPast s (s.accept rest) := .of_same rfl rfl
    exact accepted.trans (takeAccess_keepsPast ha)

/-- Settles O23: every branch of a step keeps the parameters and appends to the events, the two resets included. -/
theorem stepKeepsParametersAndPastEvents : Obligations.StepKeepsParametersAndPastEvents := by
  intro s t h
  obtain ⟨hcfg, hevents⟩ := step_keepsPast h
  exact ⟨hcfg, hevents⟩

end Sys2Proof.Machine
end

section
/-!
What one command can do to the state, said once: `Effect` names the ways, `exec_effect` is the inversion lemma, and the
frame of every command (10_state.md R14, R16, R27, R28) is read off it.
-/

namespace Sys2Proof.Machine

/-! ### The effect of a command -/

/-- The ways command `i` can change the state. `draws` holds of a command that does nothing as well, and `fault` of one
that drew before its bus fault (60_exceptions.md R175). -/
inductive Effect : Instr → State → State → Prop
  /-- stores through the memory port, or no change at all. -/
  | draws {i : Instr} {s t : State} (h : Draws s t) : Effect i s t
  /-- a fault is latched, after the stores made before it (60_exceptions.md R174, R175). -/
  | fault {i : Instr} {s u : State} {c : FaultCause} (a w : Word) (hc : c ≠ .none) (h : Draws s u) :
      Effect i s (raiseFault c a w u)
  /-- RESULT and RV only (10_state.md R16). -/
  | result {i : Instr} {s : State} (v : Word) (rv : Bool) (hi : writesResult i = true) : Effect i s (s.setResult v rv)
  | color {i : Instr} {s : State} (c : Half) : Effect i s { s with color := c }
  /-- the back buffer of an initialised layer becomes the target (40_layer_and_compositor.md R84). -/
  | target {i : Instr} {s : State} (l : LayerId) (h : (s.layer l).init = true) :
      Effect i s { s with target := (s.layer l).backBuffer, tvalid := true }
  | noTarget {i : Instr} {s : State} : Effect i s { s with target := 0, tvalid := false }
  /-- the markers swap and the new front buffer is programmed (40_layer_and_compositor.md R88). -/
  | flip {imm : Half} {s : State} (l : LayerId) (h : (s.layer l).init = true) :
      Effect (.flip imm) s (setScanout l (s.layer l).backBuffer
        (s.setLayer l { s.layer l with front := (s.layer l).back, back := (s.layer l).front }))
  /-- INIT outside READY, the panel answering fail (40_layer_and_compositor.md R82). -/
  | initFailed {s : State} (h : s.state ≠ .ready) :
      Effect .init s { s with
        state := .failed, result := 1, rv := true
        events := s.events ++ [.panelInit s.panelW s.panelH]
        panelAnswers := s.panelAnswers.tail, panelInits := s.panelInits + 1 }
  /-- INIT outside READY, the panel answering ok (40_layer_and_compositor.md R82). -/
  | initDone {s : State} (h : s.state ≠ .ready) :
      Effect .init s { s with
        state := .ready, result := 0, rv := true
        layer0 := { s.layer0 with init := true, front := .slot0, back := .slot1 }
        layer1 := { s.layer1 with init := true, front := .slot0, back := .slot1 }
        scan0 := s.layer0.buf0, scan1 := s.layer1.buf0
        fcount := 0, fvalid := false, fcur := 0
        events := s.events ++ [.panelInit s.panelW s.panelH] ++ [.setScanout .layer0 s.layer0.buf0] ++
          [.setScanout .layer1 s.layer1.buf0]
        panelAnswers := s.panelAnswers.tail, panelInits := s.panelInits + 1 }
  /-- DEINIT in READY (40_layer_and_compositor.md R83). -/
  | deinitReady {s : State} (h : s.state = .ready) :
      Effect .deinit s { s with
        state := .uninit, result := 0, rv := true, tvalid := false, target := 0
        layer0 := { s.layer0 with init := false }, layer1 := { s.layer1 with init := false }
        fcount := 0, fvalid := false, fcur := 0
        events := s.events ++ [.panelDeinit] }
  /-- DEINIT outside READY (40_layer_and_compositor.md R83). -/
  | deinitIdle {s : State} (h : s.state ≠ .ready) :
      Effect .deinit s { s with
        state := .uninit, result := 0, rv := true, tvalid := false, target := 0
        fcount := 0, fvalid := false, fcur := 0 }
  | noFonts {i : Instr} {s : State} : Effect i s (clearRegistry s)
  /-- FONT_ADD with room in the table (42_glyph_engine.md R141). -/
  | addFont {s : State} (f : Font) (h : s.fcount ≠ s.cfg.maxFonts) :
      Effect .fontAdd s { s with
        fonts := s.fonts.set s.fcount f, fcount := s.fcount + 1, result := BitVec.ofNat 32 s.fcount, rv := true }
  /-- a registered font is selected (42_glyph_engine.md R143, R144). -/
  | selectFont {i : Instr} {s : State} {n : Nat} (h : n < s.fcount) : Effect i s { s with fcur := n, fvalid := true }

theorem Effect.nothing (i : Instr) (s : State) : Effect i s s := .draws (Draws.refl s)

/-! ### Every command has such an effect -/

theorem busCause_ne_none {c : FaultCause} (h : c = .busRead ∨ c = .busWrite) : c ≠ .none := by
  rcases h with rfl | rfl <;> nofun

theorem exec_draws_effect {i : Instr} {s t : State} (hi : isRaster i = true ∨ isText i = true)
    (h : exec i s = .next t) : Effect i s t := by
  obtain ⟨u, hu, rfl | ⟨c, a, hc, rfl⟩⟩ := exec_draws hi h
  · exact .draws hu
  · exact .fault a _ (busCause_ne_none hc) hu

theorem exec_measures_effect {i : Instr} {s t : State}
    (hi : (∃ ch, i = .measureChar ch) ∨ ∃ len, i = .measureStr len) (h : exec i s = .next t) : Effect i s t := by
  have writes : writesResult i = true := by
    rcases hi with ⟨ch, rfl⟩ | ⟨len, rfl⟩ <;> rfl
  obtain ⟨v, b, rfl⟩ | ⟨c, a, hc, rfl⟩ := exec_measures hi h
  · exact .result v b writes
  · exact .fault a _ (busCause_ne_none hc) (Draws.refl s)

theorem onLayer_effect {i : Instr} {imm : Half} {run : LayerId → State → State} {s t : State}
    (hrun : ∀ l, Effect i s (run l s)) (h : onLayer i imm run s = .next t) : Effect i s t := by
  rcases onLayer_cases h with ⟨l, -, rfl⟩ | rfl
  · exact hrun l
  · exact .fault 0 _ nofun (Draws.refl s)

theorem initLayer_layer0 (s : State) :
    initLayer .layer0 s = { s with
      layer0 := { s.layer0 with init := true, front := .slot0, back := .slot1 }
      scan0 := s.layer0.buf0, events := s.events ++ [.setScanout .layer0 s.layer0.buf0] } := rfl

theorem initLayer_layer1 (s : State) :
    initLayer .layer1 s = { s with
      layer1 := { s.layer1 with init := true, front := .slot0, back := .slot1 }
      scan1 := s.layer1.buf0, events := s.events ++ [.setScanout .layer1 s.layer1.buf0] } := rfl

theorem execInit_effect {s t : State} (h : execInit s = .next t) : Effect .init s t := by
  cases h
  split
  · exact .result 0 true rfl
  · next hs =>
    cases s.panelAnswer with
    | ok =>
      rw [finishInit, initLayer_layer0, initLayer_layer1]
      exact .initDone hs
    | fail => exact .initFailed hs

theorem execDeinit_effect {s t : State} (h : execDeinit s = .next t) : Effect .deinit s t := by
  cases h
  by_cases hs : s.state = .ready
  · rw [leaveReady, if_pos (show (clearRegistry s).state = .ready from hs)]
    exact .deinitReady hs
  · rw [leaveReady, if_neg (show (clearRegistry s).state ≠ .ready from hs)]
    exact .deinitIdle hs

theorem selectTarget_effect (i : Instr) (l : LayerId) (s : State) : Effect i s (selectTarget l s) := by
  unfold selectTarget
  split
  · next h => exact .target l h
  · exact .noTarget

theorem reportBack_effect (imm : Half) (l : LayerId) (s : State) : Effect (.queryBack imm) s (reportBack l s) := by
  unfold reportBack
  split
  · exact .result _ _ rfl
  · exact .result _ _ rfl

theorem flipLayer_effect (imm : Half) (l : LayerId) (s : State) : Effect (.flip imm) s (flipLayer l s) := by
  unfold flipLayer
  dsimp only
  split
  · next h => exact .flip l h
  · exact .nothing _ s

theorem addFont_effect (f : Font) (s : State) : Effect .fontAdd s (addFont f s) := by
  unfold Machine.addFont
  split
  · exact .result 0 false rfl
  · next h => exact .addFont f h

theorem execFontAdd_effect {s t : State} (h : execFontAdd s = .next t) : Effect .fontAdd s t := by
  cases h
  split
  · exact .fault 0 _ nofun (Draws.refl s)
  · exact addFont_effect _ s

/-- The font that SET_FONT_NAME finds is a registered one (42_glyph_engine.md R144). -/
theorem findFont_lt {s : State} {key : Word} {n : Nat} (h : findFont s key = some n) : n < s.fcount := by
  obtain ⟨hn, -⟩ := List.findIdx?_eq_some_iff_getElem.mp h
  rw [List.length_take] at hn
  omega

theorem execSetFontIndex_effect {idx : Half} {s t : State} (h : execSetFontIndex idx s = .next t) :
    Effect (.setFontIndex idx) s t := by
  cases h
  split
  · next hn => exact .selectFont hn
  · exact .nothing _ s

theorem execSetFontName_effect {s t : State} (h : execSetFontName s = .next t) : Effect .setFontName s t := by
  cases h
  split
  · next n hn => exact .selectFont (findFont_lt hn)
  · exact .nothing _ s

theorem exec_effect {i : Instr} {s t : State} (h : exec i s = .next t) : Effect i s t := by
  cases i with
  | nop => cases h; exact .nothing _ s
  | init => exact execInit_effect h
  | deinit => exact execDeinit_effect h
  | setDrawBuffer imm => exact onLayer_effect (fun l => selectTarget_effect _ l s) h
  | setDrawColor raw => cases h; exact .color raw
  | setDrawColorArgb => cases h; exact .color _
  | queryBack imm => exact onLayer_effect (fun l => reportBack_effect imm l s) h
  | flip imm => exact onLayer_effect (fun l => flipLayer_effect imm l s) h
  | clear | drawPixel | drawLine | drawRect | drawRectFill => exact exec_draws_effect (.inl rfl) h
  | fontClear => cases h; exact .noFonts
  | fontAdd => exact execFontAdd_effect h
  | setFontIndex idx => exact execSetFontIndex_effect h
  | setFontName => exact execSetFontName_effect h
  | measureChar ch => exact exec_measures_effect (.inl ⟨ch, rfl⟩) h
  | measureStr len => exact exec_measures_effect (.inr ⟨len, rfl⟩) h
  | drawChar _ | drawStrL _ | drawStrC _ | drawStrR _ => exact exec_draws_effect (.inr rfl) h

/-! ### What commands leave unchanged -/

/-- What no command writes: the operand registers, CTRL, the panel size and the frame buffer bases (10_state.md R14,
R17, R20, R21). -/
structure KeepsHostRegisters (s t : State) : Prop where
  operands : t.a0 = s.a0 ∧ t.a1 = s.a1 ∧ t.a2 = s.a2 ∧ t.a3 = s.a3 ∧ t.a4 = s.a4
  guard : t.guard = s.guard
  panel : t.panelW = s.panelW ∧ t.panelH = s.panelH
  bases0 : t.layer0.buf0 = s.layer0.buf0 ∧ t.layer0.buf1 = s.layer0.buf1
  bases1 : t.layer1.buf0 = s.layer1.buf0 ∧ t.layer1.buf1 = s.layer1.buf1

theorem KeepsHostRegisters.refl (s : State) : KeepsHostRegisters s s :=
  ⟨⟨rfl, rfl, rfl, rfl, rfl⟩, rfl, ⟨rfl, rfl⟩, ⟨rfl, rfl⟩, ⟨rfl, rfl⟩⟩

theorem Effect.keepsHostRegisters {i : Instr} {s t : State} (h : Effect i s t) : KeepsHostRegisters s t := by
  have same := KeepsHostRegisters.refl s
  cases h with
  | draws hd => rw [hd.frame]; exact { same with }
  | fault a w hc hd => rw [hd.frame]; exact { same with }
  | flip l hl => cases l <;> exact { same with }
  | result | color | target | noTarget | initFailed | initDone | deinitReady | deinitIdle | noFonts | addFont
  | selectFont => exact { same with }

/-- RESULT and RV as they were (10_state.md R16). -/
theorem Effect.keepsResult {i : Instr} {s t : State} (h : Effect i s t) (hi : writesResult i = false) :
    t.result = s.result ∧ t.rv = s.rv := by
  cases h with
  | draws hd => rw [hd.frame]; exact ⟨rfl, rfl⟩
  | fault a w hc hd => rw [hd.frame]; exact ⟨rfl, rfl⟩
  | result v rv hw => rw [hw] at hi; cases hi
  | initFailed | initDone | deinitReady | deinitIdle | addFont => cases hi
  | flip l hl => cases l <;> exact ⟨rfl, rfl⟩
  | color | target | noTarget | noFonts | selectFont => exact ⟨rfl, rfl⟩

/-- STATE and the initialised layers change only by INIT and DEINIT (10_state.md R27). -/
theorem Effect.keepsMode {i : Instr} {s t : State} (h : Effect i s t) (h1 : i ≠ .init) (h2 : i ≠ .deinit) :
    t.state = s.state ∧ t.layer0.init = s.layer0.init ∧ t.layer1.init = s.layer1.init := by
  cases h with
  | draws hd => rw [hd.frame]; exact ⟨rfl, rfl, rfl⟩
  | fault a w hc hd => rw [hd.frame]; exact ⟨rfl, rfl, rfl⟩
  | initFailed | initDone => exact absurd rfl h1
  | deinitReady | deinitIdle => exact absurd rfl h2
  | flip l hl => cases l <;> exact ⟨rfl, rfl, rfl⟩
  | result | color | target | noTarget | noFonts | addFont | selectFont => exact ⟨rfl, rfl, rfl⟩

/-- The front and back markers and the scanout mirrors change only by INIT and FLIP (10_state.md R22, R28). -/
theorem Effect.keepsMarkers {i : Instr} {s t : State} (h : Effect i s t) (h1 : i ≠ .init) (h2 : ∀ imm, i ≠ .flip imm) :
    t.layer0.front = s.layer0.front ∧ t.layer0.back = s.layer0.back ∧ t.layer1.front = s.layer1.front ∧
      t.layer1.back = s.layer1.back ∧ t.scan0 = s.scan0 ∧ t.scan1 = s.scan1 := by
  cases h with
  | draws hd => rw [hd.frame]; exact ⟨rfl, rfl, rfl, rfl, rfl, rfl⟩
  | fault a w hc hd => rw [hd.frame]; exact ⟨rfl, rfl, rfl, rfl, rfl, rfl⟩
  | flip l hl => exact absurd rfl (h2 _)
  | initFailed | initDone => exact absurd rfl h1
  | result | color | target | noTarget | deinitReady | deinitIdle | noFonts | addFont | selectFont =>
    exact ⟨rfl, rfl, rfl, rfl, rfl, rfl⟩

/-- Settles O24: each effect that sets RESULT belongs to one of the six commands. -/
theorem onlySixCommandsWriteResult : Obligations.OnlySixCommandsWriteResult := by
  intro i s t hi h
  exact (exec_effect h).keepsResult hi

/-- Settles O25: the three frames of a command's effect. -/
theorem modeAndMarkersChangeOnlyWhereStated : Obligations.ModeAndMarkersChangeOnlyWhereStated := by
  intro i s t h
  have effect := exec_effect h
  obtain ⟨-, hguard, ⟨hw, hh⟩, ⟨h00, h01⟩, h10, h11⟩ := effect.keepsHostRegisters
  exact ⟨effect.keepsMode, effect.keepsMarkers, hw, hh, h00, h01, h10, h11, hguard⟩

end Sys2Proof.Machine
end

section
/-!
The host's registers (spec 10_state.md R13 to R26, R30, R35): one rule per kind of step for the queued access it takes,
then the statements about single registers.
-/

namespace Sys2Proof.Machine

/-! ### The rules of a register access -/

theorem step_of_pending {s : State} {a : HostAccess} {rest : List HostAccess} (hp : s.pending = a :: rest) :
    step s = takeAccess a (s.accept rest) := by
  unfold step hostStep
  rw [hp]

theorem regValue_accept (r : Reg) (rest : List HostAccess) (s : State) :
    regValue r (s.accept rest) = regValue r s := by
  cases r <;> rfl

theorem step_regRead {s : State} {offset : BitVec 7} {r : Reg} {rest : List HostAccess}
    (hr : regAt offset = some r) (hp : s.pending = .regRead offset .word :: rest) :
    step s = .next { s with pending := rest, response := .data (regValue r s) } := by
  rw [step_of_pending hp, ← regValue_accept r rest s]
  simp only [takeAccess, hr]
  rfl

theorem step_regWrite {s : State} {offset : BitVec 7} {r : Reg} {v : Word} {rest : List HostAccess}
    (hr : regAt offset = some r) (hp : s.pending = .regWrite offset .word v :: rest) :
    step s = regWrite r v (s.accept rest) := by
  rw [step_of_pending hp]
  simp only [takeAccess, hr]

/-- An access of the register block that it does not accept (10_state.md R30). -/
def Unaccepted (offset : BitVec 7) (width : AccessWidth) : Prop := width ≠ .word ∨ regAt offset = none

theorem Unaccepted.not_accepted {offset : BitVec 7} (h : Unaccepted offset .word) (r : Reg) :
    regAt offset ≠ some r := by
  rcases h with h | h
  · exact absurd rfl h
  · rw [h]
    nofun

theorem step_regRead_unaccepted {s : State} {offset : BitVec 7} {width : AccessWidth} {rest : List HostAccess}
    (hu : Unaccepted offset width) (hp : s.pending = .regRead offset width :: rest) :
    step s = .next { s with pending := rest, response := .error } := by
  rw [step_of_pending hp]
  unfold takeAccess
  dsimp only
  split
  · next r hr => exact absurd hr (hu.not_accepted r)
  · rfl

theorem step_regWrite_unaccepted {s : State} {offset : BitVec 7} {width : AccessWidth} {v : Word}
    {rest : List HostAccess} (hu : Unaccepted offset width) (hp : s.pending = .regWrite offset width v :: rest) :
    step s = .next { s with pending := rest, response := .error } := by
  rw [step_of_pending hp]
  unfold takeAccess
  dsimp only
  split
  · next r hr => exact absurd hr (hu.not_accepted r)
  · rfl

/-- No register lies at a misaligned or a reserved offset (10_state.md R13). -/
theorem regAt_none {offset : BitVec 7} (h : offset.toNat % 4 ≠ 0 ∨
    offset ∈ [0x38#7, 0x3C#7, 0x64#7, 0x68#7, 0x6C#7, 0x70#7, 0x74#7, 0x78#7, 0x7C#7]) : regAt offset = none := by
  revert offset
  decide

/-! ### Reads -/

/-- The register at an offset reads as a value. -/
def State.ReadsAs (s : State) (p : BitVec 7 × Word) : Prop := ∃ r, regAt p.1 = some r ∧ regValue r s = p.2

theorem State.ReadsAs.step {s : State} {offset : BitVec 7} {value : Word} {rest : List HostAccess}
    (h : s.ReadsAs (offset, value)) (hp : s.pending = .regRead offset .word :: rest) :
    step s = .next { s with pending := rest, response := .data value } := by
  obtain ⟨r, hr, hv⟩ := h
  subst hv
  exact step_regRead hr hp

theorem color_readsAs (s : State) : s.ReadsAs (0x24#7, BitVec.ofNat 32 s.color.toNat) :=
  ⟨.color, rfl, (BitVec.ofNat_toNat 32 s.color).symm⟩

theorem panelW_readsAs (s : State) : s.ReadsAs (0x30#7, BitVec.ofNat 32 s.panelW.toNat) :=
  ⟨.panelW, rfl, (BitVec.ofNat_toNat 32 s.panelW).symm⟩

theorem panelH_readsAs (s : State) : s.ReadsAs (0x34#7, BitVec.ofNat 32 s.panelH.toNat) :=
  ⟨.panelH, rfl, (BitVec.ofNat_toNat 32 s.panelH).symm⟩

theorem operands_readAs (s : State) :
    ∀ p ∈ [(0x10#7, s.a0), (0x14#7, s.a1), (0x18#7, s.a2), (0x1C#7, s.a3), (0x20#7, s.a4)], s.ReadsAs p := by
  simp only [List.forall_mem_cons]
  exact ⟨⟨.a0, rfl, rfl⟩, ⟨.a1, rfl, rfl⟩, ⟨.a2, rfl, rfl⟩, ⟨.a3, rfl, rfl⟩, ⟨.a4, rfl, rfl⟩, List.forall_mem_nil _⟩

theorem faultCause_readsAs (s : State) : s.ReadsAs (0x58#7, match s.faultCause with
    | .none => 0#32 | .illegalCmd => 1#32 | .illegalOperand => 2#32 | .busRead => 3#32 | .busWrite => 4#32) := by
  refine ⟨.faultCause, rfl, ?_⟩
  unfold regValue
  cases s.faultCause <;> rfl

/-- Settles O11: each offset of the list is a register that reads as the value beside it. -/
theorem registerReadAnswersItsValueOnly : Obligations.RegisterReadAnswersItsValueOnly := by
  intro s rest offset value hmem hp
  refine State.ReadsAs.step (List.forall_mem_append.mpr ⟨?_, ?_⟩ _ hmem) hp <;> simp only [List.forall_mem_cons]
  · exact ⟨⟨.ctrl, rfl, rfl⟩, ⟨.cmd, rfl, rfl⟩, ⟨.result, rfl, rfl⟩, ⟨.a0, rfl, rfl⟩, ⟨.a1, rfl, rfl⟩,
      ⟨.a2, rfl, rfl⟩, ⟨.a3, rfl, rfl⟩, ⟨.a4, rfl, rfl⟩, color_readsAs s, ⟨.target, rfl, rfl⟩,
      List.forall_mem_nil _⟩
  · exact ⟨panelW_readsAs s, panelH_readsAs s, ⟨.l0buf0, rfl, rfl⟩, ⟨.l0buf1, rfl, rfl⟩, ⟨.l1buf0, rfl, rfl⟩,
      ⟨.l1buf1, rfl, rfl⟩, ⟨.scan0, rfl, rfl⟩, ⟨.scan1, rfl, rfl⟩, faultCause_readsAs s, ⟨.faultAddr, rfl, rfl⟩,
      ⟨.faultCmd, rfl, rfl⟩, List.forall_mem_nil _⟩

/-- Settles O13: such an offset holds no register, and another width is answered with an error at any offset. -/
theorem unacceptedAccessGetsAnErrorOnly : Obligations.UnacceptedAccessGetsAnErrorOnly := by
  intro s rest offset width v h hp
  have refused : Unaccepted offset width := h.imp id regAt_none
  rcases hp with hp | hp
  · exact step_regRead_unaccepted refused hp
  · exact step_regWrite_unaccepted refused hp

/-! ### The bits of STATUS and FONTSEL -/

theorem getLsbD_flagAt {n : Nat} (hn : n < 32) (b : Bool) (i : Nat) :
    (flagAt n b).getLsbD i = (b && decide (i = n)) := by
  cases b with
  | false => simp [flagAt]
  | true =>
    simp only [flagAt, if_true, BitVec.getLsbD_shiftLeft, BitVec.getLsbD_one, Bool.true_and]
    by_cases h : i = n
    · simp [h, hn]
    · simp [h]
      omega

theorem isSlot1_iff (m : Slot) : isSlot1 m = true ↔ m = .slot1 := by
  cases m <;> simp [isSlot1]

/-- STATE below bit 2 and one flag in each of the bits 2 to 10 (10_state.md R18). -/
theorem getLsbD_statusWord (s : State) (i : Nat) :
    (statusWord s).getLsbD i = ((topCode s.state).getLsbD i || (s.layer0.init && decide (i = 2)) ||
      (s.layer1.init && decide (i = 3)) || (isSlot1 s.layer0.front && decide (i = 4)) ||
      (isSlot1 s.layer1.front && decide (i = 5)) || (s.tvalid && decide (i = 6)) || (s.fvalid && decide (i = 7)) ||
      (s.rv && decide (i = 8)) || (s.oob && decide (i = 9)) || (s.faulted && decide (i = 10))) := by
  have code : ((topCode s.state).setWidth 32).getLsbD i = (topCode s.state).getLsbD i := by
    rw [BitVec.getLsbD_setWidth]
    by_cases hi : i < 32
    · simp [hi]
    · simp [hi, BitVec.getLsbD_of_ge (topCode s.state) i (by omega)]
  simp only [statusWord, BitVec.getLsbD_or, code, getLsbD_flagAt, Nat.reduceLT]

theorem topCode_getLsbD_high (m : TopState) (i : Nat) (hi : 2 ≤ i) : (topCode m).getLsbD i = false :=
  BitVec.getLsbD_of_ge _ i hi

/-- Bits 31:11 of STATUS are 0 (10_state.md R18). -/
theorem statusWord_high (s : State) : (statusWord s).extractLsb' 11 21 = 0#21 := by
  apply BitVec.eq_of_getLsbD_eq
  intro i hi
  rw [BitVec.getLsbD_extractLsb', getLsbD_statusWord, topCode_getLsbD_high _ _ (by omega)]
  simp
  omega

theorem statusWord_state (s : State) : (statusWord s).extractLsb' 0 2 = topCode s.state := by
  apply BitVec.eq_of_getLsbD_eq
  intro i hi
  rw [BitVec.getLsbD_extractLsb', getLsbD_statusWord]
  obtain rfl | rfl : i = 0 ∨ i = 1 := by omega
  · simp
  · simp

/-- FCUR while a font is selected below bit 8, FCOUNT from bit 8 on (10_state.md R26). -/
theorem getLsbD_fontselWord (s : State) (i : Nat) :
    (fontselWord s).getLsbD i = (decide (8 ≤ i) && (BitVec.ofNat 8 s.fcount).getLsbD (i - 8) ||
      (if s.fvalid then BitVec.ofNat 8 s.fcur else 0#8).getLsbD i) := by
  have shown : (if s.fvalid then (BitVec.ofNat 8 s.fcur).setWidth 32 else 0#32) =
      (if s.fvalid then BitVec.ofNat 8 s.fcur else 0#8).setWidth 32 := by
    split <;> rfl
  unfold fontselWord
  rw [shown, BitVec.getLsbD_or, BitVec.getLsbD_shiftLeft, BitVec.getLsbD_setWidth, BitVec.getLsbD_setWidth]
  generalize (if s.fvalid then BitVec.ofNat 8 s.fcur else 0#8) = cur
  generalize BitVec.ofNat 8 s.fcount = count
  by_cases hi : i < 32
  · by_cases h8 : i < 8
    · simp [hi, h8]
    · simp [hi, h8, show 8 ≤ i by omega, show i - 8 < 32 by omega]
  · simp [hi, BitVec.getLsbD_of_ge cur i (by omega), BitVec.getLsbD_of_ge count (i - 8) (by omega)]

theorem fontselWord_fcur (s : State) :
    (fontselWord s).extractLsb' 0 8 = if s.fvalid then BitVec.ofNat 8 s.fcur else 0#8 := by
  apply BitVec.eq_of_getLsbD_eq
  intro i hi
  rw [BitVec.getLsbD_extractLsb', getLsbD_fontselWord, Nat.zero_add]
  simp [hi]

theorem fontselWord_fcount (s : State) : (fontselWord s).extractLsb' 8 8 = BitVec.ofNat 8 s.fcount := by
  apply BitVec.eq_of_getLsbD_eq
  intro i hi
  rw [BitVec.getLsbD_extractLsb', getLsbD_fontselWord, BitVec.getLsbD_of_ge _ (8 + i) (by omega)]
  simp [hi]

theorem fontselWord_high (s : State) : (fontselWord s).extractLsb' 16 16 = 0#16 := by
  apply BitVec.eq_of_getLsbD_eq
  intro i hi
  rw [BitVec.getLsbD_extractLsb', getLsbD_fontselWord, BitVec.getLsbD_of_ge _ (16 + i) (by omega),
    BitVec.getLsbD_of_ge _ (16 + i - 8) (by omega)]
  simp

/-- Settles O12: STATUS and FONTSEL read as the words above, whose bits are known. -/
theorem statusAndFontselShowTheirBits : Obligations.StatusAndFontselShowTheirBits := by
  intro s rest
  refine ⟨fun hp => ⟨statusWord s, step_regRead (r := .status) rfl hp, ?_, ?_, ?_, ?_, ?_, ?_, ?_, ?_, ?_, ?_,
    statusWord_high s⟩, fun hp => ⟨fontselWord s, step_regRead (r := .fontsel) rfl hp, fontselWord_fcur s,
    fontselWord_fcount s, fontselWord_high s⟩⟩
  · rw [statusWord_state]
    cases s.state <;> rfl
  all_goals
    rw [getLsbD_statusWord, topCode_getLsbD_high _ _ (by omega)]
    simp [isSlot1_iff]

/-! ### Writes -/

/-- A write to a register that only reads leaves all state (10_state.md R30). -/
theorem step_regWrite_ignored {s : State} {offset : BitVec 7} {r : Reg} {v : Word} {rest : List HostAccess}
    (hr : regAt offset = some r) (hw : ∀ u, regWrite r v u = .next u)
    (hp : s.pending = .regWrite offset .word v :: rest) :
    step s = .next { s with pending := rest, response := .done } := by
  rw [step_regWrite hr hp, hw]
  rfl

/-- Settles O14: nine registers whose write is ignored, the OOB bit of STATUS and the GUARD bit of CTRL. -/
theorem readOnlyFieldsIgnoreWrites : Obligations.ReadOnlyFieldsIgnoreWrites := by
  intro s rest v
  refine ⟨?_, fun hp => ?_, fun hp hv => ?_⟩
  · simp only [List.forall_mem_cons]
    exact ⟨step_regWrite_ignored (r := .result) rfl fun _ => rfl, step_regWrite_ignored (r := .color) rfl fun _ => rfl,
      step_regWrite_ignored (r := .target) rfl fun _ => rfl, step_regWrite_ignored (r := .fontsel) rfl fun _ => rfl,
      step_regWrite_ignored (r := .scan0) rfl fun _ => rfl, step_regWrite_ignored (r := .scan1) rfl fun _ => rfl,
      step_regWrite_ignored (r := .faultCause) rfl fun _ => rfl,
      step_regWrite_ignored (r := .faultAddr) rfl fun _ => rfl,
      step_regWrite_ignored (r := .faultCmd) rfl fun _ => rfl, List.forall_mem_nil _⟩
  · rw [step_regWrite (r := .status) rfl hp, regWrite, writeStatus, clearsOob]
    split <;> rfl
  · rw [step_regWrite (r := .ctrl) rfl hp, regWrite, writeCtrl, softResets, hv]
    rfl

/-- Settles O15: the five writes and reads, and the frame every command keeps. -/
theorem onlyTheHostWritesOperandRegisters : Obligations.OnlyTheHostWritesOperandRegisters := by
  refine ⟨fun s rest v => ⟨step_regWrite (r := .a0) rfl, step_regWrite (r := .a1) rfl, step_regWrite (r := .a2) rfl,
    step_regWrite (r := .a3) rfl, step_regWrite (r := .a4) rfl⟩, fun i s t h => ?_, ⟨rfl, rfl, rfl, rfl, rfl⟩,
    fun s rest offset value hmem hp => (operands_readAs s _ hmem).step hp⟩
  exact (exec_effect h).keepsHostRegisters.operands

/-! ### Writes that STATE locks -/

theorem whileUnlocked_open {s : State} (h : s.state = .uninit ∨ s.state = .failed) (t : State) :
    whileUnlocked s t = t := by
  unfold whileUnlocked
  rcases h with h | h <;> rw [h]

theorem whileUnlocked_ready {s : State} (h : s.state = .ready) (t : State) : whileUnlocked s t = s := by
  unfold whileUnlocked
  rw [h]

/-- A write of `v` at an offset does `f` while STATE is UNINIT or FAILED and nothing otherwise (10_state.md R20, R21). -/
def LockedWrite (offset : BitVec 7) (v : Word) (f : State → State) : Prop :=
  ∃ r, regAt offset = some r ∧ ∀ u, regWrite r v u = .next (whileUnlocked u (f u))

theorem LockedWrite.step_open {offset : BitVec 7} {v : Word} {f : State → State} {s : State} {rest : List HostAccess}
    (h : LockedWrite offset v f) (hs : s.state = .uninit ∨ s.state = .failed)
    (hp : s.pending = .regWrite offset .word v :: rest) : step s = .next (f (s.accept rest)) := by
  obtain ⟨r, hr, hf⟩ := h
  rw [step_regWrite hr hp, hf, whileUnlocked_open (s := s.accept rest) hs]

theorem LockedWrite.step_ready {offset : BitVec 7} {v : Word} {f : State → State} {s : State} {rest : List HostAccess}
    (h : LockedWrite offset v f) (hs : s.state = .ready) (hp : s.pending = .regWrite offset .word v :: rest) :
    step s = .next { s with pending := rest, response := .done } := by
  obtain ⟨r, hr, hf⟩ := h
  rw [step_regWrite hr hp, hf, whileUnlocked_ready (s := s.accept rest) hs]
  rfl

theorem lowHalf_eq (v : Word) : lowHalf v = BitVec.ofNat 16 v.toNat := by
  apply BitVec.eq_of_toNat_eq
  simp [lowHalf]

theorem panelW_locked (v : Word) :
    LockedWrite 0x30#7 v fun u => { u with panelW := BitVec.ofNat 16 v.toNat } :=
  ⟨.panelW, rfl, fun u => by rw [regWrite, lowHalf_eq]⟩

theorem panelH_locked (v : Word) :
    LockedWrite 0x34#7 v fun u => { u with panelH := BitVec.ofNat 16 v.toNat } :=
  ⟨.panelH, rfl, fun u => by rw [regWrite, lowHalf_eq]⟩

/-- Settles O16: both registers are locked writes of the low half. -/
theorem panelSizeIsLockedWhileReady : Obligations.PanelSizeIsLockedWhileReady := by
  refine ⟨rfl, rfl, fun s rest v => ⟨fun hs => ⟨(panelW_locked v).step_open hs, (panelH_locked v).step_open hs⟩,
    fun hs => ?_, (panelW_readsAs s).step, (panelH_readsAs s).step⟩⟩
  simp only [List.forall_mem_cons]
  exact ⟨(panelW_locked v).step_ready hs, (panelH_locked v).step_ready hs, List.forall_mem_nil _⟩

/-- The mask of a base keeps every bit but bit 0 (10_state.md R21). -/
theorem getLsbD_evenBase (v : Word) (i : Nat) : (evenBase v).getLsbD i = (v.getLsbD i && decide (1 ≤ i)) := by
  have mask : ∀ j : Fin 32, (0xFFFFFFFE#32).getLsbD j = decide (1 ≤ j.val) := by decide
  rw [evenBase, BitVec.getLsbD_and]
  by_cases hi : i < 32
  · rw [mask ⟨i, hi⟩]
  · simp [BitVec.getLsbD_of_ge v i (by omega)]

theorem evenBase_bit0 (v : Word) : (evenBase v).getLsbD 0 = false := by
  rw [getLsbD_evenBase, decide_eq_false (by omega), Bool.and_false]

theorem toNat_evenBase (v : Word) : (evenBase v).toNat = v.toNat - v.toNat % 2 := by
  have shifted : evenBase v = v >>> 1 <<< 1 := by
    apply BitVec.eq_of_getLsbD_eq
    intro i hi
    rw [getLsbD_evenBase, BitVec.getLsbD_shiftLeft, BitVec.getLsbD_ushiftRight]
    cases i with
    | zero => simp
    | succ i => simp [hi, Nat.add_comm]
  have hv := v.isLt
  rw [shifted, BitVec.toNat_shiftLeft, BitVec.toNat_ushiftRight, Nat.shiftLeft_eq, Nat.shiftRight_eq_div_pow]
  omega

/-- Settles O17: the four bases are locked writes of the even base. -/
theorem frameBufferBasesAreEvenAndLocked : Obligations.FrameBufferBasesAreEvenAndLocked := by
  refine ⟨⟨rfl, rfl, rfl, rfl⟩, fun s rest v => ?_⟩
  have base00 : LockedWrite 0x40#7 v fun u => { u with layer0 := { u.layer0 with buf0 := evenBase v } } :=
    ⟨.l0buf0, rfl, fun _ => rfl⟩
  have base01 : LockedWrite 0x44#7 v fun u => { u with layer0 := { u.layer0 with buf1 := evenBase v } } :=
    ⟨.l0buf1, rfl, fun _ => rfl⟩
  have base10 : LockedWrite 0x48#7 v fun u => { u with layer1 := { u.layer1 with buf0 := evenBase v } } :=
    ⟨.l1buf0, rfl, fun _ => rfl⟩
  have base11 : LockedWrite 0x4C#7 v fun u => { u with layer1 := { u.layer1 with buf1 := evenBase v } } :=
    ⟨.l1buf1, rfl, fun _ => rfl⟩
  refine ⟨fun hs => ⟨evenBase v, toNat_evenBase v, base00.step_open hs, base01.step_open hs, base10.step_open hs,
    base11.step_open hs⟩, fun hs => ?_⟩
  simp only [List.forall_mem_cons]
  exact ⟨base00.step_ready hs, base01.step_ready hs, base10.step_ready hs, base11.step_ready hs, List.forall_mem_nil _⟩

/-! ### Reset -/

/-- A step that takes a reset: the reset input, or a write of SRST to CTRL (10_state.md R17, 70_reset_and_hazards.md
R190, R191). -/
theorem step_reset {s : State} {rest : List HostAccess}
    (hp : s.pending = .hardReset :: rest ∨
      ∃ v : Word, v.getLsbD 31 = true ∧ s.pending = .regWrite 0x00 .word v :: rest) :
    ∃ r, step s = .next ((resetBlock (s.accept rest)).respond r) := by
  rcases hp with hp | ⟨v, hv, hp⟩
  · exact ⟨.none, step_of_pending hp⟩
  · refine ⟨.done, ?_⟩
    rw [step_regWrite (r := .ctrl) rfl hp, regWrite, writeCtrl, softResets, hv]
    rfl

/-- Settles O10: both resets are `resetBlock`, whose fields are the table's. -/
theorem resetLeavesTheTablesValues : Obligations.ResetLeavesTheTablesValues := by
  intro s rest hp
  obtain ⟨r, ht⟩ := step_reset hp
  have table : (resetBlock (s.accept rest)).fonts = List.replicate s.cfg.maxFonts Font.blank := rfl
  refine ⟨_, ht, rfl, rfl, rfl, rfl, rfl, rfl, rfl, rfl, rfl, rfl, rfl, rfl, ?_, ?_, rfl, rfl, rfl, rfl, rfl, rfl, rfl,
    rfl, rfl, rfl, rfl, rfl, rfl, rfl, rfl, rfl, rfl, rfl⟩
  · rw [State.respond_fonts, table, List.length_replicate]
  · rw [State.respond_fonts, table]
    exact fun f hf => List.eq_of_mem_replicate hf

end Sys2Proof.Machine
end

section
/-!
The host's own path to memory (10_state.md R31, 20_memory.md R41): a store of any width is a row of byte stores, a load
the row of bytes, so one argument serves the three widths.
-/

namespace Sys2Proof.Machine

/-! ### Rows of bytes -/

/-- How many bytes an access of this width covers. -/
def AccessWidth.bytes : AccessWidth → Nat
  | .byte => 1
  | .half => 2
  | .word => 4

/-- The low `n` bytes of `v` stored from `a` on, the lowest first. -/
def State.storeBytes (a v : Word) : Nat → State → State
  | 0, s => s
  | n + 1, s => (s.storeBytes a v n).setByte (a + BitVec.ofNat 32 n) (v.extractLsb' (8 * n) 8)

theorem State.storeBytes_wf {a v : Word} {s : State} (h : Memory.wf s.mem = true) (n : Nat) :
    Memory.wf (s.storeBytes a v n).mem = true := by
  induction n with
  | zero => exact h
  | succ n ih => exact State.setByte_wf ih

theorem State.storeBytes_frame (a v : Word) (s : State) (n : Nat) :
    s.storeBytes a v n = { s with mem := (s.storeBytes a v n).mem } := by
  induction n with
  | zero => rfl
  | succ n ih => rw [State.storeBytes, ih]; rfl

theorem State.byteAt_storeBytes_other {a v x : Word} {s : State} (h : Memory.wf s.mem = true) {n : Nat}
    (hx : ∀ k, k < n → x ≠ a + BitVec.ofNat 32 k) : (s.storeBytes a v n).byteAt x = s.byteAt x := by
  induction n with
  | zero => rfl
  | succ n ih =>
    rw [State.storeBytes, State.byteAt_setByte (State.storeBytes_wf h n), if_neg (hx n (Nat.lt_succ_self n))]
    exact ih fun k hk => hx k (Nat.lt_succ_of_lt hk)

theorem word_add_ofNat_ne (a : Word) {m n : Nat} (hm : m < 2 ^ 32) (hn : n < 2 ^ 32) (h : m ≠ n) :
    a + BitVec.ofNat 32 m ≠ a + BitVec.ofNat 32 n := by
  rw [Ne, BitVec.add_right_inj]
  intro he
  have := congrArg BitVec.toNat he
  rw [BitVec.toNat_ofNat, BitVec.toNat_ofNat, Nat.mod_eq_of_lt hm, Nat.mod_eq_of_lt hn] at this
  exact h this

theorem State.byteAt_storeBytes {a v : Word} {s : State} (h : Memory.wf s.mem = true) {n k : Nat} (hn : n < 2 ^ 32)
    (hk : k < n) : (s.storeBytes a v n).byteAt (a + BitVec.ofNat 32 k) = v.extractLsb' (8 * k) 8 := by
  induction n with
  | zero => omega
  | succ n ih =>
    rw [State.storeBytes, State.byteAt_setByte (State.storeBytes_wf h n)]
    by_cases hkn : k = n
    · rw [hkn, if_pos rfl]
    · rw [if_neg (word_add_ofNat_ne a (by omega) (by omega) hkn)]
      exact ih (by omega) (by omega)

/-! ### The host's accesses are rows of bytes -/

theorem accessAddrs_eq (a : Word) (w : AccessWidth) :
    accessAddrs a w = (List.range w.bytes).map fun k => a + BitVec.ofNat 32 k := by
  cases w <;> simp [accessAddrs, AccessWidth.bytes, List.range_succ]

theorem all_backed_iff (a : Word) (w : AccessWidth) (s : State) :
    (accessAddrs a w).all s.backed = true ↔ ∀ k, k < w.bytes → s.backed (a + BitVec.ofNat 32 k) = true := by
  rw [accessAddrs_eq, List.all_map, List.all_eq_true]
  simp only [List.mem_range, Function.comp_apply]

theorem extractLsb'_extractLsb' {n i m j k : Nat} (v : BitVec n) (h : j + k ≤ m) :
    (v.extractLsb' i m).extractLsb' j k = v.extractLsb' (i + j) k := by
  apply BitVec.eq_of_getLsbD_eq
  intro b hb
  simp [hb, show j + b < m by omega, Nat.add_assoc]

/-- A 16-bit store is the store of two bytes of the word its value was cut from. -/
theorem setHalf_extract (a v : Word) (s : State) (i : Nat) : s.setHalf a (v.extractLsb' i 16) =
    (s.setByte a (v.extractLsb' i 8)).setByte (a + 1) (v.extractLsb' (i + 8) 8) := by
  rw [State.setHalf, lowByte, highByte, extractLsb'_extractLsb' v (by omega), extractLsb'_extractLsb' v (by omega)]
  rfl

theorem hostStore_eq (a : Word) (w : AccessWidth) (v : Word) (s : State) :
    hostStore a w v s = s.storeBytes a v w.bytes := by
  cases w with
  | byte => simp [hostStore, AccessWidth.bytes, State.storeBytes]
  | half => simp [hostStore, AccessWidth.bytes, State.storeBytes, lowHalf, setHalf_extract]
  | word =>
    simp [hostStore, AccessWidth.bytes, State.storeBytes, lowHalf, highHalf, setHalf_extract, BitVec.add_assoc]

theorem halfAt_byte (a : Word) (s : State) {k : Nat} (hk : k < 2) :
    (s.halfAt a).extractLsb' (8 * k) 8 = s.byteAt (a + BitVec.ofNat 32 k) := by
  rw [State.halfAt, joinBytes]
  obtain rfl | rfl : k = 0 ∨ k = 1 := by omega
  · rw [BitVec.extractLsb'_append_eq_of_add_le (by omega), BitVec.extractLsb'_eq_self, BitVec.add_zero]
  · rw [BitVec.extractLsb'_append_eq_of_le (by omega)]
    exact BitVec.extractLsb'_eq_self

theorem hostLoad_byte (a : Word) (w : AccessWidth) (s : State) {k : Nat} (hk : k < w.bytes) :
    (hostLoad a w s).extractLsb' (8 * k) 8 = s.byteAt (a + BitVec.ofNat 32 k) := by
  cases w with
  | byte =>
    obtain rfl : k = 0 := Nat.lt_one_iff.mp hk
    rw [hostLoad, BitVec.extractLsb'_setWidth_of_le (by omega), BitVec.extractLsb'_eq_self, BitVec.add_zero]
  | half =>
    have hk : k < 2 := hk
    rw [hostLoad, BitVec.extractLsb'_setWidth_of_le (by omega), halfAt_byte a s hk]
  | word =>
    have hk : k < 4 := hk
    rw [hostLoad]
    by_cases hlow : k < 2
    · rw [BitVec.extractLsb'_append_eq_of_add_le (by omega), halfAt_byte a s hlow]
    · rw [BitVec.extractLsb'_append_eq_of_le (by omega), show 8 * k - 16 = 8 * (k - 2) by omega,
        halfAt_byte _ s (by omega), show a + 2 = a + BitVec.ofNat 32 2 from rfl, word_add_ofNat,
        show 2 + (k - 2) = k by omega]

theorem hostLoad_lt (a : Word) (w : AccessWidth) (s : State) : (hostLoad a w s).toNat < 2 ^ (8 * w.bytes) := by
  cases w with
  | byte =>
    rw [hostLoad, BitVec.toNat_setWidth]
    exact Nat.lt_of_le_of_lt (Nat.mod_le _ _) (s.byteAt a).isLt
  | half =>
    rw [hostLoad, BitVec.toNat_setWidth]
    exact Nat.lt_of_le_of_lt (Nat.mod_le _ _) (s.halfAt a).isLt
  | word => exact (hostLoad a .word s).isLt

/-! ### The rules of a memory access -/

/-- Every byte of the access is backed (20_memory.md R42, R43). -/
def State.Backs (s : State) (a : Word) (w : AccessWidth) : Prop :=
  ∀ k, k < w.bytes → s.backed (a + BitVec.ofNat 32 k) = true

theorem step_memWrite {s : State} {a v : Word} {w : AccessWidth} {rest : List HostAccess} (hb : s.Backs a w)
    (hp : s.pending = .memWrite a w v :: rest) :
    step s = .next ((s.accept rest).storeBytes a v w.bytes) := by
  rw [step_of_pending hp, takeAccess, if_pos ((all_backed_iff a w (s.accept rest)).mpr hb), hostStore_eq]

theorem hostLoad_accept (a : Word) (w : AccessWidth) (rest : List HostAccess) (s : State) :
    hostLoad a w (s.accept rest) = hostLoad a w s := by
  cases w <;> rfl

theorem step_memRead {s : State} {a : Word} {w : AccessWidth} {rest : List HostAccess} (hb : s.Backs a w)
    (hp : s.pending = .memRead a w :: rest) :
    step s = .next { s with pending := rest, response := .data (hostLoad a w s) } := by
  rw [step_of_pending hp, takeAccess, if_pos ((all_backed_iff a w (s.accept rest)).mpr hb), hostLoad_accept]
  rfl

theorem step_mem_unbacked {s : State} {a v : Word} {w : AccessWidth} {rest : List HostAccess} (hb : ¬ s.Backs a w)
    (hp : s.pending = .memWrite a w v :: rest ∨ s.pending = .memRead a w :: rest) :
    step s = .next { s with pending := rest, response := .error } := by
  have refused : ¬ (accessAddrs a w).all (s.accept rest).backed = true :=
    fun h => hb ((all_backed_iff a w (s.accept rest)).mp h)
  rcases hp with hp | hp
  · rw [step_of_pending hp, takeAccess, if_neg refused]
    rfl
  · rw [step_of_pending hp, takeAccess, if_neg refused]
    rfl

theorem bytes_of_mem {w : AccessWidth} {n : Nat} (h : (w, n) ∈ [(AccessWidth.byte, 1), (.half, 2), (.word, 4)]) :
    n = w.bytes := by
  simp only [List.mem_cons, Prod.mk.injEq, List.not_mem_nil, or_false] at h
  obtain ⟨rfl, rfl⟩ | ⟨rfl, rfl⟩ | ⟨rfl, rfl⟩ := h <;> rfl

/-- Settles O18: the three widths at once, as rows of bytes. -/
theorem hostMemoryAccessIsLittleEndian : Obligations.HostMemoryAccessIsLittleEndian := by
  intro s rest a v w n hwf hn
  obtain rfl := bytes_of_mem hn
  refine ⟨fun hb => ⟨fun hp => ?_, fun hp => ?_⟩, fun ⟨k, hk, hu⟩ hp => ?_⟩
  · have bytes_lt : w.bytes < 2 ^ 32 := by cases w <;> decide
    exact ⟨_, step_memWrite hb hp, State.storeBytes_frame a v (s.accept rest) w.bytes,
      fun k hk => State.byteAt_storeBytes (s := s.accept rest) hwf bytes_lt hk,
      fun x hx => State.byteAt_storeBytes_other (s := s.accept rest) hwf hx⟩
  · exact ⟨_, step_memRead hb hp, fun k hk => hostLoad_byte a w s hk, hostLoad_lt a w s⟩
  · refine step_mem_unbacked (fun hb => ?_) hp
    rw [hb k hk] at hu
    cases hu

end Sys2Proof.Machine
end

section
/-!
The invariants of the state (10_state.md R33, R22, R25, R26, R29, and the canonical form of memory): each holds after
reset, and each of the few ways a step can change the state keeps it.
-/

namespace Sys2Proof.Machine

/-! ### What a step can do -/

/-- The ways a step can change the state once the access has left the queue. -/
inductive HostEffect : State → State → Prop
  | answer {s : State} (r : BusResponse) : HostEffect s (s.respond r)
  | flags {s : State} (guard oob : Bool) : HostEffect s { s with guard := guard, oob := oob }
  | operands {s : State} (a0 a1 a2 a3 a4 : Word) :
      HostEffect s { s with a0 := a0, a1 := a1, a2 := a2, a3 := a3, a4 := a4 }
  | panel {s : State} (w h : Half) (hs : s.state = .uninit ∨ s.state = .failed) :
      HostEffect s { s with panelW := w, panelH := h }
  | bases {s : State} (l : LayerId) (b0 b1 : Word) (hs : s.state = .uninit ∨ s.state = .failed)
      (h0 : b0 = (s.layer l).buf0 ∨ b0.getLsbD 0 = false) (h1 : b1 = (s.layer l).buf1 ∨ b1.getLsbD 0 = false) :
      HostEffect s (s.setLayer l { s.layer l with buf0 := b0, buf1 := b1 })
  | memory {s : State} (a v : Word) (n : Nat) : HostEffect s (s.storeBytes a v n)
  | illegal {s : State} (w : Word) : HostEffect s (illegalCommand w s)
  | command {i : Instr} {s t : State} (h : Effect i s t) : HostEffect s t
  | reset {s : State} (r : BusResponse) : HostEffect s ((resetBlock s).respond r)

theorem HostEffect.nothing (s : State) : HostEffect s s := .answer s.response

theorem whileUnlocked_effect {s t : State} (h : s.state = .uninit ∨ s.state = .failed → HostEffect s t) :
    HostEffect s (whileUnlocked s t) := by
  unfold whileUnlocked
  split
  · next hs => exact h (.inl hs)
  · next hs => exact h (.inr hs)
  · exact .nothing s
  · exact .nothing s

theorem writeCtrl_effect (v : Word) (s : State) : HostEffect s (writeCtrl v s) := by
  unfold writeCtrl
  split
  · exact .reset s.response
  · exact .flags (guardBit v) s.oob

theorem writeStatus_effect (v : Word) (s : State) : HostEffect s (writeStatus v s) := by
  unfold writeStatus
  split
  · exact .flags s.guard false
  · exact .nothing s

theorem writeCmd_effect {w : Word} {s t : State} (h : writeCmd w s = .next t) : HostEffect s t := by
  rcases writeCmd_cases h with ⟨-, rfl⟩ | ⟨-, -, rfl⟩ | ⟨-, i, -, hx⟩
  · exact .nothing _
  · exact .illegal w
  · exact .command (exec_effect hx)

/-- A write to slot 0's base of layer `l` (10_state.md R21). -/
theorem HostEffect.base0 (l : LayerId) (v : Word) {s : State} (hs : s.state = .uninit ∨ s.state = .failed) :
    HostEffect s (s.setLayer l { s.layer l with buf0 := evenBase v }) :=
  .bases l (evenBase v) (s.layer l).buf1 hs (.inr (evenBase_bit0 v)) (.inl rfl)

/-- A write to slot 1's base of layer `l` (10_state.md R21). -/
theorem HostEffect.base1 (l : LayerId) (v : Word) {s : State} (hs : s.state = .uninit ∨ s.state = .failed) :
    HostEffect s (s.setLayer l { s.layer l with buf1 := evenBase v }) :=
  .bases l (s.layer l).buf0 (evenBase v) hs (.inl rfl) (.inr (evenBase_bit0 v))

theorem regWrite_effect {r : Reg} {v : Word} {s t : State} (h : regWrite r v s = .next t) : HostEffect s t := by
  cases r with
  | ctrl => cases h; exact writeCtrl_effect v s
  | status => cases h; exact writeStatus_effect v s
  | cmd => exact writeCmd_effect h
  | a0 => cases h; exact .operands v s.a1 s.a2 s.a3 s.a4
  | a1 => cases h; exact .operands s.a0 v s.a2 s.a3 s.a4
  | a2 => cases h; exact .operands s.a0 s.a1 v s.a3 s.a4
  | a3 => cases h; exact .operands s.a0 s.a1 s.a2 v s.a4
  | a4 => cases h; exact .operands s.a0 s.a1 s.a2 s.a3 v
  | panelW => cases h; exact whileUnlocked_effect (.panel (lowHalf v) s.panelH)
  | panelH => cases h; exact whileUnlocked_effect (.panel s.panelW (lowHalf v))
  | l0buf0 => cases h; exact whileUnlocked_effect (.base0 .layer0 v)
  | l0buf1 => cases h; exact whileUnlocked_effect (.base1 .layer0 v)
  | l1buf0 => cases h; exact whileUnlocked_effect (.base0 .layer1 v)
  | l1buf1 => cases h; exact whileUnlocked_effect (.base1 .layer1 v)
  | result | color | target | fontsel | scan0 | scan1 | faultCause | faultAddr | faultCmd => cases h; exact .nothing s

theorem takeAccess_effect {a : HostAccess} {s t : State} (h : takeAccess a s = .next t) : HostEffect s t := by
  rcases takeAccess_cases h with ⟨r, rfl⟩ | ⟨_, r, v, -, -, hw⟩ | ⟨a, w, v, -, -, rfl⟩ | ⟨-, rfl⟩
  · exact .answer r
  · exact regWrite_effect hw
  · rw [hostStore_eq]
    exact .memory a v w.bytes
  · exact .reset .none

/-- An invariant that neither the queue nor any effect breaks is kept by every step. -/
theorem step_keeps {P : State → Prop} (haccept : ∀ s rest, P s → P (s.accept rest))
    (heffect : ∀ {s t}, P s → HostEffect s t → P t) (s t : State) (hs : P s) (h : step s = .next t) : P t := by
  rcases step_cases h with ⟨-, rfl⟩ | ⟨a, rest, -, ha⟩
  · exact hs
  · exact heffect (haccept s rest hs) (takeAccess_effect ha)

/-- STATE in which the panel size and the bases may be written is not READY. -/
theorem ne_ready_of_unlocked {s : State} (h : s.state = .uninit ∨ s.state = .failed) : s.state ≠ .ready := by
  rcases h with h | h <;> rw [h] <;> nofun

/-! ### The invariants of R33 -/

theorem State.resetWith_inv (cfg : Config) : (State.resetWith cfg).Inv where
  markers0 := nofun
  markers1 := nofun
  init0 := ⟨nofun, nofun⟩
  init1 := ⟨nofun, nofun⟩
  settled := nofun
  selected := nofun
  capacity := Nat.zero_le _
  targeted := nofun
  evenTarget := BitVec.getLsbD_zero
  evenScan := ⟨BitVec.getLsbD_zero, BitVec.getLsbD_zero⟩
  evenBases0 := ⟨BitVec.getLsbD_zero, BitVec.getLsbD_zero⟩
  evenBases1 := ⟨BitVec.getLsbD_zero, BitVec.getLsbD_zero⟩
  uncaused := fun _ => rfl

theorem resetBlock_inv (s : State) (r : BusResponse) : ((resetBlock s).respond r).Inv :=
  { State.resetWith_inv s.cfg with }

theorem State.Inv.draws {s t : State} (h : s.Inv) (hd : Draws s t) : t.Inv := by
  rw [hd.frame]
  exact { h with }

theorem State.Inv.fault {s : State} (h : s.Inv) (c : FaultCause) (a w : Word) : (raiseFault c a w s).Inv :=
  { h with uncaused := nofun }

/-- R33 (b): a layer is initialised exactly in READY. -/
theorem State.Inv.ready_of_init {s : State} (h : s.Inv) {l : LayerId} (hl : (s.layer l).init = true) :
    s.state = .ready := by
  cases l with
  | layer0 => exact h.init0.mp hl
  | layer1 => exact h.init1.mp hl

/-- R33 (f): outside READY no target is selected. -/
theorem State.Inv.no_target {s : State} (h : s.Inv) (hs : s.state ≠ .ready) : ¬ s.tvalid = true :=
  fun ht => hs (h.targeted ht).1

theorem State.Inv.init_false {s : State} (h : s.Inv) (hs : s.state ≠ .ready) :
    s.layer0.init = false ∧ s.layer1.init = false :=
  ⟨Bool.eq_false_iff.mpr fun hi => hs (h.init0.mp hi), Bool.eq_false_iff.mpr fun hi => hs (h.init1.mp hi)⟩

theorem State.Inv.backBuffer {s : State} (h : s.Inv) (l : LayerId) :
    (s.layer l).backBuffer ∈ [s.layer0.buf0, s.layer0.buf1, s.layer1.buf0, s.layer1.buf1] ∧
      (s.layer l).backBuffer.getLsbD 0 = false := by
  obtain ⟨e00, e01⟩ := h.evenBases0
  obtain ⟨e10, e11⟩ := h.evenBases1
  unfold Layer.backBuffer
  cases l with
  | layer0 =>
    cases (s.layer .layer0).back with
    | slot0 => exact ⟨by simp [Layer.buf], e00⟩
    | slot1 => exact ⟨by simp [Layer.buf], e01⟩
  | layer1 =>
    cases (s.layer .layer1).back with
    | slot0 => exact ⟨by simp [Layer.buf], e10⟩
    | slot1 => exact ⟨by simp [Layer.buf], e11⟩

theorem State.Inv.effect {i : Instr} {s t : State} (h : s.Inv) (he : Effect i s t) : t.Inv := by
  cases he with
  | draws hd => exact h.draws hd
  | fault a w hc hd => exact (h.draws hd).fault _ a w
  | result | color => exact { h with }
  | target l hl =>
    obtain ⟨member, even⟩ := h.backBuffer l
    exact { h with targeted := fun _ => ⟨h.ready_of_init hl, member⟩, evenTarget := even }
  | noTarget => exact { h with targeted := nofun, evenTarget := BitVec.getLsbD_zero }
  | flip l hl =>
    have even := (h.backBuffer l).2
    cases l with
    | layer0 => exact { h with markers0 := h.markers0.symm, evenScan := ⟨even, h.evenScan.2⟩ }
    | layer1 => exact { h with markers1 := h.markers1.symm, evenScan := ⟨h.evenScan.1, even⟩ }
  | initFailed hs =>
    obtain ⟨off0, off1⟩ := h.init_false hs
    exact { h with
      init0 := by simp [off0], init1 := by simp [off1], settled := nofun
      targeted := fun ht => absurd ht (h.no_target hs) }
  | initDone hs =>
    exact { h with
      markers0 := nofun, markers1 := nofun
      init0 := ⟨fun _ => rfl, fun _ => rfl⟩, init1 := ⟨fun _ => rfl, fun _ => rfl⟩, settled := nofun
      selected := nofun, capacity := Nat.zero_le _
      targeted := fun ht => absurd ht (h.no_target hs)
      evenScan := ⟨h.evenBases0.1, h.evenBases1.1⟩ }
  | deinitReady hs =>
    exact { h with
      init0 := ⟨nofun, nofun⟩, init1 := ⟨nofun, nofun⟩, settled := nofun
      selected := nofun, capacity := Nat.zero_le _, targeted := nofun, evenTarget := BitVec.getLsbD_zero }
  | deinitIdle hs =>
    obtain ⟨off0, off1⟩ := h.init_false hs
    exact { h with
      init0 := by simp [off0], init1 := by simp [off1], settled := nofun
      selected := nofun, capacity := Nat.zero_le _, targeted := nofun, evenTarget := BitVec.getLsbD_zero }
  | noFonts => exact { h with selected := nofun, capacity := Nat.zero_le _ }
  | addFont f hf =>
    exact { h with
      selected := fun hv => Nat.lt_succ_of_lt (h.selected hv)
      capacity := Nat.lt_of_le_of_ne h.capacity hf }
  | selectFont hn => exact { h with selected := fun _ => hn }

theorem State.Inv.hostEffect {s t : State} (h : s.Inv) (he : HostEffect s t) : t.Inv := by
  cases he with
  | answer | flags | operands | panel => exact { h with }
  | bases l b0 b1 hs h0 h1 =>
    have untargeted := h.no_target (ne_ready_of_unlocked hs)
    cases l with
    | layer0 =>
      exact { h with
        targeted := fun ht => absurd ht untargeted
        evenBases0 := ⟨h0.elim (· ▸ h.evenBases0.1) id, h1.elim (· ▸ h.evenBases0.2) id⟩ }
    | layer1 =>
      exact { h with
        targeted := fun ht => absurd ht untargeted
        evenBases1 := ⟨h0.elim (· ▸ h.evenBases1.1) id, h1.elim (· ▸ h.evenBases1.2) id⟩ }
  | memory a v n => rw [State.storeBytes_frame]; exact { h with }
  | illegal w => exact h.fault .illegalCmd 0 w
  | command hx => exact h.effect hx
  | reset r => exact resetBlock_inv s r

/-- Settles O19. -/
theorem resetMeetsTheStateInvariants : Obligations.ResetMeetsTheStateInvariants :=
  State.resetWith_inv Config.standard

/-- Settles O20: the invariants are inductive as they stand, over the effects of a step. -/
theorem stepKeepsTheStateInvariants : Obligations.StepKeepsTheStateInvariants :=
  step_keeps (fun _ _ h => { h with }) State.Inv.hostEffect

/-! ### The canonical form of memory -/

theorem wf_effect {i : Instr} {s t : State} (h : Memory.wf s.mem = true) (he : Effect i s t) :
    Memory.wf t.mem = true := by
  cases he with
  | draws hd => exact hd.wf h
  | fault a w hc hd => exact hd.wf h
  | flip l hl => simpa using h
  | result | color | target | noTarget | initFailed | initDone | deinitReady | deinitIdle | noFonts | addFont
  | selectFont => exact h

theorem wf_hostEffect {s t : State} (h : Memory.wf s.mem = true) (he : HostEffect s t) : Memory.wf t.mem = true := by
  cases he with
  | bases l b0 b1 hs h0 h1 => simpa using h
  | memory a v n => exact State.storeBytes_wf h n
  | command hx => exact wf_effect h hx
  | answer | flags | operands | panel | illegal | reset => exact h

/-- Settles O22: all stores, the engine's and the host's, go through `Memory.write`. -/
theorem stepKeepsMemoryCanonical : Obligations.StepKeepsMemoryCanonical :=
  ⟨rfl, step_keeps (P := fun s => Memory.wf s.mem = true) (fun _ _ h => h) wf_hostEffect⟩

/-! ### The registry and the target -/

theorem State.resetWith_coherent (cfg : Config) : (State.resetWith cfg).Coherent where
  table := List.length_replicate
  noFont := fun _ => rfl
  noTarget := fun _ => rfl

theorem State.Coherent.effect {i : Instr} {s t : State} (h : s.Coherent) (he : Effect i s t) : t.Coherent := by
  cases he with
  | draws hd => rw [hd.frame]; exact { h with }
  | fault a w hc hd => rw [hd.frame]; exact { h with }
  | result | color | initFailed => exact { h with }
  | target l hl => exact { h with noTarget := nofun }
  | noTarget => exact { h with noTarget := fun _ => rfl }
  | flip l hl => cases l <;> exact { h with }
  | deinitReady | deinitIdle => exact { h with noFont := fun _ => rfl, noTarget := fun _ => rfl }
  | initDone | noFonts => exact { h with noFont := fun _ => rfl }
  | addFont f hf => exact { h with table := List.length_set.trans h.table }
  | selectFont hn => exact { h with noFont := nofun }

theorem State.Coherent.hostEffect {s t : State} (h : s.Coherent) (he : HostEffect s t) : t.Coherent := by
  cases he with
  | bases l b0 b1 hs h0 h1 => cases l <;> exact { h with }
  | memory a v n => rw [State.storeBytes_frame]; exact { h with }
  | command hx => exact h.effect hx
  | reset r => exact { State.resetWith_coherent s.cfg with }
  | answer | flags | operands | panel | illegal => exact { h with }

/-! ### The scanout mirrors -/

theorem lastScanout_setScanout_same (l : LayerId) (a : Word) (es : List PanelEvent) :
    lastScanout l (es ++ [.setScanout l a]) = some a := by
  simp [lastScanout]

theorem lastScanout_setScanout_other {k l : LayerId} (h : k ≠ l) (a : Word) (es : List PanelEvent) :
    lastScanout l (es ++ [.setScanout k a]) = lastScanout l es := by
  simp [lastScanout, h]

/-- `State.Mirrors` for one layer `x`, number `l`, whose mirror SCAN_l holds `scan`. -/
def Mirrored (l : LayerId) (x : Layer) (m : TopState) (scan : Word) (events : List PanelEvent) : Prop :=
  x.init = true → m = .ready ∧ scan = x.frontBuffer ∧ lastScanout l events = some scan

theorem State.mirrors_iff (s : State) : s.Mirrors ↔
    Mirrored .layer0 s.layer0 s.state s.scan0 s.events ∧ Mirrored .layer1 s.layer1 s.state s.scan1 s.events :=
  ⟨fun h => ⟨h .layer0, h .layer1⟩, fun ⟨h0, h1⟩ l => match l with
    | .layer0 => h0
    | .layer1 => h1⟩

/-- A scanout programmed for the other layer. -/
theorem Mirrored.append_other {k l : LayerId} {x : Layer} {m : TopState} {scan : Word} {events : List PanelEvent}
    (h : Mirrored l x m scan events) (hk : k ≠ l) (a : Word) :
    Mirrored l x m scan (events ++ [.setScanout k a]) := by
  intro hi
  rw [lastScanout_setScanout_other hk]
  exact h hi

/-- The scanout of layer `l` programmed with its front buffer. -/
theorem Mirrored.append_front (l : LayerId) {x : Layer} {a : Word} (events : List PanelEvent)
    (ha : a = x.frontBuffer) : Mirrored l x .ready a (events ++ [.setScanout l a]) :=
  fun _ => ⟨rfl, ha, lastScanout_setScanout_same l a events⟩

theorem State.mirrors_of_init_false {s : State} (h0 : s.layer0.init = false) (h1 : s.layer1.init = false) :
    s.Mirrors := by
  intro l hl
  cases l with
  | layer0 => rw [State.layer_layer0, h0] at hl; cases hl
  | layer1 => rw [State.layer_layer1, h1] at hl; cases hl

theorem State.Mirrors.init_false {s : State} (h : s.Mirrors) (hs : s.state ≠ .ready) :
    s.layer0.init = false ∧ s.layer1.init = false :=
  ⟨Bool.eq_false_iff.mpr fun hi => hs (h .layer0 hi).1, Bool.eq_false_iff.mpr fun hi => hs (h .layer1 hi).1⟩

/-- A flip programs the new front buffer, which is the old back buffer, and leaves the other layer alone
(40_layer_and_compositor.md R88). -/
theorem State.Mirrors.flip {s : State} (h : s.Mirrors) {l : LayerId} (hl : (s.layer l).init = true) :
    (setScanout l (s.layer l).backBuffer
      (s.setLayer l { s.layer l with front := (s.layer l).back, back := (s.layer l).front })).Mirrors := by
  obtain ⟨h0, h1⟩ := s.mirrors_iff.mp h
  have ready := (h l hl).1
  rw [State.mirrors_iff, setScanout_state, State.setLayer_state]
  cases l with
  | layer0 =>
    refine ⟨?_, h1.append_other (by decide) _⟩
    rw [ready]
    exact .append_front .layer0 s.events rfl
  | layer1 =>
    refine ⟨h0.append_other (by decide) _, ?_⟩
    rw [ready]
    exact .append_front .layer1 s.events rfl

theorem State.Mirrors.effect {i : Instr} {s t : State} (h : s.Mirrors) (he : Effect i s t) : t.Mirrors := by
  cases he with
  | draws hd => rw [hd.frame]; exact h
  | fault a w hc hd => rw [hd.frame]; exact h
  | flip l hl => exact h.flip hl
  | initDone hs =>
    exact (State.mirrors_iff _).mpr
      ⟨.append_other (.append_front .layer0 _ (by rfl)) (by decide) _, .append_front .layer1 _ (by rfl)⟩
  | deinitReady hs => exact State.mirrors_of_init_false rfl rfl
  | initFailed hs | deinitIdle hs =>
    obtain ⟨off0, off1⟩ := h.init_false hs
    exact State.mirrors_of_init_false off0 off1
  | result | color | target | noTarget | noFonts | addFont | selectFont => exact h

theorem State.Mirrors.hostEffect {s t : State} (h : s.Mirrors) (he : HostEffect s t) : t.Mirrors := by
  cases he with
  | command hx => exact h.effect hx
  | reset r => exact State.mirrors_of_init_false rfl rfl
  | bases l b0 b1 hs h0 h1 =>
    obtain ⟨off0, off1⟩ := h.init_false (ne_ready_of_unlocked hs)
    cases l <;> exact State.mirrors_of_init_false off0 off1
  | memory a v n => rw [State.storeBytes_frame]; exact h
  | answer | flags | operands | panel | illegal => exact h

/-- Settles O21: neither part needs the other, nor R33. -/
theorem stepKeepsRegistryAndTargetCoherent : Obligations.StepKeepsRegistryAndTargetCoherent :=
  ⟨⟨State.resetWith_coherent _, step_keeps (fun _ _ h => { h with }) State.Coherent.hostEffect⟩,
    State.mirrors_of_init_false rfl rfl, step_keeps (fun _ _ h => h) State.Mirrors.hostEffect⟩

end Sys2Proof.Machine
end

section
/-!
The memory port and the addressing unit (20_memory.md R42, R43, R51, R52), and what they confine every command to.
-/

namespace Sys2Proof.Machine

/-! ### The memory port -/

theorem memRead_trap {a : Word} {s : State} (h : s.backed a = false) : memRead a s = .trap .busRead a s := by
  rw [memRead_eq, h]
  rfl

theorem memWrite_go {a : Word} {s : State} (h : s.backed a = true) (h1 : s.backed (a + 1) = true) (v : Half) :
    memWrite a v s = .go () (s.setHalf a v) := by
  rw [memWrite_eq, h, h1]
  rfl

theorem memWrite_trap {a : Word} {s : State} (h : s.backed a = false ∨ s.backed (a + 1) = false) (v : Half) :
    memWrite a v s = .trap .busWrite a s := by
  rw [memWrite_eq]
  rcases h with h | h
  · rw [h]
    rfl
  · rw [h, Bool.and_false]
    rfl

/-- Settles O28: a store that goes through is `setHalf`, whose bytes `State.byteAt_setHalf` gives. -/
theorem memoryPortReadsBytesAndStoresPixels : Obligations.MemoryPortReadsBytesAndStoresPixels := by
  intro a v s
  refine ⟨memRead_go, memRead_trap, fun hw h h1 => ⟨_, memWrite_go h h1 v, rfl, ?_, ?_, fun x hx hx1 => ?_⟩,
    fun h => memWrite_trap h v⟩
  · rw [State.byteAt_setHalf hw, if_pos rfl, lowByte]
  · rw [State.byteAt_setHalf hw, if_neg (word_ne_succ a).symm, if_pos rfl, highByte]
  · rw [State.byteAt_setHalf hw, if_neg hx, if_neg hx1]

/-! ### The addressing unit -/

theorem State.inRange_iff (s : State) (p : Coord) :
    s.inRange p = true ↔ p.x.toNat < s.panelW.toNat ∧ p.y.toNat < s.panelH.toNat := by
  simp [State.inRange]

/-- The pixel index needs 32 bits at most, also out of range (20_memory.md R48). -/
theorem State.pixelIndex_lt_word (s : State) (p : Coord) : s.pixelIndex p < 2 ^ 32 := by
  have hx := p.x.isLt
  have hyw : p.y.toNat * s.panelW.toNat ≤ (2 ^ 16 - 1) * (2 ^ 16 - 1) :=
    Nat.mul_le_mul (Nat.le_sub_one_of_lt p.y.isLt) (Nat.le_sub_one_of_lt s.panelW.isLt)
  unfold State.pixelIndex
  omega

/-- The index of an in-range pixel is one of the frame buffer's (20_memory.md R51). -/
theorem State.pixelIndex_lt {s : State} {p : Coord} (h : s.inRange p = true) :
    s.pixelIndex p < s.panelW.toNat * s.panelH.toNat := by
  obtain ⟨hx, hy⟩ := (s.inRange_iff p).mp h
  calc p.x.toNat + p.y.toNat * s.panelW.toNat
      < (p.y.toNat + 1) * s.panelW.toNat := by rw [Nat.add_mul]; omega
    _ ≤ s.panelH.toNat * s.panelW.toNat := Nat.mul_le_mul_right _ hy
    _ = s.panelW.toNat * s.panelH.toNat := Nat.mul_comm _ _

theorem State.pixelAddr_eq (s : State) (p : Coord) :
    s.pixelAddr p = BitVec.ofNat 32 (s.target.toNat + 2 * (p.x.toNat + p.y.toNat * s.panelW.toNat)) := by
  rw [BitVec.ofNat_add, BitVec.ofNat_toNat, BitVec.setWidth_eq]
  rfl

theorem pixelWrite_dropped {p : Coord} {s : State} (hg : s.guard = true) (hr : s.inRange p = false) :
    pixelWrite p s = .go () { s with oob := true } := by
  simp [pixelWrite, hg, hr]

theorem pixelWrite_admitted {p : Coord} {s : State} (h : s.Admits p) :
    pixelWrite p s = memWrite (s.pixelAddr p) s.color s := by
  rcases h with h | h <;> simp [pixelWrite, h]

/-- Settles O29. -/
theorem pixelWriteFollowsTheAddressingRule : Obligations.PixelWriteFollowsTheAddressingRule := by
  intro p s
  refine ⟨s.pixelIndex_lt_word p, fun ⟨hg, hout⟩ => pixelWrite_dropped hg ?_, fun h => ?_⟩
  · rw [Bool.eq_false_iff, ne_eq, s.inRange_iff]
    omega
  · rw [← s.pixelAddr_eq]
    exact pixelWrite_admitted (h.imp_right (s.inRange_iff p).mpr)

/-- Settles O30. -/
theorem inRangePixelLandsInTheFrameBuffer : Obligations.InRangePixelLandsInTheFrameBuffer := by
  intro p s hx hy
  have hidx := State.pixelIndex_lt ((s.inRange_iff p).mpr ⟨hx, hy⟩)
  exact ⟨Nat.le_sub_one_of_lt hidx, s.pixelIndex p, hidx, rfl⟩

/-! ### What a command leaves of memory -/

/-- With GUARD on, what the addressing unit admits lies in the frame buffer (20_memory.md R51, R52). -/
theorem State.Admits.in_buffer {s : State} {p : Coord} (hg : s.guard = true) (h : s.Admits p) :
    ∃ idx, idx < s.panelW.toNat * s.panelH.toNat ∧ s.pixelAddr p = s.indexAddr idx := by
  rcases h with h | h
  · rw [hg] at h
    cases h
  · exact ⟨s.pixelIndex p, State.pixelIndex_lt h, rfl⟩

/-- A command changes no byte but those of pixels that the addressing unit admits, faulting or not. -/
theorem Effect.kept {i : Instr} {s t : State} (h : Effect i s t) (hw : Memory.wf s.mem = true) (a : Word)
    (ha : ∀ p, s.Admits p → a ≠ s.pixelAddr p ∧ a ≠ s.pixelAddr p + 1) : t.byteAt a = s.byteAt a := by
  cases h with
  | draws h => exact h.kept hw a ha
  | fault x w hc h => exact h.kept hw a ha
  | flip l => simp only [State.byteAt, setScanout_mem, State.setLayer_mem]
  | result | color | target | noTarget | initFailed | initDone | deinitReady | deinitIdle | noFonts | addFont
  | selectFont => rfl

/-- Settles O31: with GUARD on, only pixels of the frame buffer are admitted. -/
theorem guardConfinesEveryCommand : Obligations.GuardConfinesEveryCommand := by
  intro i s t hw hg h a ha
  refine (exec_effect h).kept hw a fun p hp => ?_
  obtain ⟨idx, hidx, he⟩ := hp.in_buffer hg
  rw [he]
  exact ha idx hidx

@[simp] theorem Flow.final_go {α : Type} (a : α) (s : State) : (Flow.go a s).final = s := rfl

@[simp] theorem Flow.final_trap {α : Type} (c : FaultCause) (x : Word) (s : State) :
    (Flow.trap c x s : Flow α).final = s := rfl

theorem pixelWrite_kept {p : Coord} {s : State} (hw : Memory.wf s.mem = true) {a : Word}
    (ha : a ≠ s.pixelAddr p ∧ a ≠ s.pixelAddr p + 1) : (pixelWrite p s).final.byteAt a = s.byteAt a := by
  rcases pixelWrite_cases p s with ⟨-, -, h⟩ | ⟨-, -, -, h⟩ | ⟨-, -, h⟩ <;> rw [h]
  · rfl
  · rw [Flow.final_go, State.byteAt_setHalf hw, if_neg ha.1, if_neg ha.2]
  · rfl

/-- Storing a list of pixels changes no byte but theirs, however far it gets. -/
theorem storePixels_kept {ps : List Coord} {s : State} (hw : Memory.wf s.mem = true) {a : Word}
    (ha : ∀ p ∈ ps, a ≠ s.pixelAddr p ∧ a ≠ s.pixelAddr p + 1) : (storePixels ps s).final.byteAt a = s.byteAt a := by
  induction ps generalizing s with
  | nil => rfl
  | cons p ps ih =>
    obtain ⟨hp, hps⟩ := List.forall_mem_cons.mp ha
    have hkept := pixelWrite_kept hw hp
    have hdraws := (pixelWrite_port p s).draws
    rw [storePixels_cons]
    cases hpw : pixelWrite p s with
    | trap c x u => rwa [hpw] at hkept
    | go _ u =>
      rw [hpw, Flow.final_go] at hkept hdraws
      obtain ⟨-, -, -, -, haddr, -, -⟩ := hdraws.same
      rw [Flow.bind_go, ih (hdraws.wf hw) fun q hq => by rw [haddr]; exact hps q hq, hkept]

/-- The pixels that CLEAR stores are in range (41_rasterizer.md R104). -/
theorem State.inRange_of_mem_bufferInOrder {s : State} {p : Coord} (h : p ∈ s.bufferInOrder) : s.inRange p = true := by
  obtain ⟨i, hi, rfl⟩ := List.mem_map.mp h
  have hi := List.mem_range.mp hi
  have hW : 0 < s.panelW.toNat := Nat.pos_of_ne_zero fun h0 => by simp [h0] at hi
  have hx : i % s.panelW.toNat < s.panelW.toNat := Nat.mod_lt _ hW
  have hy : i / s.panelW.toNat < s.panelH.toNat := Nat.div_lt_of_lt_mul hi
  rw [s.inRange_iff, pixelAt, BitVec.toNat_ofNat, BitVec.toNat_ofNat, Nat.mod_eq_of_lt (hx.trans s.panelW.isLt),
    Nat.mod_eq_of_lt (hy.trans s.panelH.isLt)]
  exact ⟨hx, hy⟩

theorem exec_clear_kept {s t : State} (hw : Memory.wf s.mem = true) (h : exec .clear s = .next t) {a : Word}
    (ha : ∀ k, k < s.panelW.toNat * s.panelH.toNat → a ≠ s.indexAddr k ∧ a ≠ s.indexAddr k + 1) :
    t.byteAt a = s.byteAt a := by
  have hkept := storePixels_kept (ps := s.bufferInOrder) hw fun p hp =>
    ha _ (State.pixelIndex_lt (State.inRange_of_mem_bufferInOrder hp))
  simp only [exec, execClear, withTarget, clearPixels_stores] at h
  split at h
  · rcases Flow.finish_cases h with hf | ⟨c, x, u, hf, rfl⟩ <;> rwa [hf] at hkept
  · cases h
    rfl

/-- Settles O27: `Draws` is the frame of the stores, `raiseFault` writes the fault registers only. -/
theorem drawingCommandsFrame : Obligations.DrawingCommandsFrame := by
  intro i s t hi h
  obtain ⟨u, hu, rfl | ⟨c, x, hc, rfl⟩⟩ := exec_draws hi h
  · refine ⟨?_, hu.oob, .inl ?_, hu.kept, fun hi hw _ => exec_clear_kept hw (hi ▸ h)⟩ <;> rw [hu.frame]
    exact ⟨rfl, rfl, rfl, rfl⟩
  · refine ⟨?_, hu.oob, .inr ⟨rfl, hc, rfl⟩, hu.kept, fun hi hw _ => exec_clear_kept hw (hi ▸ h)⟩
    rw [hu.frame]
    rfl

end Sys2Proof.Machine
end

section
/-!
The pixel lists of the rasterizer commands are those of the rules, in the rules' order (41_rasterizer.md R106 to R113).
-/

namespace Sys2Proof.Machine

/-! ### The walk of ALine in closed form -/

/-- `n` unit steps of `stepY` from `y`, mod 2^16. -/
def alongBy (up : Bool) (y : Half) (n : Nat) : Half :=
  if up then y + BitVec.ofNat 16 n else y - BitVec.ofNat 16 n

theorem alongBy_zero (up : Bool) (y : Half) : alongBy up y 0 = y := by
  cases up <;> simp [alongBy]

theorem alongBy_stepY (up : Bool) (y : Half) (n : Nat) : alongBy up (stepY up y) n = alongBy up y (n + 1) := by
  cases up
  · simp only [alongBy, stepY, Bool.false_eq_true, if_false, BitVec.ofNat_add]
    bv_omega
  · simp only [alongBy, stepY, if_true, BitVec.ofNat_add]
    bv_omega

theorem word16_succ (x : Half) (j : Nat) : x + 1 + BitVec.ofNat 16 j = x + BitVec.ofNat 16 (j + 1) := by
  rw [BitVec.ofNat_add]
  bv_omega

/-- The numerator passes the denominator: the minor axis has moved once (R109). -/
theorem minor_div_carry {den add num : Nat} (hden : 0 < den) (h : den ≤ num + add) (j : Nat) :
    ((j + 1) * add + num) / den = (j * add + (num + add - den)) / den + 1 := by
  rw [← Nat.add_div_right _ hden]
  congr 1
  rw [Nat.add_mul]
  omega

theorem minor_div_stay (den add num j : Nat) : ((j + 1) * add + num) / den = (j * add + (num + add)) / den := by
  congr 1
  rw [Nat.add_mul]
  omega

/-- A walk in closed form, for either major axis: after `j` steps the minor axis has moved `(j * add + num) / den` times.
`pos p j k` is the point reached from `p` by `j` steps of which `k` are diagonal. -/
theorem walk_eq {den add : Nat} {w : Nat → Nat → Coord → List Coord} {diagonal straight : Coord → Coord}
    {pos : Coord → Nat → Nat → Coord} (hzero : ∀ num p, w 0 num p = [])
    (hsucc : ∀ n num p, w (n + 1) num p =
      p :: if den ≤ num + add then w n (num + add - den) (diagonal p) else w n (num + add) (straight p))
    (hstart : ∀ p, pos p 0 0 = p) (hdiagonal : ∀ p j k, pos (diagonal p) j k = pos p (j + 1) (k + 1))
    (hstraight : ∀ p j k, pos (straight p) j k = pos p (j + 1) k) (hadd : add ≤ den) (n : Nat) {num : Nat}
    (hnum : num < den) (p : Coord) : w n num p = (List.range n).map fun j => pos p j ((j * add + num) / den) := by
  induction n generalizing num p with
  | zero => exact hzero num p
  | succ n ih =>
    rw [hsucc, List.range_succ_eq_map, List.map_cons, List.map_map, Nat.zero_mul, Nat.zero_add,
      Nat.div_eq_of_lt hnum, hstart]
    congr 1
    split
    · next hcarry =>
      rw [ih (by omega)]
      refine List.map_congr_left fun j _ => ?_
      rw [Function.comp_apply, Nat.succ_eq_add_one, minor_div_carry (by omega) hcarry, hdiagonal]
    · rw [ih (by omega)]
      refine List.map_congr_left fun j _ => ?_
      rw [Function.comp_apply, Nat.succ_eq_add_one, minor_div_stay, hstraight]

theorem walkX_eq {den add : Nat} (up : Bool) (hadd : add ≤ den) (n : Nat) {num : Nat} (hnum : num < den) (x y : Half) :
    walkX den add up n num x y = (List.range n).map fun j =>
      { x := x + BitVec.ofNat 16 j, y := alongBy up y ((j * add + num) / den) } :=
  walk_eq (w := fun n num p => walkX den add up n num p.x p.y)
    (pos := fun p j k => { x := p.x + BitVec.ofNat 16 j, y := alongBy up p.y k })
    (diagonal := fun p => { x := p.x + 1, y := stepY up p.y }) (straight := fun p => { x := p.x + 1, y := p.y })
    (fun _ _ => rfl) (fun _ _ _ => rfl) (fun _ => by rw [BitVec.add_zero, alongBy_zero])
    (fun _ _ _ => by rw [word16_succ, alongBy_stepY]) (fun _ _ _ => by rw [word16_succ]) hadd n hnum { x := x, y := y }

theorem walkY_eq {den add : Nat} (up : Bool) (hadd : add ≤ den) (n : Nat) {num : Nat} (hnum : num < den) (x y : Half) :
    walkY den add up n num x y = (List.range n).map fun j =>
      { x := x + BitVec.ofNat 16 ((j * add + num) / den), y := alongBy up y j } :=
  walk_eq (w := fun n num p => walkY den add up n num p.x p.y)
    (pos := fun p j k => { x := p.x + BitVec.ofNat 16 k, y := alongBy up p.y j })
    (diagonal := fun p => { x := p.x + 1, y := stepY up p.y }) (straight := fun p => { x := p.x, y := stepY up p.y })
    (fun _ _ => rfl) (fun _ _ _ => rfl) (fun _ => by rw [BitVec.add_zero, alongBy_zero])
    (fun _ _ _ => by rw [word16_succ, alongBy_stepY]) (fun _ _ _ => by rw [alongBy_stepY]) hadd n hnum { x := x, y := y }

/-! ### Lines in the rule's order -/

/-- The points of the line from `s`, which comes first, to `e` (R110). -/
def pointsInOrder (s e : Coord) : List Coord :=
  (List.range (max (lineDx s e) (lineDy s e) + 1)).map (linePoint s e)

theorem lineInOrder_eq (a b : Coord) : lineInOrder a b = pointsInOrder (orderEnds a b).1 (orderEnds a b).2 := by
  unfold lineInOrder orderEnds pointsInOrder
  dsimp only
  split <;> rfl

/-- The ends in their order: as given or exchanged, the smaller `x` first and, of equal ones, the smaller `y` (R109). -/
theorem orderEnds_cases (a b : Coord) :
    (orderEnds a b = (a, b) ∨ orderEnds a b = (b, a)) ∧
      (orderEnds a b).1.x.toNat ≤ (orderEnds a b).2.x.toNat ∧
      (a.x = b.x → (orderEnds a b).1.y.toNat ≤ (orderEnds a b).2.y.toNat) := by
  unfold orderEnds
  split
  · next h =>
    refine ⟨.inl rfl, ?_, fun hx => ?_⟩
    · rcases h with h | ⟨h, -⟩
      · exact Nat.le_of_lt h
      · rw [h]
    · rcases h with h | ⟨-, h⟩
      · rw [hx] at h
        exact (Nat.lt_irrefl _ h).elim
      · exact h
  · next h =>
    obtain ⟨hx, hy⟩ := not_or.mp h
    refine ⟨.inr rfl, Nat.le_of_not_lt hx, fun he => ?_⟩
    exact Nat.le_of_lt (Nat.lt_of_not_le fun hle => hy ⟨he, hle⟩)

theorem alongBy_eq {s e : Coord} {n : Nat} (hn : n ≤ lineDy s e) :
    alongBy (decide (s.y.toNat ≤ e.y.toNat)) s.y n = BitVec.ofNat 16 (alongY s e n) := by
  unfold lineDy at hn
  unfold alongBy alongY
  by_cases hup : s.y.toNat ≤ e.y.toNat
  · simp [hup, BitVec.ofNat_add]
  · have := s.y.isLt
    simp only [hup, decide_false, Bool.false_eq_true, if_false]
    apply BitVec.eq_of_toNat_eq
    simp only [BitVec.toNat_sub, BitVec.toNat_ofNat]
    omega

/-- Along a line of `major` steps the minor axis moves at most `minor` times (R110). -/
theorem minor_div_le {minor major i : Nat} (h : 0 < major) (hi : i ≤ major) :
    (i * minor + major / 2) / major ≤ minor := by
  have hmul : i * minor ≤ major * minor := Nat.mul_le_mul_right _ hi
  refine Nat.le_of_lt_succ (Nat.div_lt_of_lt_mul ?_)
  rw [Nat.succ_eq_add_one, Nat.mul_add]
  omega

theorem pointsInOrder_shallow {s e : Coord} (h : lineDy s e ≤ lineDx s e) :
    pointsInOrder s e = (List.range (lineDx s e + 1)).map fun i => {
      x := s.x + BitVec.ofNat 16 i
      y := alongBy (decide (s.y.toNat ≤ e.y.toNat)) s.y ((i * lineDy s e + lineDx s e / 2) / lineDx s e) } := by
  rw [pointsInOrder, Nat.max_eq_left h]
  refine List.map_congr_left fun i hi => ?_
  have hi : i ≤ lineDx s e := Nat.le_of_lt_succ (List.mem_range.mp hi)
  have hle : (i * lineDy s e + lineDx s e / 2) / lineDx s e ≤ lineDy s e := by
    rcases Nat.eq_zero_or_pos (lineDx s e) with h0 | h0
    · rw [h0, Nat.div_zero]
      exact Nat.zero_le _
    · exact minor_div_le h0 hi
  rw [alongBy_eq hle, linePoint, if_pos h, pixelAt, BitVec.ofNat_add, BitVec.ofNat_toNat, BitVec.setWidth_eq]

theorem pointsInOrder_steep {s e : Coord} (h : lineDx s e < lineDy s e) :
    pointsInOrder s e = (List.range (lineDy s e + 1)).map fun i => {
      x := s.x + BitVec.ofNat 16 ((i * lineDx s e + lineDy s e / 2) / lineDy s e)
      y := alongBy (decide (s.y.toNat ≤ e.y.toNat)) s.y i } := by
  rw [pointsInOrder, Nat.max_eq_right (Nat.le_of_lt h)]
  refine List.map_congr_left fun i hi => ?_
  rw [alongBy_eq (Nat.le_of_lt_succ (List.mem_range.mp hi)), linePoint, if_neg (Nat.not_le.mpr h), pixelAt,
    BitVec.ofNat_add, BitVec.ofNat_toNat, BitVec.setWidth_eq]

/-- ALine walks the points of the closed form, also where HLine or VLine would draw the line (R109, R110). -/
theorem aLine_eq (a b : Coord) : aLine a b = lineInOrder a b := by
  rw [lineInOrder_eq, aLine]
  generalize (orderEnds a b).1 = s, (orderEnds a b).2 = e
  change (if lineDy s e ≤ lineDx s e then
      walkX (lineDx s e) (lineDy s e) _ (lineDx s e + 1) (num0 (lineDx s e)) s.x s.y
    else walkY (lineDy s e) (lineDx s e) _ (lineDy s e + 1) (num0 (lineDy s e)) s.x s.y) = _
  split
  · next h =>
    rw [pointsInOrder_shallow h]
    rcases Nat.eq_zero_or_pos (lineDx s e) with h0 | h0
    · rw [h0]
      simp [walkX, alongBy_zero]
    · exact walkX_eq _ h _ (Nat.div_lt_self h0 (by decide)) s.x s.y
  · next h =>
    have h := Nat.lt_of_not_le h
    rw [pointsInOrder_steep h]
    exact walkY_eq _ (Nat.le_of_lt h) _ (Nat.div_lt_self (by omega) (by decide)) s.x s.y

theorem normalize_comm (a b : Coord) : normalize a b = normalize b a := by
  simp only [normalize, Nat.min_comm, Nat.max_comm]

theorem hLine_comm {a b : Coord} (h : a.y = b.y) : hLine a b = hLine b a := by
  rw [hLine, hLine, normalize_comm, h]

theorem vLine_comm {a b : Coord} (h : a.x = b.x) : vLine a b = vLine b a := by
  rw [vLine, vLine, normalize_comm, h]

theorem closed_eq_map_range (lo hi : Nat) : closed lo hi = (List.range (hi + 1 - lo)).map (lo + ·) :=
  List.range'_eq_map_range ..

theorem hLine_eq_pointsInOrder {s e : Coord} (hx : s.x.toNat ≤ e.x.toNat) (hy : s.y = e.y) :
    hLine s e = pointsInOrder s e := by
  have hdy : lineDy s e = 0 := by simp [lineDy, hy]
  rw [pointsInOrder_shallow (by omega), hLine, normalize, closed_eq_map_range, List.map_map, Nat.min_eq_left hx,
    Nat.max_eq_right hx, lineDx, show e.x.toNat - s.x.toNat + 1 = e.x.toNat + 1 - s.x.toNat by omega]
  refine List.map_congr_left fun i _ => ?_
  have hmove : (i * lineDy s e + (e.x.toNat - s.x.toNat) / 2) / (e.x.toNat - s.x.toNat) = 0 := by
    rw [hdy, Nat.mul_zero, Nat.zero_add, Nat.div_div_eq_div_mul, Nat.div_eq_zero_iff]
    omega
  rw [hmove, alongBy_zero, Function.comp_apply, BitVec.ofNat_add, BitVec.ofNat_toNat, BitVec.setWidth_eq]

theorem vLine_eq_pointsInOrder {s e : Coord} (hx : s.x = e.x) (hy : s.y.toNat < e.y.toNat) :
    vLine s e = pointsInOrder s e := by
  have hdx : lineDx s e = 0 := by simp [lineDx, hx]
  have hdy : lineDy s e = e.y.toNat - s.y.toNat := by
    rw [lineDy, Nat.max_eq_left hy.le, Nat.min_eq_right hy.le]
  rw [pointsInOrder_steep (by omega), vLine, normalize, closed_eq_map_range, List.map_map, Nat.min_eq_left hy.le,
    Nat.max_eq_right hy.le, hdy, show e.y.toNat - s.y.toNat + 1 = e.y.toNat + 1 - s.y.toNat by omega]
  refine List.map_congr_left fun i _ => ?_
  have hmove : (i * lineDx s e + (e.y.toNat - s.y.toNat) / 2) / (e.y.toNat - s.y.toNat) = 0 := by
    rw [hdx, Nat.mul_zero, Nat.zero_add, Nat.div_div_eq_div_mul, Nat.div_eq_zero_iff]
    omega
  rw [hmove, BitVec.add_zero, alongBy, decide_eq_true hy.le, if_pos rfl, Function.comp_apply, BitVec.ofNat_add,
    BitVec.ofNat_toNat, BitVec.setWidth_eq]

/-- DRAW_LINE stores the pixels of the closed form in their order, by whichever of its three routes (R106). -/
theorem linePixels_eq (a b : Coord) : linePixels a b = lineInOrder a b := by
  obtain ⟨hends, hx, hy⟩ := orderEnds_cases a b
  unfold linePixels
  split
  · next h =>
    rw [lineInOrder_eq]
    rcases hends with he | he <;> rw [he] at hx ⊢
    · exact hLine_eq_pointsInOrder hx h
    · rw [hLine_comm h]
      exact hLine_eq_pointsInOrder hx h.symm
  · next h =>
    split
    · next h' =>
      have hne : a.y.toNat ≠ b.y.toNat := fun he => h (BitVec.eq_of_toNat_eq he)
      have hy := hy h'
      rw [lineInOrder_eq]
      rcases hends with he | he <;> rw [he] at hy ⊢
      · exact vLine_eq_pointsInOrder h' (Nat.lt_of_le_of_ne hy hne)
      · rw [vLine_comm h']
        exact vLine_eq_pointsInOrder h'.symm (Nat.lt_of_le_of_ne hy hne.symm)
    · exact aLine_eq a b

/-! ### Rectangles in the rule's order -/

theorem rectPixels_eq (a b : Coord) : rectPixels a b = outlineInOrder a b := rfl

theorem fillPixels_eq (a b : Coord) : fillPixels a b = fillInOrder a b := rfl

theorem pixelAt_toNat (p : Coord) : pixelAt p.x.toNat p.y.toNat = p := by
  simp [pixelAt]

theorem mem_range'_closed {lo hi n : Nat} : n ∈ List.range' lo (hi + 1 - lo) ↔ lo ≤ n ∧ n ≤ hi := by
  rw [List.mem_range'_1]
  omega

/-- The pixels of a row within 16 bits. -/
theorem mem_rowInOrder {x0 x1 y : Nat} (hx : x1 < 2 ^ 16) (hy : y < 2 ^ 16) {p : Coord} :
    p ∈ rowInOrder x0 x1 y ↔ (x0 ≤ p.x.toNat ∧ p.x.toNat ≤ x1) ∧ p.y.toNat = y := by
  simp only [rowInOrder, List.mem_map, mem_range'_closed]
  constructor
  · rintro ⟨x, hx', rfl⟩
    simp only [pixelAt, BitVec.toNat_ofNat]
    omega
  · rintro ⟨hp, rfl⟩
    exact ⟨_, hp, pixelAt_toNat p⟩

/-- DRAW_RECT_FILL stores exactly the pixels of the closed rectangle (R113). -/
theorem mem_fillInOrder {a b p : Coord} : p ∈ fillInOrder a b ↔ InRect a b p := by
  have hx : max a.x.toNat b.x.toNat < 2 ^ 16 := Nat.max_lt.mpr ⟨a.x.isLt, b.x.isLt⟩
  have hy : max a.y.toNat b.y.toNat < 2 ^ 16 := Nat.max_lt.mpr ⟨a.y.isLt, b.y.isLt⟩
  simp only [fillInOrder, List.mem_flatMap, mem_range'_closed]
  constructor
  · rintro ⟨y, hy', hp⟩
    obtain ⟨hpx, rfl⟩ := (mem_rowInOrder hx (hy'.2.trans_lt hy)).mp hp
    exact ⟨hpx, hy'⟩
  · rintro ⟨hpx, hpy⟩
    exact ⟨_, hpy, (mem_rowInOrder hx p.y.isLt).mpr ⟨hpx, rfl⟩⟩

theorem rowInOrder_pairwise {x0 x1 y : Nat} (hx : x1 < 2 ^ 16) :
    (rowInOrder x0 x1 y).Pairwise RowMajorBefore := by
  refine List.pairwise_map.mpr ((List.pairwise_lt_range' ..).imp_of_mem fun {m n} hm hn hlt => .inr ⟨rfl, ?_⟩)
  have hm := mem_range'_closed.mp hm
  have hn := mem_range'_closed.mp hn
  simp only [pixelAt, BitVec.toNat_ofNat]
  omega

/-- DRAW_RECT_FILL stores in row-major order (R113). -/
theorem fillInOrder_pairwise (a b : Coord) : (fillInOrder a b).Pairwise RowMajorBefore := by
  have hx : max a.x.toNat b.x.toNat < 2 ^ 16 := Nat.max_lt.mpr ⟨a.x.isLt, b.x.isLt⟩
  have hy : max a.y.toNat b.y.toNat < 2 ^ 16 := Nat.max_lt.mpr ⟨a.y.isLt, b.y.isLt⟩
  refine List.pairwise_flatMap.mpr ⟨fun _ _ => rowInOrder_pairwise hx,
    (List.pairwise_lt_range' ..).imp_of_mem fun {m n} hm hn hlt p hp q hq => .inl ?_⟩
  have hm := mem_range'_closed.mp hm
  have hn := mem_range'_closed.mp hn
  have hp := (mem_rowInOrder hx (hm.2.trans_lt hy)).mp hp
  have hq := (mem_rowInOrder hx (hn.2.trans_lt hy)).mp hq
  omega

theorem RowMajorBefore.asymm {p q : Coord} (h : RowMajorBefore p q) : ¬ RowMajorBefore q p := by
  intro h'
  rcases h with h | ⟨h, hx⟩ <;> rcases h' with h' | ⟨h', hx'⟩
  · omega
  · rw [h'] at h
    omega
  · rw [h] at h'
    omega
  · omega

end Sys2Proof.Machine
end

section
/-!
A command that draws or measures performs its list of accesses, so a bus error stops it at the first that fails
(60_exceptions.md R175).
-/

namespace Sys2Proof.Machine

/-! ### Operands as the rules write them -/

theorem pointOf_eq (w : Word) : pointOf w = coordOf w := by
  have hy : w.extractLsb' 16 16 = BitVec.ofNat 16 (w.toNat / 65536) := by
    apply BitVec.eq_of_toNat_eq
    simp [Nat.shiftRight_eq_div_pow]
  rw [pointOf, pixelAt, coordOf, hy, ← lowHalf_eq, lowHalf]

theorem AsPoint.pointOf_eq {w : Word} {p : Coord} (h : AsPoint w p) : pointOf w = p := by
  have hx := p.x.isLt
  rw [← pixelAt_toNat p]
  unfold AsPoint at h
  unfold pointOf pixelAt
  congr 1
  · apply BitVec.eq_of_toNat_eq
    simp only [BitVec.toNat_ofNat]
    omega
  · congr 1
    omega

theorem State.currentFont_eq {s : State} {f : Font} (h : s.fonts[s.fcur]? = some f) : s.currentFont = f := by
  rw [State.currentFont, List.getD_eq_getElem?_getD, h, Option.getD_some]

theorem ofInt_sub_eq (x : Half) (n : Nat) : BitVec.ofInt 16 ((x.toNat : Int) - (n : Int)) = x - BitVec.ofNat 16 n := by
  apply BitVec.eq_of_toNat_eq
  simp only [BitVec.toNat_ofInt, BitVec.toNat_sub, BitVec.toNat_ofNat]
  omega

/-- The start of a centred string (42_glyph_engine.md R160). -/
theorem centredStart_eq (x : Half) (m : Nat) :
    centredStart x (BitVec.ofNat 32 m) = BitVec.ofInt 16 ((x.toNat : Int) - ((m % 2 ^ 32 / 2 : Nat) : Int)) := by
  have hm : (BitVec.ofNat 32 m >>> 1).setWidth 16 = BitVec.ofNat 16 (m % 2 ^ 32 / 2) := by
    apply BitVec.eq_of_toNat_eq
    simp [Nat.shiftRight_eq_div_pow]
  rw [ofInt_sub_eq, centredStart, hm]

/-- The start of a right-aligned string (42_glyph_engine.md R161). -/
theorem rightStart_eq (x : Half) (m : Nat) :
    rightStart x (BitVec.ofNat 32 m) = BitVec.ofInt 16 ((x.toNat : Int) - ((m % 2 ^ 32 : Nat) : Int)) := by
  have hm : (BitVec.ofNat 32 m).setWidth 16 = BitVec.ofNat 16 (m % 2 ^ 32) := by
    apply BitVec.eq_of_toNat_eq
    simp
  rw [ofInt_sub_eq, rightStart, hm]

/-! ### Each command performs its accesses -/

theorem Flow.bind_unit (m : Flow Unit) : (m.bind fun _ u => .go () u) = m := by
  cases m <;> rfl

/-- After a flow that only reads, the rest runs from the state it began in. -/
theorem Flow.bind_congr_of_final {α β : Type} {s : State} {m : Flow α} {k l : α → State → Flow β} (hm : m.final = s)
    (h : ∀ a, k a s = l a s) : m.bind k = m.bind l := by
  cases m with
  | go a t => cases hm; exact h a
  | trap c x t => rfl

theorem withTarget_valid {s : State} (h : s.tvalid = true) (r : Result) : withTarget s r = r := if_pos h

theorem withText_valid {s : State} (ht : s.tvalid = true) (hf : s.fvalid = true) (r : Result) : withText s r = r := by
  simp [withText, ht, hf]

/-- A rasterizer command stores the pixels its rule lists, in that order (41_rasterizer.md R104 to R113). -/
theorem exec_raster {i : Instr} {s : State} (hi : isRaster i = true) (ht : s.tvalid = true) (f : Font) :
    exec i s = (perform (s.accesses f i) s).finish i := by
  cases i with
  | clear =>
    rw [exec, execClear, withTarget_valid ht, clearPixels_performs, State.accesses]
  | drawPixel =>
    rw [exec, execDrawPixel, withTarget_valid ht, State.accesses, pointOf_eq, perform_cons]
    simp only [perform_nil, Flow.bind_unit, runAccess]
  | drawLine =>
    rw [exec, execDrawLine, withTarget_valid ht, State.accesses, perform_stores, pointOf_eq, pointOf_eq, linePixels_eq]
  | drawRect =>
    rw [exec, execDrawRect, withTarget_valid ht, State.accesses, perform_stores, pointOf_eq, pointOf_eq, rectPixels_eq]
  | drawRectFill =>
    rw [exec, execDrawRectFill, withTarget_valid ht, State.accesses, perform_stores, pointOf_eq, pointOf_eq,
      fillPixels_eq]
  | _ => cases hi

section
variable {s : State} {f : Font}

/-- However far `i` gets, the bytes it reads stay as they are in `s` (70_reset_and_hazards.md R193 (b)). -/
def State.ReadsSteady (s : State) (f : Font) (i : Instr) : Prop :=
  Steady s s (fun a => .read a ∈ s.accesses f i) (s.accesses f i)

/-- Measuring the string in A1 and then drawing it from where the measure puts it performs both lists. -/
theorem measure_then_drawStr {len : Nat} {y0 : Half} (start : Word → Half) {l : List Access}
    (hl : l = s.measureAccesses f s.a1 len ++
      s.textAccesses f (start (BitVec.ofNat 32 (s.measureOf f s.a1 len))) y0 s.a1 len)
    (hs : Steady s s (fun a => .read a ∈ l) l) :
    ((measure f s.a1 len s).bind fun m u => drawStr f (start m) y0 u.a1 len u) = perform l s := by
  subst hl
  have hread : ((measure f s.a1 len s).bind fun m u => drawStr f (start m) y0 u.a1 len u) =
      (measure f s.a1 len s).bind fun m u => drawStr f (start m) y0 s.a1 len u :=
    Flow.bind_congr_of_final (measure_final f s.a1 len s) fun _ => rfl
  rw [hread, ← Flow.bind_unit (perform _ s)]
  refine Flow.bind_performs (measure_performs hs.left fun a ha => List.mem_append_left _ ha) fun u hu => ?_
  rw [Flow.bind_unit]
  exact drawStr_performs (hs.right hu) fun a ha => List.mem_append_right _ ha

/-- A text command performs its accesses (42_glyph_engine.md R152 to R161). -/
theorem exec_text {i : Instr} (hi : isText i = true) (ht : s.tvalid = true) (hv : s.fvalid = true)
    (hf : s.fonts[s.fcur]? = some f) (hs : s.ReadsSteady f i) : exec i s = (perform (s.accesses f i) s).finish i := by
  unfold State.ReadsSteady at hs
  cases i with
  | drawChar ch =>
    simp only [State.accesses] at hs ⊢
    rw [exec, execDrawChar, withText_valid ht hv, State.currentFont_eq hf, ← pointOf_eq,
      drawGlyph_performs hs fun _ h => h, Flow.bind_assoc]
    simp only [Flow.bind_go, Flow.bind_unit]
  | drawStrL len =>
    simp only [State.accesses] at hs ⊢
    rw [exec, execDrawStrL, withText_valid ht hv, State.currentFont_eq hf, ← pointOf_eq,
      drawStr_performs hs fun _ h => h]
  | drawStrC len =>
    rw [exec, execDrawStrC, withText_valid ht hv, State.currentFont_eq hf, ← pointOf_eq]
    exact congrArg _ (measure_then_drawStr (centredStart _) (by rw [State.accesses, centredStart_eq]) hs)
  | drawStrR len =>
    rw [exec, execDrawStrR, withText_valid ht hv, State.currentFont_eq hf, ← pointOf_eq]
    exact congrArg _ (measure_then_drawStr (rightStart _) (by rw [State.accesses, rightStart_eq]) hs)
  | _ => cases hi

/-- A measuring command performs its reads, then sets RESULT (42_glyph_engine.md R145, R146). -/
theorem exec_measure {i : Instr} (hi : isMeasure i = true) (hv : s.fvalid = true) (hf : s.fonts[s.fcur]? = some f)
    (hs : s.ReadsSteady f i) :
    ∃ v, exec i s = ((perform (s.accesses f i) s).bind fun _ u => .go () (u.setResult v true)).finish i := by
  unfold State.ReadsSteady at hs
  cases i with
  | measureChar ch =>
    simp only [State.accesses] at hs ⊢
    rw [exec, execMeasureChar, if_pos hv, State.currentFont_eq hf, charWidth_performs hs.now fun _ h => h,
      Flow.bind_assoc]
    exact ⟨_, rfl⟩
  | measureStr len =>
    simp only [State.accesses] at hs ⊢
    rw [exec, execMeasureStr, if_pos hv, State.currentFont_eq hf, measure_performs hs fun _ h => h, Flow.bind_assoc]
    exact ⟨_, rfl⟩
  | _ => cases hi

/-- A command with accesses draws or measures. -/
theorem isDrawing_or_isMeasure_of_mem {i : Instr} {x : Access} (h : x ∈ s.accesses f i) :
    isRaster i = true ∨ isText i = true ∨ isMeasure i = true := by
  cases i with
  | clear | drawPixel | drawLine | drawRect | drawRectFill => exact .inl rfl
  | drawChar _ | drawStrL _ | drawStrC _ | drawStrR _ => exact .inr (.inl rfl)
  | measureChar _ | measureStr _ => exact .inr (.inr rfl)
  | nop | init | deinit | setDrawBuffer _ | setDrawColor _ | setDrawColorArgb | queryBack _ | flip _ | fontClear
  | fontAdd | setFontIndex _ | setFontName => cases h

/-- An enabled command is stopped by the bus error that stops its accesses. -/
theorem exec_of_perform_trap {i : Instr} {x : Access} (hen : s.Enabled f i) (hx : x ∈ s.accesses f i)
    (hs : s.ReadsSteady f i) {c : FaultCause} {a : Word} {u : State} (h : perform (s.accesses f i) s = .trap c a u) :
    exec i s = .next (raiseFault c a (encode i) u) := by
  obtain ⟨htarget, hfont⟩ := hen
  rcases isDrawing_or_isMeasure_of_mem hx with hi | hi | hi
  · rw [exec_raster hi (htarget (.inl hi)) f, h, Flow.finish]
  · obtain ⟨hv, hf⟩ := hfont (.inl hi)
    rw [exec_text hi (htarget (.inr hi)) hv hf hs, h, Flow.finish]
  · obtain ⟨hv, hf⟩ := hfont (.inr hi)
    obtain ⟨v, he⟩ := exec_measure hi hv hf hs
    rw [he, h, Flow.bind_trap, Flow.finish]

/-- Every drawing and measuring command stops at its first failing access (60_exceptions.md R174, R175). -/
theorem exec_stops {i : Instr} {before after : List Access} {x : Access} (hen : s.Enabled f i)
    (hw : Memory.wf s.mem = true) (hl : s.accesses f i = before ++ x :: after) (hb : ∀ y ∈ before, s.Serves y)
    (hx : ¬ s.Serves x) (ha : s.Apart (fun p => .store p ∈ before) fun a => .read a ∈ s.accesses f i) :
    ∃ u, Paints s (fun p => .store p ∈ before) u ∧ ((∀ p, .store p ∉ before) → u = s) ∧
      exec i s = .next (raiseFault x.cause (s.failAddr x) (encode i) u) := by
  obtain ⟨u, hperform, hpaints, hsame⟩ := perform_fails (after := after) hw hb hx
  rw [← hl] at hperform
  have hmem : x ∈ s.accesses f i := by
    rw [hl]
    simp
  have hsteady : s.ReadsSteady f i := by
    have h := Steady.of_apart (after := after) hw hx ha
    rwa [← hl] at h
  exact ⟨u, hpaints, hsame, exec_of_perform_trap hen hmem hsteady hperform⟩

end

/-! ### The fill -/

/-- The pixels before `p` in the fill's order are those of the rectangle that precede it row-major (R113). -/
theorem fillInOrder_split {a b p : Coord} (hp : InRect a b p) :
    ∃ before after, fillInOrder a b = before ++ p :: after ∧
      ∀ q, q ∈ before ↔ InRect a b q ∧ RowMajorBefore q p := by
  obtain ⟨before, after, hsplit⟩ := List.append_of_mem (mem_fillInOrder.mpr hp)
  have hord := fillInOrder_pairwise a b
  rw [hsplit] at hord
  obtain ⟨-, hafter, hcross⟩ := List.pairwise_append.mp hord
  refine ⟨before, after, hsplit, fun q => ⟨fun hq => ⟨?_, hcross q hq p List.mem_cons_self⟩, fun ⟨hq, hqp⟩ => ?_⟩⟩
  · rw [← mem_fillInOrder, hsplit]
    exact List.mem_append_left _ hq
  · rw [← mem_fillInOrder, hsplit, List.mem_append, List.mem_cons] at hq
    rcases hq with hq | rfl | hq
    · exact hq
    · exact (hqp.asymm hqp).elim
    · exact (hqp.asymm ((List.pairwise_cons.mp hafter).1 q hq)).elim

/-- A fill with GUARD off stops at an unbacked pixel, the rectangle's pixels before it row-major painted (R113, R175). -/
theorem exec_fill_stops {s : State} {a b p : Coord} (ht : s.tvalid = true) (hg : s.guard = false)
    (hw : Memory.wf s.mem = true) (ha : AsPoint s.a0 a) (hb : AsPoint s.a1 b) (hp : InRect a b p)
    (hfail : s.backed (s.pixelAddr p) = false ∨ s.backed (s.pixelAddr p + 1) = false)
    (hs : s.Storable fun q => InRect a b q ∧ RowMajorBefore q p) :
    ∃ u, Paints s (fun q => InRect a b q ∧ RowMajorBefore q p) u ∧
      exec .drawRectFill s = .next (raiseFault .busWrite (s.pixelAddr p) (encode .drawRectFill) u) := by
  obtain ⟨before, after, hsplit, hbefore⟩ := fillInOrder_split hp
  have hl : s.accesses Font.blank .drawRectFill = before.map .store ++ .store p :: after.map .store := by
    rw [State.accesses, ha.pointOf_eq, hb.pointOf_eq, hsplit, List.map_append, List.map_cons]
  have hmem : ∀ q, Access.store q ∈ before.map .store ↔ InRect a b q ∧ RowMajorBefore q p := fun q => by
    rw [List.mem_map_of_injective fun _ _ h => Access.store.inj h, hbefore]
  obtain ⟨u, hpaints, -, hexec⟩ := exec_stops (f := Font.blank) (x := .store p) (i := .drawRectFill)
    ⟨fun _ => ht, by rintro (h | h) <;> cases h⟩ hw hl
    (fun y hy => by
      obtain ⟨q, hq, rfl⟩ := List.mem_map.mp hy
      exact hs q ((hbefore q).mp hq))
    (fun hserves => by
      obtain ⟨h0, h1⟩ := hserves (.inl hg)
      rcases hfail with h | h
      · rw [h] at h0
        cases h0
      · rw [h] at h1
        cases h1)
    (by
      have hreads : ∀ c, Access.read c ∉ s.accesses Font.blank .drawRectFill := by simp [State.accesses]
      exact fun q _ _ => ⟨hreads _, hreads _⟩)
  exact ⟨u, hpaints.congr hmem, hexec⟩

/-- Settles O49: the fill's clause is the general one at the fill's list of accesses. -/
theorem fillStopsAtItsFirstBusError : Obligations.FillStopsAtItsFirstBusError :=
  ⟨fun _ _ _ _ => exec_fill_stops, fun _ _ _ _ _ _ => exec_stops⟩

end Sys2Proof.Machine
end

section
/-!
The command word (spec 30_encoding.md R60 to R65): the decoder in one equivalence, what each format asks of `imm16`,
and the mask of R64 that says the same of the whole word.
-/

namespace Sys2Proof

/-! ### The formats of R62 -/

/-- The formats N, A1, A2 and A5, whose `imm16` must be 0 (30_encoding.md R62). -/
def Format.zeroImm : Format → Bool
  | .n | .a1 | .a2 | .a5 => true
  | .l | .i | .is | .ia1 | .ia2 => false

/-- What a format asks of `imm16` (30_encoding.md R62). -/
theorem Format.check_eq_none_iff (f : Format) (imm : Half) :
    f.check imm = none ↔ (f.zeroImm = true → imm = 0) ∧ (f = .l → imm.toNat ≤ 1) := by
  cases f with
  | n | a1 | a2 | a5 => simp [check, zeroImm]
  | l => simp [check, zeroImm]
  | i | is | ia1 | ia2 => simp [check, zeroImm]

theorem Format.imm_eq_zero {f : Format} {imm : Half} (hf : f.zeroImm = true) (h : f.check imm = none) : imm = 0 := by
  obtain ⟨hzero, -⟩ := (f.check_eq_none_iff imm).mp h
  exact hzero hf

theorem Format.check_layer_iff (layer : Half) : Format.l.check layer = none ↔ layerLegal layer = true := by
  simp [check, layerLegal]

/-! ### The decoder -/

/-- A word decodes to `i`: its `op` has a row, `z` is zero, the row's format allows its `imm16`, and the row builds `i`
from it (30_encoding.md R60). -/
theorem decode_eq_ok_iff {w : Word} {i : Instr} : decode w = .ok i ↔
    ∃ f build, opcodeRow (opField w) = some (f, build) ∧ zField w = 0 ∧ f.check (immField w) = none ∧
      build (immField w) = i := by
  unfold decode
  cases hrow : opcodeRow (opField w) with
  | none => simp
  | some row =>
    obtain ⟨f, build⟩ := row
    by_cases hz : zField w = 0#8
    · cases hcheck : f.check (immField w) <;> simp [hz, hcheck]
    · simp [hz]

theorem decode_commandWord {op : Byte} {imm : Half} {f : Format} {build : Half → Instr} {i : Instr}
    (hrow : opcodeRow op = some (f, build)) (hcheck : f.check imm = none) (hi : build imm = i) :
    decode (commandWord op imm) = .ok i :=
  decode_eq_ok_iff.mpr ⟨f, build, by rw [opField_commandWord, hrow], zField_commandWord op imm,
    by rw [immField_commandWord, hcheck], by rw [immField_commandWord, hi]⟩

/-- Settles O1: the word of each command is a row's `op` with an `imm16` that the row's format allows, by the premise
where the operand is a layer. -/
theorem decodeOfEncodeIsTheCommand : Obligations.DecodeOfEncodeIsTheCommand := by
  intro i hwf
  cases i with
  | nop | init | deinit | setDrawColorArgb | clear | drawPixel | drawLine | drawRect | drawRectFill | fontClear
  | fontAdd | setFontName => exact decode_commandWord rfl rfl rfl
  | setDrawBuffer layer | queryBack layer | flip layer =>
    exact decode_commandWord rfl ((Format.check_layer_iff layer).mpr hwf) rfl
  | setDrawColor imm | setFontIndex imm | measureChar imm | measureStr imm | drawChar imm | drawStrL imm
  | drawStrC imm | drawStrR imm => exact decode_commandWord rfl rfl rfl

/-- Settles O5: each of the words is the encoder's word of its command. -/
theorem sampleCommandWordsDecode : Obligations.SampleCommandWordsDecode :=
  have decodes := decodeOfEncodeIsTheCommand
  ⟨decodes .nop rfl, decodes (.setDrawBuffer 1) rfl, decodes (.setDrawColor 0xF003) rfl, decodes (.flip 1) rfl,
    decodes .drawLine rfl, decodes .fontAdd rfl, decodes (.measureStr 3) rfl, decodes (.drawChar 0x41) rfl,
    decodes (.drawStrC 5) rfl⟩

/-! ### The masks of R64 -/

/-- The bits of a word that a row of this format fixes (30_encoding.md R64). -/
def Format.mask : Format → Word
  | .n | .a1 | .a2 | .a5 => 0xFFFFFFFF
  | .l => 0xFFFEFFFF
  | .i | .is | .ia1 | .ia2 => 0x0000FFFF

theorem Format.opField_mask (f : Format) : opField f.mask = BitVec.allOnes 8 := by cases f <;> rfl

theorem Format.zField_mask (f : Format) : zField f.mask = BitVec.allOnes 8 := by cases f <;> rfl

theorem opField_and (v w : Word) : opField (v &&& w) = opField v &&& opField w := BitVec.extractLsb'_and

theorem zField_and (v w : Word) : zField (v &&& w) = zField v &&& zField w := BitVec.extractLsb'_and

theorem immField_and (v w : Word) : immField (v &&& w) = immField v &&& immField w := BitVec.extractLsb'_and

/-- Bits 31:17 of a format L word are those that make the layer index exceed 1 (30_encoding.md R63). -/
theorem and_layerMask_eq_zero_iff (imm : Half) : imm &&& 0xFFFE#16 = 0#16 ↔ imm.toNat ≤ 1 := by
  constructor
  · intro h
    have hbit : imm = imm &&& 1#16 := by
      calc imm = imm &&& (0xFFFE#16 ||| 1#16) := (BitVec.and_allOnes (x := imm)).symm
        _ = imm &&& 1#16 := by rw [BitVec.and_or_distrib_left, h, BitVec.zero_or]
    rw [hbit, BitVec.toNat_and]
    exact Nat.and_le_right
  · intro h
    obtain h | h : imm.toNat = 0 ∨ imm.toNat = 1 := by omega
    · rw [BitVec.eq_of_toNat_eq (y := 0) h]; rfl
    · rw [BitVec.eq_of_toNat_eq (y := 1) h]; rfl

/-- A format allows an `imm16` when the bits that its mask fixes there are zero. -/
theorem Format.check_eq_none_iff_mask (f : Format) (imm : Half) :
    f.check imm = none ↔ imm &&& immField f.mask = 0 := by
  cases f with
  | n | a1 | a2 | a5 =>
    have hmask : imm &&& immField 0xFFFFFFFF#32 = imm := BitVec.and_allOnes
    simp [check, mask, hmask]
  | l =>
    have hmask : immField 0xFFFEFFFF#32 = 0xFFFE#16 := rfl
    simp [check, mask, hmask, and_layerMask_eq_zero_iff]
  | i | is | ia1 | ia2 =>
    have hmask : immField 0x0000FFFF#32 = 0#16 := rfl
    simp [check, mask, hmask]

/-- To match `op` under a format's mask is to pass the decoder's three tests with that `op` and format. -/
theorem Format.and_mask_eq_iff (f : Format) (w : Word) (op : Byte) : w &&& f.mask = commandWord op 0 ↔
    opField w = op ∧ zField w = 0 ∧ f.check (immField w) = none := by
  have hop : opField (w &&& f.mask) = opField w := by rw [opField_and, opField_mask, BitVec.and_allOnes]
  have hz : zField (w &&& f.mask) = zField w := by rw [zField_and, zField_mask, BitVec.and_allOnes]
  rw [check_eq_none_iff_mask, ← immField_and, ← hop, ← hz]
  constructor
  · intro h
    rw [h]
    exact ⟨opField_commandWord op 0, zField_commandWord op 0, immField_commandWord op 0⟩
  · rintro ⟨rfl, h, himm⟩
    rw [← himm, commandWord_of_fields _ h]

end Sys2Proof
end

section
/-!
The rows of spec 30_encoding.md R64: each row of the table is the decoder's row of its `op`, with its format's mask, its
mnemonic and the encoder's words; and the words that no row has (R65).
-/

namespace Sys2Proof.Machine

/-! ### The table and the decoder -/

/-- A row of the table, held to the decoder's row with the same `op` and to the encoder. -/
structure TableRow.Describes (row : TableRow) (f : Format) (build : Half → Instr) : Prop where
  listed : opcodeRow (opField row.pattern) = some (f, build)
  pattern : row.pattern = commandWord (opField row.pattern) 0
  mask : row.mask = f.mask
  mnemonic : ∀ imm, (build imm).mnemonic = row.mnemonic
  encoded : ∀ imm, f.check imm = none →
    encode (build imm) = commandWord (opField row.pattern) imm ∧ (build imm).wellFormed = true

theorem opcodeTable_describes : ∀ row ∈ opcodeTable, ∃ f build, row.Describes f build := by
  simp only [opcodeTable, List.forall_mem_append, List.forall_mem_cons]
  refine ⟨⟨⟨?nop, ?init, ?deinit, ?setDrawBuffer, ?setDrawColor, ?setDrawColorArgb, ?queryBack, ?flip,
    List.forall_mem_nil _⟩,
    ?clear, ?drawPixel, ?drawLine, ?drawRect, ?drawRectFill, List.forall_mem_nil _⟩,
    ?fontClear, ?fontAdd, ?setFontIndex, ?setFontName, ?measureChar, ?measureStr, ?drawChar, ?drawStrL, ?drawStrC,
    ?drawStrR, List.forall_mem_nil _⟩
  case nop | init | deinit | setDrawColorArgb | clear | drawPixel | drawLine | drawRect | drawRectFill | fontClear
    | fontAdd | setFontName =>
    exact ⟨_, _, rfl, rfl, rfl, fun _ => rfl, fun imm h =>
      ⟨congrArg (commandWord _) (Format.imm_eq_zero rfl h).symm, rfl⟩⟩
  case setDrawBuffer | queryBack | flip =>
    exact ⟨_, _, rfl, rfl, rfl, fun _ => rfl, fun imm h => ⟨rfl, (Format.check_layer_iff imm).mp h⟩⟩
  case setDrawColor | setFontIndex | measureChar | measureStr | drawChar | drawStrL | drawStrC | drawStrR =>
    exact ⟨_, _, rfl, rfl, rfl, fun _ => rfl, fun imm _ => ⟨rfl, rfl⟩⟩

theorem opcodeRow_isSome_iff : ∀ op : Byte,
    (opcodeRow op).isSome = true ↔ op ∈ opcodeTable.map fun row => opField row.pattern := by
  decide

/-- No two rows of R64 have one mnemonic. -/
theorem opcodeTable_eq_of_mnemonic {row row' : TableRow} (hrow : row ∈ opcodeTable) (hrow' : row' ∈ opcodeTable)
    (h : row.mnemonic = row'.mnemonic) : row = row' := by
  have distinct : (opcodeTable.map TableRow.mnemonic).Nodup := by decide
  exact List.inj_on_of_nodup_map distinct hrow hrow' h

/-- A word that decodes has a row of the table: it matches the row, and the encoder spells it so. -/
theorem exists_row_of_decode {w : Word} {i : Instr} (h : decode w = .ok i) :
    ∃ row ∈ opcodeTable, row.mnemonic = i.mnemonic ∧ w &&& row.mask = row.pattern ∧
      encode i = w ∧ i.wellFormed = true := by
  obtain ⟨f, build, hrow, hz, hcheck, rfl⟩ := decode_eq_ok_iff.mp h
  have hop : opField w ∈ opcodeTable.map fun row => opField row.pattern :=
    (opcodeRow_isSome_iff _).mp (by rw [hrow]; rfl)
  obtain ⟨row, hmem, hop⟩ := List.mem_map.mp hop
  obtain ⟨f', build', d⟩ := opcodeTable_describes row hmem
  obtain ⟨rfl, rfl⟩ : f' = f ∧ build' = build := by
    have hlisted := d.listed
    rw [hop, hrow] at hlisted
    cases hlisted
    exact ⟨rfl, rfl⟩
  obtain ⟨hencode, hwf⟩ := d.encoded _ hcheck
  refine ⟨row, hmem, (d.mnemonic _).symm, ?_, ?_, hwf⟩
  · rw [d.mask, d.pattern]
    exact (f'.and_mask_eq_iff w _).mpr ⟨hop.symm, hz, hcheck⟩
  · rw [hencode, hop, commandWord_of_fields w hz]

/-- A word that matches a row decodes, to a command with the row's mnemonic. -/
theorem TableRow.Describes.decode_of_match {row : TableRow} {f : Format} {build : Half → Instr}
    (d : row.Describes f build) {w : Word} (h : w &&& row.mask = row.pattern) :
    ∃ i, decode w = .ok i ∧ i.mnemonic = row.mnemonic := by
  rw [d.mask, d.pattern] at h
  obtain ⟨hop, hz, hcheck⟩ := (f.and_mask_eq_iff w _).mp h
  exact ⟨build (immField w), decode_eq_ok_iff.mpr ⟨f, build, by rw [hop, d.listed], hz, hcheck, rfl⟩, d.mnemonic _⟩

/-- Settles O2: the row of a word that decodes has the encoder's words. -/
theorem decodedWordIsTheCommandsWord : Obligations.DecodedWordIsTheCommandsWord := by
  intro w i h
  obtain ⟨_, _, _, _, hencode, hwf⟩ := exists_row_of_decode h
  exact ⟨hencode, hwf⟩

/-- Settles O3: a matching word decodes by its row's description, and the row of a decoded word is the one with its
command's mnemonic. -/
theorem wordIsRowsCommandExactlyWhenItMatches : Obligations.WordIsRowsCommandExactlyWhenItMatches := by
  refine ⟨rfl, fun row hmem w => ⟨fun h => ?_, ?_⟩, fun w i h => ?_⟩
  · obtain ⟨f, build, d⟩ := opcodeTable_describes row hmem
    exact d.decode_of_match h
  · rintro ⟨i, hi, hname⟩
    obtain ⟨row', hmem', hname', hmatch, -⟩ := exists_row_of_decode hi
    rwa [opcodeTable_eq_of_mnemonic hmem hmem' (hname.symm.trans hname'.symm)]
  · obtain ⟨row, hmem, hname, -⟩ := exists_row_of_decode h
    exact ⟨row, hmem, hname⟩

end Sys2Proof.Machine
end

section
/-!
The execution of a CMD write (spec 30_encoding.md R61, R65): dropped, ILLEGAL_CMD or the command, one rule each; which
words are illegal; and the totality of every step.
-/

namespace Sys2Proof.Machine

/-! ### Illegal words -/

theorem exists_decode_iff (w : Word) : (∃ i, decode w = .ok i) ↔
    ∃ f build, opcodeRow (opField w) = some (f, build) ∧ zField w = 0 ∧ f.check (immField w) = none := by
  simp [decode_eq_ok_iff]

/-- The ways a format can refuse an `imm16` (30_encoding.md R62). -/
theorem check_ne_none_iff (f : Format) (imm : Half) :
    f.check imm ≠ none ↔ (f.zeroImm = true ∧ imm ≠ 0) ∨ (f = .l ∧ 1 < imm.toNat) := by
  rw [ne_eq, f.check_eq_none_iff, not_and_or, Classical.not_imp, Classical.not_imp, Nat.not_le]

/-- The `op` values of the formats whose `imm16` must be 0. -/
theorem zeroImm_any_iff : ∀ op : Byte, (opcodeRow op).any (fun row => row.1.zeroImm) = true ↔
    op ∈ [0x00#8, 0x01#8, 0x02#8, 0x0A#8, 0x10#8, 0x11#8, 0x12#8, 0x13#8, 0x14#8, 0x20#8, 0x21#8, 0x23#8] := by
  decide

/-- The `op` values of format L. -/
theorem layer_any_iff : ∀ op : Byte, (opcodeRow op).any (fun row => decide (row.1 = .l)) = true ↔
    op ∈ [0x08#8, 0x0C#8, 0x0D#8] := by
  decide

/-- The illegal words (30_encoding.md R65), by `op`, `z` and `imm16`. -/
theorem illegal_iff (w : Word) : (∀ i, decode w ≠ .ok i) ↔
    opField w ∉ opcodeTable.map (fun row => opField row.pattern) ∨ zField w ≠ 0 ∨
    ((opcodeRow (opField w)).any (fun row => row.1.zeroImm) = true ∧ immField w ≠ 0) ∨
    ((opcodeRow (opField w)).any (fun row => decide (row.1 = .l)) = true ∧ 1 < (immField w).toNat) := by
  rw [← not_exists, exists_decode_iff, ← opcodeRow_isSome_iff]
  cases hrow : opcodeRow (opField w) with
  | none => simp
  | some row =>
    obtain ⟨f, build⟩ := row
    have hcheck := check_ne_none_iff f (immField w)
    simp only [Option.any_some, Option.isSome_some, decide_eq_true_eq, ← hcheck]
    simp [imp_iff_not_or]

/-! ### The rules of a CMD write -/

theorem step_cmd {s : State} {w : Word} {rest : List HostAccess} (hp : s.pending = .regWrite 0x08 .word w :: rest) :
    step s = writeCmd w (s.accept rest) :=
  step_regWrite (r := .cmd) rfl hp

theorem writeCmd_latched {w : Word} {s : State} (hf : s.faulted = true) : writeCmd w s = .next s :=
  if_pos hf

theorem writeCmd_decoded {w : Word} {i : Instr} {s : State} (hf : s.faulted = false) (hi : decode w = .ok i) :
    writeCmd w s = exec i s := by
  simp [writeCmd, hf, hi]

theorem writeCmd_illegal {w : Word} {s : State} (hf : s.faulted = false) (hw : ∀ i, decode w ≠ .ok i) :
    writeCmd w s = .next (illegalCommand w s) := by
  cases hd : decode w with
  | ok i => exact absurd hd (hw i)
  | error e => simp [writeCmd, hf, hd]

/-- Settles O7: the fault gate of R61 is the first test of a CMD write. -/
theorem latchedFaultDropsEveryCommand : Obligations.LatchedFaultDropsEveryCommand := by
  intro s rest w hp hf
  exact (step_cmd hp).trans (writeCmd_latched hf)

theorem decode_of_decodeTableWord {n : Nat} {i : Instr} (h : decodeTableWord 32 n = some i) :
    decode (tableWord 32 n) = .ok i := by
  unfold decodeTableWord at h
  split at h
  · next j hj => cases h; exact hj
  · cases h

/-- Settles O6: the rule of a CMD write that decodes; a queued command is such a write. -/
theorem stepRunsTheDecodedCommand : Obligations.StepRunsTheDecodedCommand := by
  have runs : ∀ (s : State) (rest : List HostAccess) (w : Word) (i : Instr),
      s.pending = .regWrite 0x08 .word w :: rest → s.faulted = false → decode w = .ok i →
      step s = exec i (s.accept rest) := by
    intro s rest w i hp hf hi
    exact (step_cmd hp).trans (writeCmd_decoded hf hi)
  exact ⟨runs, fun s n i hf hi =>
    runs (s.withFetchWord 32 n) s.pending (tableWord 32 n) i rfl hf (decode_of_decodeTableWord hi)⟩

/-- Settles O4: R65's four grounds are the ways the decoder refuses a word, and an illegal word latches its fault. -/
theorem illegalWordRaisesIllegalCmdAndNothingElse : Obligations.IllegalWordRaisesIllegalCmdAndNothingElse := by
  intro w
  refine ⟨?_, fun s rest hw hf hp => ?_⟩
  · have h := illegal_iff w
    rw [zeroImm_any_iff, layer_any_iff] at h
    exact h
  · exact (step_cmd hp).trans (writeCmd_illegal hf hw)

/-! ### Totality -/

/-- A command behind a gate: nothing, or its flow to the end, a bus fault included. -/
theorem gate_next (b : Bool) (i : Instr) (f : Flow Unit) (s : State) :
    ∃ t, (if b then f.finish i else .next s) = .next t := by
  split
  · exact f.finish_next i
  · exact ⟨s, rfl⟩

theorem onLayer_next (i : Instr) (imm : Half) (run : LayerId → State → State) (s : State) :
    ∃ t, onLayer i imm run s = .next t := by
  unfold onLayer
  split
  · exact ⟨_, rfl⟩
  · exact ⟨_, rfl⟩

/-- Every command terminates in a next state (30_encoding.md R61). -/
theorem exec_next (i : Instr) (s : State) : ∃ t, exec i s = .next t := by
  cases i with
  | nop | init | deinit | setDrawColor _ | setDrawColorArgb | fontClear | fontAdd | setFontIndex _ | setFontName =>
    exact ⟨_, rfl⟩
  | setDrawBuffer imm | queryBack imm | flip imm => exact onLayer_next _ imm _ s
  | clear | drawPixel | drawLine | drawRect | drawRectFill | measureChar _ | measureStr _ | drawChar _ | drawStrL _
  | drawStrC _ | drawStrR _ => exact gate_next _ _ _ _

theorem writeCmd_next (w : Word) (s : State) : ∃ t, writeCmd w s = .next t := by
  unfold writeCmd
  split
  · exact ⟨s, rfl⟩
  · split
    · exact ⟨_, rfl⟩
    · next i _ => exact exec_next i s

theorem regWrite_next (r : Reg) (v : Word) (s : State) : ∃ t, regWrite r v s = .next t := by
  cases r with
  | cmd => exact writeCmd_next v s
  | _ => exact ⟨_, rfl⟩

theorem takeAccess_next (a : HostAccess) (s : State) : ∃ t, takeAccess a s = .next t := by
  cases a with
  | regWrite offset width v =>
    unfold takeAccess
    dsimp only
    split
    · exact regWrite_next _ v s
    · exact ⟨_, rfl⟩
  | _ => exact ⟨_, rfl⟩

theorem step_idle {s : State} (hp : s.pending = []) : step s = .next s := by
  unfold step hostStep
  rw [hp]

/-- Settles O9: idle, or an access, and each kind of access answers a state. -/
theorem everyStepAnswersAState : Obligations.EveryStepAnswersAState := by
  refine ⟨fun s => ?_, fun s => step_idle⟩
  cases hp : s.pending with
  | nil => exact ⟨s, step_idle hp⟩
  | cons a rest =>
    rw [step_of_pending hp]
    exact takeAccess_next a _

end Sys2Proof.Machine
end

section
/-!
The layer, flip and compositor commands (spec 40_layer_and_compositor.md R80 to R89): one rule per command and case,
then the statements, and the memory that only drawing commands write.
-/

namespace Sys2Proof.Machine

/-! ### Words and operands -/

/-- `op` and `imm16` share no bit, so the word is their sum (30_encoding.md R60). -/
theorem toNat_commandWord (op : Byte) (imm : Half) :
    (commandWord op imm).toNat = op.toNat + 65536 * imm.toNat := by
  have hop := op.isLt
  have himm := imm.isLt
  have disjoint := Nat.shiftLeft_add_eq_or_of_lt (show op.toNat < 2 ^ 16 by omega) imm.toNat
  rw [Nat.shiftLeft_eq] at disjoint
  rw [commandWord, BitVec.toNat_or, BitVec.toNat_shiftLeft, BitVec.toNat_setWidth, BitVec.toNat_setWidth,
    Nat.shiftLeft_eq, Nat.mod_eq_of_lt (by omega), Nat.mod_eq_of_lt (by omega), Nat.mod_eq_of_lt (by omega),
    Nat.lor_comm, ← disjoint]
  omega

/-- The two layer operands and the layers they name (30_encoding.md R63). -/
theorem exists_layerImm {s : State} {imm : Half} {x : Layer}
    (h : imm = 0 ∧ x = s.layer0 ∨ imm = 1 ∧ x = s.layer1) : ∃ l, imm = layerImm l ∧ x = s.layer l := by
  rcases h with ⟨rfl, rfl⟩ | ⟨rfl, rfl⟩
  · exact ⟨.layer0, rfl, rfl⟩
  · exact ⟨.layer1, rfl, rfl⟩

theorem onLayer_layerImm (i : Instr) (l : LayerId) (run : LayerId → State → State) (s : State) :
    onLayer i (layerImm l) run s = .next (run l s) := by
  rw [onLayer, layerOperand_layerImm]

/-- Which component each nibble of a pixel is (10_state.md R10). -/
theorem nibbles_pixelOfComponents (a r g b : Byte) :
    pixelAlpha (pixelOfComponents a r g b) = a.extractLsb' 0 4 ∧
    pixelRed (pixelOfComponents a r g b) = r.extractLsb' 0 4 ∧
    pixelGreen (pixelOfComponents a r g b) = g.extractLsb' 0 4 ∧
    pixelBlue (pixelOfComponents a r g b) = b.extractLsb' 0 4 := by
  refine ⟨?alpha, ?red, ?green, ?blue⟩
  case alpha =>
    exact (BitVec.extractLsb'_append_eq_of_le (by decide)).trans
      ((BitVec.extractLsb'_append_eq_of_le (by decide)).trans BitVec.extractLsb'_append_eq_left)
  case red =>
    exact (BitVec.extractLsb'_append_eq_of_le (by decide)).trans
      ((BitVec.extractLsb'_append_eq_of_le (by decide)).trans BitVec.extractLsb'_append_eq_right)
  case green =>
    exact (BitVec.extractLsb'_append_eq_of_le (by decide)).trans BitVec.extractLsb'_append_eq_right
  case blue => exact BitVec.extractLsb'_append_eq_right

/-- The low 4 bits of the 8-bit component that begins at bit `k` (30_encoding.md R63). -/
theorem lowNibble_component (w : Word) (k : Nat) : (w.extractLsb' k 8).extractLsb' 0 4 = w.extractLsb' k 4 := by
  apply BitVec.eq_of_getLsbD_eq
  intro i hi
  simp [hi, show i < 8 by omega]

/-! ### The two buffers of a layer -/

/-- The layer with its markers swapped (40_layer_and_compositor.md R88). -/
def Layer.flipped (x : Layer) : Layer := { x with front := x.back, back := x.front }

@[simp] theorem Layer.flipped_init (x : Layer) : x.flipped.init = x.init := rfl

@[simp] theorem Layer.flipped_backBuffer (x : Layer) : x.flipped.backBuffer = x.frontBuffer := rfl

@[simp] theorem Layer.flipped_flipped (x : Layer) : x.flipped.flipped = x := rfl

/-- With different markers, the back buffer is one of the two buffers and the front buffer is the other. -/
theorem Layer.backBuffer_frontBuffer_cases {x : Layer} (h : x.front ≠ x.back) :
    x.backBuffer = x.buf0 ∧ x.frontBuffer = x.buf1 ∨ x.backBuffer = x.buf1 ∧ x.frontBuffer = x.buf0 := by
  unfold Layer.backBuffer Layer.frontBuffer
  cases hf : x.front <;> cases hb : x.back
  · exact absurd (hf.trans hb.symm) h
  · exact .inr ⟨rfl, rfl⟩
  · exact .inl ⟨rfl, rfl⟩
  · exact absurd (hf.trans hb.symm) h

theorem Layer.backBuffer_ne_frontBuffer {x : Layer} (h : x.front ≠ x.back) (hb : x.buf0 ≠ x.buf1) :
    x.backBuffer ≠ x.frontBuffer := by
  rcases x.backBuffer_frontBuffer_cases h with ⟨back, front⟩ | ⟨back, front⟩ <;> rw [back, front]
  · exact hb
  · exact hb.symm

@[simp] theorem setScanout_scanOf (l : LayerId) (a : Word) (s : State) : (setScanout l a s).scanOf l = a := by
  cases l <;> rfl

/-! ### The rules of the commands -/

/-! SET_DRAW_BUFFER (40_layer_and_compositor.md R84). -/

theorem exec_setDrawBuffer_init {s : State} {l : LayerId} (h : (s.layer l).init = true) :
    exec (.setDrawBuffer (layerImm l)) s =
      .next { s with target := (s.layer l).backBuffer, tvalid := true } :=
  (onLayer_layerImm _ l selectTarget s).trans (congrArg _ (if_pos h))

theorem exec_setDrawBuffer_off {s : State} {l : LayerId} (h : (s.layer l).init = false) :
    exec (.setDrawBuffer (layerImm l)) s = .next { s with target := 0, tvalid := false } :=
  (onLayer_layerImm _ l selectTarget s).trans (congrArg _ (if_neg (Bool.eq_false_iff.mp h)))

/-! QUERY_BACK (R87). -/

theorem exec_queryBack_init {s : State} {l : LayerId} (h : (s.layer l).init = true) :
    exec (.queryBack (layerImm l)) s = .next (s.setResult (s.layer l).backBuffer true) :=
  (onLayer_layerImm _ l reportBack s).trans (congrArg _ (if_pos h))

theorem exec_queryBack_off {s : State} {l : LayerId} (h : (s.layer l).init = false) :
    exec (.queryBack (layerImm l)) s = .next (s.setResult 0 false) :=
  (onLayer_layerImm _ l reportBack s).trans (congrArg _ (if_neg (Bool.eq_false_iff.mp h)))

/-! FLIP (R88): the new front buffer is the old back buffer. -/

theorem exec_flip_init {s : State} {l : LayerId} (h : (s.layer l).init = true) :
    exec (.flip (layerImm l)) s =
      .next (setScanout l (s.layer l).backBuffer (s.setLayer l (s.layer l).flipped)) :=
  (onLayer_layerImm _ l flipLayer s).trans (congrArg _ (if_pos h))

theorem exec_flip_off {s : State} {l : LayerId} (h : (s.layer l).init = false) :
    exec (.flip (layerImm l)) s = .next s :=
  (onLayer_layerImm _ l flipLayer s).trans (congrArg _ (if_neg (Bool.eq_false_iff.mp h)))

/-! INIT and DEINIT (R82, R83). -/

theorem exec_init_ready {s : State} (h : s.state = .ready) : exec .init s = .next (s.setResult 0 true) :=
  congrArg _ (if_pos h)

/-- INIT outside READY goes on with the panel's answer (40_layer_and_compositor.md R82). -/
theorem exec_init_answer {s : State} {r : PanelAnswer} (h : s.state ≠ .ready) (hr : s.panelAnswer = r) :
    exec .init s = .next (finishInit r (requestPanelInit { s with state := .initializing })) := by
  subst hr
  exact congrArg _ (if_neg h)

theorem exec_init_fail {s : State} (h : s.state ≠ .ready) (hr : s.panelAnswer = .fail) :
    exec .init s = .next { s with
      state := .failed, result := 1, rv := true
      events := s.events ++ [.panelInit s.panelW s.panelH]
      panelAnswers := s.panelAnswers.tail, panelInits := s.panelInits + 1 } :=
  exec_init_answer h hr

theorem exec_init_ok {s : State} (h : s.state ≠ .ready) (hr : s.panelAnswer = .ok) :
    exec .init s = .next { s with
      state := .ready, result := 0, rv := true, fcount := 0, fvalid := false, fcur := 0
      layer0 := { s.layer0 with init := true, front := .slot0, back := .slot1 }
      layer1 := { s.layer1 with init := true, front := .slot0, back := .slot1 }
      scan0 := s.layer0.buf0, scan1 := s.layer1.buf0
      events := s.events ++ [.panelInit s.panelW s.panelH, .setScanout .layer0 s.layer0.buf0,
        .setScanout .layer1 s.layer1.buf0]
      panelAnswers := s.panelAnswers.tail, panelInits := s.panelInits + 1 } := by
  rw [exec_init_answer h hr, finishInit, initLayer_layer0, initLayer_layer1]
  simp [requestPanelInit, clearRegistry, State.setResult]

theorem exec_deinit (s : State) :
    exec .deinit s =
      .next (({ leaveReady (clearRegistry s) with tvalid := false, target := 0, state := .uninit }).setResult 0 true) :=
  rfl

theorem State.panelAnswer_of_queued {s : State} {a : PanelAnswer} {rest : List PanelAnswer}
    (h : s.panelAnswers = a :: rest) : s.panelAnswer = a := by
  rw [State.panelAnswer, h]

/-! ### The statements about single commands -/

/-- Settles O32: NOP answers the state it is given. -/
theorem nopChangesNothing : Obligations.NopChangesNothing := ⟨rfl, fun _ => rfl⟩

/-- Settles O33: outside READY, INIT ends as the panel's answer says, and an answer that is queued is that one. -/
theorem initBringsUpThePanel : Obligations.InitBringsUpThePanel := by
  refine ⟨rfl, fun s hs => ⟨s.panelAnswer, fun a rest => State.panelAnswer_of_queued, ?_⟩, fun s => ?_,
    fun s => ⟨exec_init_ready, fun hs => exec_init_fail hs, fun hs => exec_init_ok hs⟩⟩
  · cases ha : s.panelAnswer with
    | fail => exact exec_init_fail hs ha
    | ok => exact exec_init_ok hs ha
  · by_cases hs : s.state = .ready
    · exact ⟨_, exec_init_ready hs, rfl, .inl ⟨hs, rfl⟩⟩
    · cases ha : s.panelAnswer with
      | fail => exact ⟨_, exec_init_fail hs ha, rfl, .inr ⟨rfl, rfl⟩⟩
      | ok => exact ⟨_, exec_init_ok hs ha, rfl, .inl ⟨rfl, rfl⟩⟩

/-- Settles O34: by whether DEINIT leaves READY, which emptying the registry does not change. -/
theorem deinitTearsDown : Obligations.DeinitTearsDown := by
  refine ⟨rfl, fun s => ⟨fun hs => ?_, fun hs => ?_⟩⟩
  · rw [exec_deinit, leaveReady, if_pos (show (clearRegistry s).state = .ready from hs)]
    rfl
  · rw [exec_deinit, leaveReady, if_neg (show (clearRegistry s).state ≠ .ready from hs)]
    rfl

/-- Settles O35: the rules of SET_DRAW_BUFFER, for the layer that the operand names. -/
theorem setDrawBufferTakesTheBackBuffer : Obligations.SetDrawBufferTakesTheBackBuffer := by
  refine ⟨⟨rfl, rfl⟩, fun s imm x h => ?_⟩
  obtain ⟨l, rfl, rfl⟩ := exists_layerImm h
  exact ⟨exec_setDrawBuffer_init, exec_setDrawBuffer_off⟩

/-- Settles O36: the immediate is the upper half of the word and becomes COLOR. -/
theorem setDrawColorStoresThePixel : Obligations.SetDrawColorStoresThePixel :=
  fun raw => ⟨toNat_commandWord 0x09 raw, fun _ => rfl⟩

/-- Settles O37: the four nibbles of the pixel that A0's components make. -/
theorem setDrawColorArgbMasksComponents : Obligations.SetDrawColorArgbMasksComponents := by
  refine ⟨rfl, fun s => ⟨colorOperand s.a0, rfl, ?_⟩⟩
  obtain ⟨halpha, hred, hgreen, hblue⟩ := nibbles_pixelOfComponents (s.a0.extractLsb' 24 8) (s.a0.extractLsb' 16 8)
    (s.a0.extractLsb' 8 8) (s.a0.extractLsb' 0 8)
  rw [lowNibble_component] at halpha hred hgreen hblue
  exact ⟨halpha, hred, hgreen, hblue⟩

/-- Settles O38: the rules of QUERY_BACK, for the layer that the operand names. -/
theorem queryBackAnswersTheBackBuffer : Obligations.QueryBackAnswersTheBackBuffer := by
  refine ⟨⟨rfl, rfl⟩, fun s imm x h => ?_⟩
  obtain ⟨l, rfl, rfl⟩ := exists_layerImm h
  exact ⟨exec_queryBack_init, exec_queryBack_off⟩

/-- Settles O39: the rules of FLIP for each layer; the new front buffer is the old back buffer. -/
theorem flipSwapsAndProgramsTheFront : Obligations.FlipSwapsAndProgramsTheFront := by
  refine ⟨⟨rfl, rfl⟩, fun s front => ⟨?_, ?_, exec_flip_off (l := .layer0), exec_flip_off (l := .layer1)⟩⟩
  · rintro hinit rfl
    exact exec_flip_init (l := .layer0) hinit
  · rintro hinit rfl
    exact exec_flip_init (l := .layer1) hinit

/-- Settles O40: the back buffer after a FLIP is the front buffer before it, and the one programmed is the back buffer
before it; before the FLIP, `Mirrors` says that the front buffer was. -/
theorem flipTogglesTheBackBuffer : Obligations.FlipTogglesTheBackBuffer := by
  intro s l hinit hmarkers hbuffers
  have distinct := Layer.backBuffer_ne_frontBuffer hmarkers hbuffers
  generalize ht : setScanout l (s.layer l).backBuffer (s.setLayer l (s.layer l).flipped) = t
  have flipped : t.layer l = (s.layer l).flipped := by simp [← ht]
  have still : (t.layer l).init = true := by rw [flipped, Layer.flipped_init, hinit]
  refine ⟨_, t, _, _, exec_queryBack_init hinit, ht ▸ exec_flip_init hinit, exec_queryBack_init still,
    exec_flip_init still, ?_⟩
  rw [flipped, Layer.flipped_backBuffer]
  refine ⟨distinct, Layer.backBuffer_frontBuffer_cases hmarkers, fun hm => ?_, ⟨_, ?_, ?_, distinct.symm⟩, ?_⟩
  · obtain ⟨-, hscan, hlast⟩ := hm l hinit
    exact ⟨_, hlast, rfl, hscan ▸ distinct⟩
  · simp [← ht]
  · simp [← ht]
  · simp

/-! ### Memory: the commands that do not draw -/

theorem initLayer_mem (l : LayerId) (s : State) : (initLayer l s).mem = s.mem := by
  simp [initLayer]

theorem finishInit_mem (r : PanelAnswer) (s : State) : (finishInit r s).mem = s.mem := by
  cases r with
  | ok => simp [finishInit, initLayer_mem]
  | fail => rfl

theorem leaveReady_mem (s : State) : (leaveReady s).mem = s.mem := by
  unfold leaveReady
  split <;> rfl

theorem selectTarget_mem (l : LayerId) (s : State) : (selectTarget l s).mem = s.mem := by
  unfold selectTarget
  split <;> rfl

theorem reportBack_mem (l : LayerId) (s : State) : (reportBack l s).mem = s.mem := by
  unfold reportBack
  split <;> rfl

theorem flipLayer_mem (l : LayerId) (s : State) : (flipLayer l s).mem = s.mem := by
  unfold flipLayer
  dsimp only
  split
  · rw [setScanout_mem, State.setLayer_mem]
  · rfl

theorem addFont_mem (f : Font) (s : State) : (addFont f s).mem = s.mem := by
  unfold addFont
  split <;> rfl

theorem onLayer_mem {i : Instr} {imm : Half} {run : LayerId → State → State} {s t : State}
    (hrun : ∀ l, (run l s).mem = s.mem) (h : onLayer i imm run s = .next t) : t.mem = s.mem := by
  rcases onLayer_cases h with ⟨l, -, rfl⟩ | rfl
  · exact hrun l
  · rfl

theorem exec_measures_mem {i : Instr} {s t : State}
    (hi : (∃ ch, i = .measureChar ch) ∨ ∃ len, i = .measureStr len) (h : exec i s = .next t) : t.mem = s.mem := by
  obtain ⟨v, b, rfl⟩ | ⟨c, x, -, rfl⟩ := exec_measures hi h <;> rfl

/-- Settles O26: no shared operation of a command that does not draw stores anything. -/
theorem onlyDrawingCommandsWriteMemory : Obligations.OnlyDrawingCommandsWriteMemory := by
  intro i s t hraster htext h
  cases i with
  | nop | setDrawColor _ | setDrawColorArgb | fontClear => cases h; rfl
  | init =>
    cases h
    split
    · rfl
    · exact finishInit_mem _ _
  | deinit => cases h; exact leaveReady_mem (clearRegistry s)
  | setDrawBuffer imm => exact onLayer_mem (fun l => selectTarget_mem l s) h
  | queryBack imm => exact onLayer_mem (fun l => reportBack_mem l s) h
  | flip imm => exact onLayer_mem (fun l => flipLayer_mem l s) h
  | fontAdd =>
    cases h
    split
    · rfl
    · exact addFont_mem _ s
  | setFontIndex _ | setFontName => cases h; split <;> rfl
  | measureChar ch => exact exec_measures_mem (.inl ⟨ch, rfl⟩) h
  | measureStr len => exact exec_measures_mem (.inr ⟨len, rfl⟩) h
  | clear | drawPixel | drawLine | drawRect | drawRectFill => cases hraster
  | drawChar _ | drawStrL _ | drawStrC _ | drawStrR _ => cases htext

end Sys2Proof.Machine
end

section
/-!
The points of a line and the pixels of a rectangle's outline: where they lie, which they are, how many, and that none
comes twice (41_rasterizer.md R110 to R114).
-/

namespace Sys2Proof.Machine

theorem Coord.ext_toNat {p q : Coord} (hx : p.x.toNat = q.x.toNat) (hy : p.y.toNat = q.y.toNat) : p = q := by
  rw [← pixelAt_toNat p, hx, hy, pixelAt_toNat]

/-! ### The order of the endpoints -/

theorem ComesFirst.x_le {p q : Coord} (h : ComesFirst p q) : p.x.toNat ≤ q.x.toNat := by
  rcases h with h | ⟨h, -⟩
  · exact h.le
  · rw [h]

theorem orderEnds_of_comesFirst {p q : Coord} (h : ComesFirst p q) : orderEnds p q = (p, q) := if_pos h

/-- Only equal points each come first, so the endpoints have one order (41_rasterizer.md R109). -/
theorem ComesFirst.antisymm {p q : Coord} (h : ComesFirst p q) (h' : ComesFirst q p) : p = q := by
  have hx : p.x.toNat = q.x.toNat := Nat.le_antisymm h.x_le h'.x_le
  have hy : p.y.toNat ≤ q.y.toNat := (h.resolve_left (by omega)).2
  have hy' : q.y.toNat ≤ p.y.toNat := (h'.resolve_left (by omega)).2
  exact Coord.ext_toNat hx (Nat.le_antisymm hy hy')

theorem orderEnds_swap_of_comesFirst {p q : Coord} (h : ComesFirst p q) : orderEnds q p = (p, q) := by
  unfold orderEnds
  split
  · next h' => rw [h.antisymm h']
  · rfl

/-- Both orders of the endpoints name one line (41_rasterizer.md R109). -/
theorem lineInOrder_of_comesFirst {p q : Coord} (h : ComesFirst p q) :
    lineInOrder p q = pointsInOrder p q ∧ lineInOrder q p = pointsInOrder p q := by
  rw [lineInOrder_eq, lineInOrder_eq, orderEnds_of_comesFirst h, orderEnds_swap_of_comesFirst h]
  exact ⟨rfl, rfl⟩

theorem mem_pointsInOrder {s e p : Coord} : p ∈ pointsInOrder s e ↔ OnLine s e p := by
  simp only [pointsInOrder, OnLine, List.mem_map, List.mem_range, Nat.lt_succ_iff, eq_comm]

/-! ### How far the minor axis has moved -/

theorem minor_div_first (minor major : Nat) : (0 * minor + major / 2) / major = 0 := by
  rw [Nat.zero_mul, Nat.zero_add, Nat.div_div_eq_div_mul, Nat.div_eq_zero_iff]
  omega

theorem minor_div_last {minor major : Nat} (h : minor ≤ major) : (major * minor + major / 2) / major = minor := by
  rcases Nat.eq_zero_or_pos major with h0 | h0
  · rw [h0, Nat.div_zero]
    omega
  · rw [Nat.mul_add_div h0, Nat.div_eq_of_lt (Nat.div_lt_self h0 (by decide)), Nat.add_zero]

/-- `minor_div_le`, also on the line of one point. -/
theorem minor_div_le_minor {minor major i : Nat} (hi : i ≤ major) : (i * minor + major / 2) / major ≤ minor := by
  rcases Nat.eq_zero_or_pos major with h0 | h0
  · rw [h0, Nat.div_zero]
    exact Nat.zero_le _
  · exact minor_div_le h0 hi

/-! ### The points of a line -/

section
variable {p q : Coord}

theorem alongY_zero (p q : Coord) : alongY p q 0 = p.y.toNat := by
  unfold alongY
  split <;> rfl

theorem alongY_lineDy (p q : Coord) : alongY p q (lineDy p q) = q.y.toNat := by
  unfold alongY lineDy
  split <;> omega

/-- Within `dy` steps the line's `y` stays between the endpoints', so it does not wrap. -/
theorem alongY_between {n : Nat} (hn : n ≤ lineDy p q) :
    min p.y.toNat q.y.toNat ≤ alongY p q n ∧ alongY p q n ≤ max p.y.toNat q.y.toNat := by
  unfold lineDy at hn
  unfold alongY
  split <;> omega

theorem alongY_inj {m n : Nat} (hm : m ≤ lineDy p q) (hn : n ≤ lineDy p q) (h : alongY p q m = alongY p q n) :
    m = n := by
  unfold lineDy at hm hn
  unfold alongY at h
  split at h <;> omega

theorem linePoint_shallow (h : lineDy p q ≤ lineDx p q) (i : Nat) : linePoint p q i =
    pixelAt (p.x.toNat + i) (alongY p q ((i * lineDy p q + lineDx p q / 2) / lineDx p q)) :=
  if_pos h

theorem linePoint_steep (h : lineDx p q < lineDy p q) (i : Nat) : linePoint p q i =
    pixelAt (p.x.toNat + (i * lineDx p q + lineDy p q / 2) / lineDy p q) (alongY p q i) :=
  if_neg (Nat.not_le.mpr h)

/-- A point `j` columns and `k` rows along the line, both within its extent: its coordinates do not wrap
(41_rasterizer.md R111). -/
theorem pixelAt_alongY_toNat {j k : Nat} (hx : p.x.toNat ≤ q.x.toNat) (hj : j ≤ lineDx p q) (hk : k ≤ lineDy p q) :
    (pixelAt (p.x.toNat + j) (alongY p q k)).x.toNat = p.x.toNat + j ∧
      (pixelAt (p.x.toNat + j) (alongY p q k)).y.toNat = alongY p q k := by
  have hxlt := q.x.isLt
  have hylt : max p.y.toNat q.y.toNat < 2 ^ 16 := Nat.max_lt.mpr ⟨p.y.isLt, q.y.isLt⟩
  have hy := (alongY_between hk).2
  unfold lineDx at hj
  simp only [pixelAt, BitVec.toNat_ofNat]
  omega

theorem linePoint_shallow_toNat (hx : p.x.toNat ≤ q.x.toNat) (h : lineDy p q ≤ lineDx p q) {i : Nat}
    (hi : i ≤ max (lineDx p q) (lineDy p q)) :
    (linePoint p q i).x.toNat = p.x.toNat + i ∧
      (linePoint p q i).y.toNat = alongY p q ((i * lineDy p q + lineDx p q / 2) / lineDx p q) := by
  rw [Nat.max_eq_left h] at hi
  rw [linePoint_shallow h]
  exact pixelAt_alongY_toNat hx hi (minor_div_le_minor hi)

theorem linePoint_steep_toNat (hx : p.x.toNat ≤ q.x.toNat) (h : lineDx p q < lineDy p q) {i : Nat}
    (hi : i ≤ max (lineDx p q) (lineDy p q)) :
    (linePoint p q i).x.toNat = p.x.toNat + (i * lineDx p q + lineDy p q / 2) / lineDy p q ∧
      (linePoint p q i).y.toNat = alongY p q i := by
  rw [Nat.max_eq_right h.le] at hi
  rw [linePoint_steep h]
  exact pixelAt_alongY_toNat hx (minor_div_le_minor hi) hi

theorem linePoint_zero (p q : Coord) : linePoint p q 0 = p := by
  rcases Nat.lt_or_ge (lineDx p q) (lineDy p q) with h | h
  · rw [linePoint_steep h, minor_div_first, alongY_zero, Nat.add_zero, pixelAt_toNat]
  · rw [linePoint_shallow h, minor_div_first, alongY_zero, Nat.add_zero, pixelAt_toNat]

theorem linePoint_last (hx : p.x.toNat ≤ q.x.toNat) : linePoint p q (max (lineDx p q) (lineDy p q)) = q := by
  have hdx : p.x.toNat + lineDx p q = q.x.toNat := Nat.add_sub_cancel' hx
  rcases Nat.lt_or_ge (lineDx p q) (lineDy p q) with h | h
  · rw [Nat.max_eq_right h.le, linePoint_steep h, minor_div_last h.le, alongY_lineDy, hdx, pixelAt_toNat]
  · rw [Nat.max_eq_left h, linePoint_shallow h, minor_div_last h, alongY_lineDy, hdx, pixelAt_toNat]

/-- The line stays in the bounding box of its endpoints (41_rasterizer.md R111). -/
theorem linePoint_inRect (hx : p.x.toNat ≤ q.x.toNat) {i : Nat} (hi : i ≤ max (lineDx p q) (lineDy p q)) :
    InRect p q (linePoint p q i) := by
  have box : ∀ {j k : Nat} {r : Coord}, j ≤ lineDx p q → k ≤ lineDy p q →
      r.x.toNat = p.x.toNat + j ∧ r.y.toNat = alongY p q k → InRect p q r := by
    rintro j k r hj hk ⟨hrx, hry⟩
    unfold lineDx at hj
    exact ⟨by omega, hry ▸ alongY_between hk⟩
  rcases Nat.lt_or_ge (lineDx p q) (lineDy p q) with h | h
  · have hi' : i ≤ lineDy p q := by rwa [Nat.max_eq_right h.le] at hi
    exact box (minor_div_le_minor hi') hi' (linePoint_steep_toNat hx h hi)
  · have hi' : i ≤ lineDx p q := by rwa [Nat.max_eq_left h] at hi
    exact box hi' (minor_div_le_minor hi') (linePoint_shallow_toNat hx h hi)

/-- Each step moves along the major axis, so no point comes twice. -/
theorem linePoint_inj (hx : p.x.toNat ≤ q.x.toNat) {i j : Nat} (hi : i ≤ max (lineDx p q) (lineDy p q))
    (hj : j ≤ max (lineDx p q) (lineDy p q)) (he : linePoint p q i = linePoint p q j) : i = j := by
  rcases Nat.lt_or_ge (lineDx p q) (lineDy p q) with h | h
  · have hy := congrArg (·.y.toNat) he
    simp only [linePoint_steep_toNat hx h hi, linePoint_steep_toNat hx h hj] at hy
    rw [Nat.max_eq_right h.le] at hi hj
    exact alongY_inj hi hj hy
  · have hx' := congrArg (·.x.toNat) he
    simp only [linePoint_shallow_toNat hx h hi, linePoint_shallow_toNat hx h hj] at hx'
    exact Nat.add_left_cancel hx'

theorem pointsInOrder_length (p q : Coord) : (pointsInOrder p q).length = max (lineDx p q) (lineDy p q) + 1 := by
  rw [pointsInOrder, List.length_map, List.length_range]

theorem pointsInOrder_nodup (hx : p.x.toNat ≤ q.x.toNat) : (pointsInOrder p q).Nodup :=
  List.Nodup.map_on (fun _ hi _ hj he => linePoint_inj hx (Nat.le_of_lt_succ (List.mem_range.mp hi))
    (Nat.le_of_lt_succ (List.mem_range.mp hj)) he) List.nodup_range

end

/-! ### The pixels of an outline -/

/-- A side of an outline without its corners: column `x`, the rows between `y0` and `y1` (41_rasterizer.md R112). -/
def sideInOrder (x y0 y1 : Nat) : List Coord := (List.range' (y0 + 1) (y1 - (y0 + 1))).map fun y => pixelAt x y

/-- The outline of the rectangle of columns `x0` to `x1` and rows `y0` to `y1`: its two rows and its two sides. -/
def boxInOrder (x0 x1 y0 y1 : Nat) : List Coord :=
  rowInOrder x0 x1 y0 ++ (if y1 ≠ y0 then rowInOrder x0 x1 y1 else []) ++ sideInOrder x0 y0 y1 ++
    (if x1 ≠ x0 then sideInOrder x1 y0 y1 else [])

theorem outlineInOrder_eq (a b : Coord) : outlineInOrder a b =
    boxInOrder (min a.x.toNat b.x.toNat) (max a.x.toNat b.x.toNat) (min a.y.toNat b.y.toNat)
      (max a.y.toNat b.y.toNat) := rfl

theorem rowInOrder_length (x0 x1 y : Nat) : (rowInOrder x0 x1 y).length = x1 + 1 - x0 := by
  rw [rowInOrder, List.length_map, List.length_range']

theorem sideInOrder_length (x y0 y1 : Nat) : (sideInOrder x y0 y1).length = y1 - (y0 + 1) := by
  rw [sideInOrder, List.length_map, List.length_range']

theorem RowMajorBefore.ne {p q : Coord} (h : RowMajorBefore p q) : p ≠ q := by
  rintro rfl
  exact h.asymm h

theorem rowInOrder_nodup {x0 x1 y : Nat} (hx : x1 < 2 ^ 16) : (rowInOrder x0 x1 y).Nodup :=
  (rowInOrder_pairwise hx).imp RowMajorBefore.ne

theorem fillInOrder_nodup (a b : Coord) : (fillInOrder a b).Nodup :=
  (fillInOrder_pairwise a b).imp RowMajorBefore.ne

section
variable {x x0 x1 y0 y1 : Nat}

theorem mem_sideInOrder (hx : x < 2 ^ 16) (hy : y1 < 2 ^ 16) {p : Coord} :
    p ∈ sideInOrder x y0 y1 ↔ p.x.toNat = x ∧ y0 < p.y.toNat ∧ p.y.toNat < y1 := by
  simp only [sideInOrder, List.mem_map, List.mem_range'_1]
  constructor
  · rintro ⟨y, hy', rfl⟩
    simp only [pixelAt, BitVec.toNat_ofNat]
    omega
  · rintro ⟨rfl, hp⟩
    exact ⟨p.y.toNat, by omega, pixelAt_toNat p⟩

theorem sideInOrder_pairwise (hy : y1 < 2 ^ 16) : (sideInOrder x y0 y1).Pairwise RowMajorBefore := by
  refine List.pairwise_map.mpr ((List.pairwise_lt_range' ..).imp_of_mem fun {m n} hm hn hlt => .inl ?_)
  have hm := List.mem_range'_1.mp hm
  have hn := List.mem_range'_1.mp hn
  simp only [pixelAt, BitVec.toNat_ofNat]
  omega

theorem sideInOrder_nodup (hy : y1 < 2 ^ 16) : (sideInOrder x y0 y1).Nodup :=
  (sideInOrder_pairwise hy).imp RowMajorBefore.ne

theorem nodup_ite_nil {c : Prop} [Decidable c] {l : List Coord} (h : l.Nodup) : (if c then l else []).Nodup := by
  split
  · exact h
  · exact List.nodup_nil

/-- The four parts of an outline, and which pixels each holds (41_rasterizer.md R112). -/
theorem mem_boxInOrder (hx : x0 ≤ x1) (hx1 : x1 < 2 ^ 16) (hy : y0 ≤ y1) (hy1 : y1 < 2 ^ 16) {p : Coord} :
    p ∈ boxInOrder x0 x1 y0 y1 ↔
      ((x0 ≤ p.x.toNat ∧ p.x.toNat ≤ x1) ∧ (y0 ≤ p.y.toNat ∧ p.y.toNat ≤ y1)) ∧
        (p.x.toNat = x0 ∨ p.x.toNat = x1 ∨ p.y.toNat = y0 ∨ p.y.toNat = y1) := by
  simp only [boxInOrder, List.mem_append, List.mem_ite_nil_right, mem_rowInOrder hx1 hy1,
    mem_rowInOrder hx1 (hy.trans_lt hy1), mem_sideInOrder hx1 hy1, mem_sideInOrder (hx.trans_lt hx1) hy1]
  omega

/-- The rows lie at `y0` and `y1`, the sides strictly between them, each at its own column. -/
theorem boxInOrder_nodup (hx : x0 ≤ x1) (hx1 : x1 < 2 ^ 16) (hy : y0 ≤ y1) (hy1 : y1 < 2 ^ 16) :
    (boxInOrder x0 x1 y0 y1).Nodup := by
  have hx0 := hx.trans_lt hx1
  have hy0 := hy.trans_lt hy1
  unfold boxInOrder
  refine List.Nodup.append (List.Nodup.append (List.Nodup.append (rowInOrder_nodup hx1)
    (nodup_ite_nil (rowInOrder_nodup hx1)) ?_) (sideInOrder_nodup hy1) ?_) (nodup_ite_nil (sideInOrder_nodup hy1)) ?_
  all_goals
    intro p
    simp only [List.mem_append, List.mem_ite_nil_right, mem_rowInOrder hx1 hy0, mem_rowInOrder hx1 hy1,
      mem_sideInOrder hx1 hy1, mem_sideInOrder hx0 hy1]
    omega

theorem boxInOrder_length (x0 x1 y0 y1 : Nat) : (boxInOrder x0 x1 y0 y1).length =
    (x1 + 1 - x0) + (if y1 ≠ y0 then x1 + 1 - x0 else 0) + (y1 - (y0 + 1)) +
      (if x1 ≠ x0 then y1 - (y0 + 1) else 0) := by
  simp only [boxInOrder, List.length_append, apply_ite List.length, List.length_nil, rowInOrder_length,
    sideInOrder_length]

end

theorem mem_outlineInOrder {a b p : Coord} : p ∈ outlineInOrder a b ↔ OnOutline a b p := by
  rw [outlineInOrder_eq, mem_boxInOrder min_le_max (Nat.max_lt.mpr ⟨a.x.isLt, b.x.isLt⟩) min_le_max
    (Nat.max_lt.mpr ⟨a.y.isLt, b.y.isLt⟩), OnOutline, InRect]
  simp only [← BitVec.toNat_inj]
  omega

theorem outlineInOrder_nodup (a b : Coord) : (outlineInOrder a b).Nodup :=
  boxInOrder_nodup min_le_max (Nat.max_lt.mpr ⟨a.x.isLt, b.x.isLt⟩) min_le_max (Nat.max_lt.mpr ⟨a.y.isLt, b.y.isLt⟩)

/-- The stores of an outline of `w` columns and `h` rows: its top row, its bottom row if it is another, its left side,
its right side if it is another (41_rasterizer.md R112, R114). -/
theorem outlineInOrder_length {a b : Coord} {w h : Nat}
    (hw : w = max a.x.toNat b.x.toNat - min a.x.toNat b.x.toNat + 1)
    (hh : h = max a.y.toNat b.y.toNat - min a.y.toNat b.y.toNat + 1) :
    (outlineInOrder a b).length = w + (if h ≠ 1 then w else 0) + (h - 2) + (if w ≠ 1 then h - 2 else 0) := by
  have hrow : max a.x.toNat b.x.toNat + 1 - min a.x.toNat b.x.toNat = w := by omega
  have hside : max a.y.toNat b.y.toNat - (min a.y.toNat b.y.toNat + 1) = h - 2 := by omega
  have hrows : max a.y.toNat b.y.toNat ≠ min a.y.toNat b.y.toNat ↔ h ≠ 1 := by omega
  have hsides : max a.x.toNat b.x.toNat ≠ min a.x.toNat b.x.toNat ↔ w ≠ 1 := by omega
  rw [outlineInOrder_eq, boxInOrder_length]
  simp only [hrow, hside, hrows, hsides]

theorem fillInOrder_length (a b : Coord) : (fillInOrder a b).length =
    (max a.y.toNat b.y.toNat + 1 - min a.y.toNat b.y.toNat) *
      (max a.x.toNat b.x.toNat + 1 - min a.x.toNat b.x.toNat) := by
  simp only [fillInOrder, List.length_flatMap, rowInOrder_length, List.map_const', List.sum_replicate,
    List.length_range', smul_eq_mul]

end Sys2Proof.Machine
end

section
/-!
The rasterizer commands: the no-ops of R102, and the set of pixels that each command paints (41_rasterizer.md R104 to
R114).
-/

namespace Sys2Proof.Machine

/-! ### With nothing selected -/

theorem withTarget_invalid {s : State} (h : s.tvalid = false) (r : Result) : withTarget s r = .next s := by
  rw [withTarget, h]
  rfl

theorem withText_unselected {s : State} (h : s.tvalid = false ∨ s.fvalid = false) (r : Result) :
    withText s r = .next s := by
  rcases h with h | h <;> simp [withText, h]

/-- Settles O41: every arm of a rasterizer or text command is behind its gate. -/
theorem unselectedStateMakesDrawingANoOp : Obligations.UnselectedStateMakesDrawingANoOp := by
  refine fun i s => ⟨fun hi ht => ?_, fun hi h => ?_⟩
  · cases i with
    | clear | drawPixel | drawLine | drawRect | drawRectFill => exact withTarget_invalid ht _
    | _ => cases hi
  · cases i with
    | drawChar _ | drawStrL _ | drawStrC _ | drawStrR _ => exact withText_unselected h _
    | _ => cases hi

/-! ### What a rasterizer command paints -/

/-- A rasterizer command whose list of accesses stores the pixels `P` paints them. -/
theorem exec_raster_paints {i : Instr} {s : State} {ps : List Coord} {P : Coord → Prop} (hi : isRaster i = true)
    (ht : s.tvalid = true) (hw : Memory.wf s.mem = true) (hl : s.accesses Font.blank i = ps.map .store)
    (hP : ∀ p, p ∈ ps ↔ P p) (hs : s.Storable P) : ∃ t, exec i s = .next t ∧ Paints s P t := by
  obtain ⟨t, hstore, hpaints, -⟩ := storePixels_paints hw fun p hp => hs p ((hP p).mp hp)
  refine ⟨t, ?_, hpaints.congr hP⟩
  rw [exec_raster hi ht Font.blank, hl, perform_stores, hstore, Flow.finish]

/-! CLEAR (R104). -/

/-- Each index of the frame buffer is that of a pixel CLEAR stores. -/
theorem State.exists_mem_bufferInOrder {s : State} {i : Nat} (hi : i < s.panelW.toNat * s.panelH.toNat) :
    ∃ p ∈ s.bufferInOrder, s.pixelAddr p = s.indexAddr i := by
  have hmem : pixelAt (i % s.panelW.toNat) (i / s.panelW.toNat) ∈ s.bufferInOrder :=
    List.mem_map.mpr ⟨i, List.mem_range.mpr hi, rfl⟩
  refine ⟨_, hmem, congrArg s.indexAddr ?_⟩
  have hW : 0 < s.panelW.toNat := Nat.pos_of_ne_zero fun h0 => by simp [h0] at hi
  have hx := (Nat.mod_lt i hW).trans s.panelW.isLt
  have hy := (Nat.div_lt_of_lt_mul hi).trans s.panelH.isLt
  rw [State.pixelIndex, pixelAt, BitVec.toNat_ofNat, BitVec.toNat_ofNat, Nat.mod_eq_of_lt hx, Nat.mod_eq_of_lt hy,
    Nat.mul_comm, Nat.mod_add_div]

/-- Painting pixels in range drops none, so OOB stays. -/
theorem Paints.frame_of_inRange {s t : State} {P : Coord → Prop} (h : Paints s P t)
    (hP : ∀ p, P p → s.inRange p = true) : t = { s with mem := t.mem } := by
  have hoob : t.oob = s.oob := by
    rw [Bool.eq_iff_iff, h.oob]
    refine or_iff_left ?_
    rintro ⟨-, p, hp, hr⟩
    rw [hP p hp] at hr
    cases hr
  rw [h.frame, hoob]

/-- Settles O42: CLEAR paints the pixels in range, whose addresses are those of the buffer's indices. -/
theorem clearFillsTheFrameBuffer : Obligations.ClearFillsTheFrameBuffer := by
  refine ⟨rfl, fun s ht hw hbacked => ?_⟩
  have hin : ∀ p, p ∈ s.bufferInOrder → s.inRange p = true := fun _ => State.inRange_of_mem_bufferInOrder
  obtain ⟨t, hexec, hpaints⟩ := exec_raster_paints (i := .clear) rfl ht hw rfl (fun _ => Iff.rfl)
    fun p hp _ => hbacked _ (State.pixelIndex_lt (hin p hp))
  refine ⟨t, hexec, hpaints.frame_of_inRange hin, fun i hi => ?_, fun a ha => ?_⟩
  · obtain ⟨p, hp, haddr⟩ := State.exists_mem_bufferInOrder hi
    have hdrawn := hpaints.drawn p hp (.inr (hin p hp))
    rw [haddr] at hdrawn
    exact hdrawn
  · exact hpaints.kept a fun p hp _ => ha _ (State.pixelIndex_lt (hin p hp))

/-! DRAW_PIXEL (R105). -/

theorem exec_drawPixel_fails {s : State} {p : Coord} (ht : s.tvalid = true) (hp : AsPoint s.a0 p) (ha : s.Admits p)
    (h : s.backed (s.pixelAddr p) = false ∨ s.backed (s.pixelAddr p + 1) = false) :
    exec .drawPixel s = .next (raiseFault .busWrite (s.pixelAddr p) (encode .drawPixel) s) := by
  rw [exec, execDrawPixel, withTarget_valid ht, ← pointOf_eq, hp.pointOf_eq, pixelWrite_admitted ha, memWrite_trap h,
    Flow.finish]

/-- Settles O43. -/
theorem drawPixelPaintsItsPixel : Obligations.DrawPixelPaintsItsPixel := by
  refine ⟨rfl, fun s p ht hw hp => ⟨exec_raster_paints (i := .drawPixel) (ps := [p]) rfl ht hw ?_ (by simp),
    exec_drawPixel_fails ht hp⟩⟩
  rw [State.accesses, hp.pointOf_eq, List.map_singleton]

/-! DRAW_LINE (R106, R109 to R111). -/

/-- Settles O44: for both orders of the operands the stores are the points from the endpoint that comes first. -/
theorem drawLinePaintsTheClosedForm : Obligations.DrawLinePaintsTheClosedForm := by
  refine ⟨rfl, fun s p q ht hw hpq hops => ?_⟩
  refine exec_raster_paints (i := .drawLine) (ps := pointsInOrder p q) rfl ht hw ?_ fun _ => mem_pointsInOrder
  rcases hops with ⟨h0, h1⟩ | ⟨h0, h1⟩
  · rw [State.accesses, h0.pointOf_eq, h1.pointOf_eq, (lineInOrder_of_comesFirst hpq).1]
  · rw [State.accesses, h0.pointOf_eq, h1.pointOf_eq, (lineInOrder_of_comesFirst hpq).2]

/-- Settles O45: DRAW_LINE and ALine store `pointsInOrder`, whose points step along the major axis. -/
theorem linePixelsAreTheClosedFormInOrder : Obligations.LinePixelsAreTheClosedFormInOrder := by
  intro p q h
  have hx := h.x_le
  obtain ⟨hline, hswap⟩ := lineInOrder_of_comesFirst h
  rw [aLine_eq, linePixels_eq, linePixels_eq, hline, hswap]
  exact ⟨rfl, rfl, rfl, pointsInOrder_length p q, pointsInOrder_nodup hx, linePoint_zero p q, linePoint_last hx,
    fun i hi => ⟨linePoint_inRect hx hi, fun hs => linePoint_shallow_toNat hx hs hi,
      fun hs => linePoint_steep_toNat hx hs hi⟩⟩

/-! DRAW_RECT and DRAW_RECT_FILL (R112 to R114). -/

/-- Settles O46. -/
theorem drawRectPaintsTheOutline : Obligations.DrawRectPaintsTheOutline := by
  refine ⟨rfl, fun s a b ht hw ha hb => ?_⟩
  refine exec_raster_paints (i := .drawRect) (ps := outlineInOrder a b) rfl ht hw ?_ fun _ => mem_outlineInOrder
  rw [State.accesses, ha.pointOf_eq, hb.pointOf_eq]

/-- Settles O47. -/
theorem drawRectFillPaintsTheRectangle : Obligations.DrawRectFillPaintsTheRectangle := by
  refine ⟨rfl, fun s a b ht hw ha hb => ?_⟩
  refine exec_raster_paints (i := .drawRectFill) (ps := fillInOrder a b) rfl ht hw ?_ fun _ => mem_fillInOrder
  rw [State.accesses, ha.pointOf_eq, hb.pointOf_eq]

/-- Settles O48: the rows of the fill, and the rows and sides of the outline; no pixel is in two of them. -/
theorem rectangleStoreCounts : Obligations.RectangleStoreCounts := by
  intro a b w h hw hh
  rw [fillPixels_eq, rectPixels_eq]
  refine ⟨?_, fillInOrder_nodup a b, outlineInOrder_nodup a b, ?_, ?_⟩
  · rw [fillInOrder_length, Nat.mul_comm]
    congr 1 <;> omega
  · intro hw2 hh2
    rw [outlineInOrder_length hw hh, if_pos (by omega), if_pos (by omega)]
    omega
  · rintro (h1 | h1)
    all_goals
      rw [outlineInOrder_length hw hh, if_neg (not_not_intro h1)]
      split <;> omega

end Sys2Proof.Machine
end

section
/-!
The font registry (spec 42_glyph_engine.md R140 to R144): one rule per command and case.
-/

namespace Sys2Proof.Machine

/-- Settles O50. -/
theorem fontClearEmptiesTheRegistry : Obligations.FontClearEmptiesTheRegistry := ⟨rfl, fun _ => rfl⟩

/-! ### FONT_ADD (R141) -/

theorem highHalf_eq (v : Word) : highHalf v = BitVec.ofNat 16 (v.toNat / 65536) := by
  apply BitVec.eq_of_toNat_eq
  simp [highHalf, Nat.shiftRight_eq_div_pow]

/-- The reserved half of A4 is 0 exactly when A4 is below 2^16 (30_encoding.md R66). -/
theorem highHalf_eq_zero_iff (v : Word) : highHalf v = 0 ↔ v.toNat < 65536 := by
  have hv := v.isLt
  rw [highHalf_eq, ← BitVec.toNat_inj, BitVec.toNat_ofNat, show (0 : Half).toNat = 0 from rfl]
  omega

theorem exec_fontAdd_illegal {s : State} (h : 65536 ≤ s.a4.toNat) :
    exec .fontAdd s = .next (raiseFault .illegalOperand 0 (encode .fontAdd) s) := by
  rw [exec, execFontAdd, if_pos fun h0 => Nat.not_lt.mpr h ((highHalf_eq_zero_iff s.a4).mp h0)]

theorem exec_fontAdd_legal {s : State} (h : s.a4.toNat < 65536) :
    exec .fontAdd s = .next (addFont (fontOperand s) s) := by
  rw [exec, execFontAdd, if_neg (not_not_intro ((highHalf_eq_zero_iff s.a4).mpr h))]

theorem addFont_full {f : Font} {s : State} (h : s.fcount = s.cfg.maxFonts) : addFont f s = s.setResult 0 false :=
  if_pos h

theorem addFont_appends {f : Font} {s : State} (h : s.fcount ≠ s.cfg.maxFonts) :
    addFont f s = { s with
      fonts := s.fonts.set s.fcount f, result := BitVec.ofNat 32 s.fcount, rv := true, fcount := s.fcount + 1 } :=
  if_neg h

theorem fontOperand_eq (s : State) : fontOperand s =
    { name := s.a0, desc := s.a1, blob := s.a2
      height := BitVec.ofNat 16 s.a3.toNat, spaceWidth := BitVec.ofNat 16 (s.a3.toNat / 65536)
      charGap := BitVec.ofNat 16 s.a4.toNat } := by
  rw [fontOperand, lowHalf_eq, lowHalf_eq, highHalf_eq]

/-- Settles O51: the reserved half of A4 first, then the space left in the table. -/
theorem fontAddAppendsTheOperands : Obligations.FontAddAppendsTheOperands := by
  refine ⟨rfl, fun s => ⟨exec_fontAdd_illegal, fun ha hfull => ?_, fun ha hspace => ?_⟩⟩
  · rw [exec_fontAdd_legal ha, addFont_full hfull, State.setResult]
  · rw [exec_fontAdd_legal ha, addFont_appends hspace, fontOperand_eq]

/-! ### Selecting a font (R143, R144) -/

theorem exec_setFontIndex_registered {s : State} {idx : Half} (h : idx.toNat < s.fcount) :
    exec (.setFontIndex idx) s = .next { s with fcur := idx.toNat, fvalid := true } := by
  rw [exec, execSetFontIndex, if_pos h]

theorem exec_setFontIndex_other {s : State} {idx : Half} (h : s.fcount ≤ idx.toNat) :
    exec (.setFontIndex idx) s = .next s := by
  rw [exec, execSetFontIndex, if_neg (Nat.not_lt.mpr h)]

/-- Settles O52. -/
theorem setFontIndexSelectsRegisteredOnly : Obligations.SetFontIndexSelectsRegisteredOnly :=
  fun idx => ⟨toNat_commandWord 0x22 idx, fun _ => ⟨exec_setFontIndex_registered, exec_setFontIndex_other⟩⟩

/-- The search answers the first registered entry with the key (R144). -/
theorem findFont_eq_some {s : State} {key : Word} {i : Nat} {f : Font} (hi : i < s.fcount)
    (hf : s.fonts[i]? = some f) (hkey : f.name = key)
    (hfirst : ∀ (j : Nat) (g : Font), j < i → s.fonts[j]? = some g → g.name ≠ key) : findFont s key = some i := by
  obtain ⟨hlen, hget⟩ := List.getElem?_eq_some_iff.mp hf
  refine List.findIdx?_eq_some_iff_getElem.mpr ⟨by rw [List.length_take]; omega, ?_, fun j hj => ?_⟩
  · rw [List.getElem_take, hget, hkey, beq_self_eq_true]
  · rw [List.getElem_take, beq_iff_eq]
    exact hfirst j _ hj (List.getElem?_eq_getElem _)

/-- With no registered entry of that key the search answers none (R144). -/
theorem findFont_eq_none {s : State} {key : Word}
    (h : ∀ (j : Nat) (g : Font), j < s.fcount → s.fonts[j]? = some g → g.name ≠ key) : findFont s key = none := by
  refine List.findIdx?_eq_none_iff.mpr fun g hg => ?_
  obtain ⟨j, hj⟩ := List.mem_iff_getElem?.mp hg
  rw [List.getElem?_take, Option.ite_none_right_eq_some] at hj
  obtain ⟨hlt, hget⟩ := hj
  exact beq_false_of_ne (h j g hlt hget)

/-- Settles O53: what the search answers is what gets selected. -/
theorem setFontNameSelectsTheLowestMatch : Obligations.SetFontNameSelectsTheLowestMatch := by
  refine ⟨rfl, fun s _ => ⟨fun i f hi hf hkey hfirst => ?_, fun hnone => ?_⟩⟩
  · rw [exec, execSetFontName, findFont_eq_some hi hf hkey hfirst]
  · rw [exec, execSetFontName, findFont_eq_none hnone]

end Sys2Proof.Machine
end

section
/-!
The measuring commands (spec 42_glyph_engine.md R134 to R136, R145 to R147): RESULT gets the advance width or the
measure, and the first unbacked descriptor byte stops MEASURE_CHAR.
-/

namespace Sys2Proof.Machine

section
variable {s : State} {f : Font} {ch len : Half}

/-! ### The width field of a descriptor -/

theorem toNat_joinBytes (lo hi : Byte) : (joinBytes lo hi).toNat = lo.toNat + 256 * hi.toNat := by
  rw [joinBytes, BitVec.toNat_append, ← Nat.shiftLeft_add_eq_or_of_lt lo.isLt, Nat.shiftLeft_eq]
  omega

/-- The 16-bit little-endian value at `a` (20_memory.md R41). -/
theorem State.toNat_halfAt (s : State) (a : Word) :
    (s.halfAt a).toNat = (s.byteAt a).toNat + 256 * (s.byteAt (a + 1)).toNat :=
  toNat_joinBytes _ _

theorem State.eq_descriptorAt {d : Word}
    (h : d.toNat = (f.desc.toNat + 4 * (ch.toNat - s.cfg.firstChar)) % 2 ^ 32) : d = s.descriptorAt f ch :=
  BitVec.eq_of_toNat_eq (h.trans (BitVec.toNat_ofNat _ _).symm)

/-- A width goes into RESULT without loss (R136). -/
theorem State.setWidth_advance (s : State) (f : Font) (ch : Half) :
    (BitVec.ofNat 16 (s.advance f ch)).setWidth 32 = BitVec.ofNat 32 (s.advance f ch) := by
  have hlt := s.advance_lt f ch
  apply BitVec.eq_of_toNat_eq
  rw [BitVec.toNat_setWidth, BitVec.toNat_ofNat, BitVec.toNat_ofNat, Nat.mod_eq_of_lt hlt]

/-! ### MEASURE_CHAR (R145) -/

theorem exec_measureChar_noFont (h : s.fvalid = false) :
    exec (.measureChar ch) s = .next (s.setResult 0 false) := by
  rw [exec, execMeasureChar, if_neg (by rw [h]; decide)]

theorem exec_measureChar_font (hv : s.fvalid = true) (hf : s.fonts[s.fcur]? = some f) :
    exec (.measureChar ch) s =
      ((charWidth f ch s).bind fun w u => .go () (u.setResult (w.setWidth 32) true)).finish (.measureChar ch) := by
  rw [exec, execMeasureChar, if_pos hv, State.currentFont_eq hf]

/-- Where the descriptor bytes the width takes are backed, RESULT gets the advance width. -/
theorem exec_measureChar_go (hv : s.fvalid = true) (hf : s.fonts[s.fcur]? = some f)
    (hb : ∀ a, s.DescByte f ch a → s.backed a = true) :
    exec (.measureChar ch) s = .next (s.setResult (BitVec.ofNat 32 (s.advance f ch)) true) := by
  rw [exec_measureChar_font hv hf, charWidth_go hb, Flow.bind_go, State.setWidth_advance, Flow.finish]

/-- A character without a glyph takes no read (R134, R135). -/
theorem exec_measureChar_noGlyph (hv : s.fvalid = true) (hf : s.fonts[s.fcur]? = some f) (h : ¬ s.Supports ch) :
    exec (.measureChar ch) s = .next (s.setResult (BitVec.ofNat 32 (s.advance f ch)) true) :=
  exec_measureChar_go hv hf fun _ ⟨hsu, _⟩ => (h hsu).elim

theorem exec_measureChar_supported (hv : s.fvalid = true) (hf : s.fonts[s.fcur]? = some f) (h : s.Supports ch)
    (hb : ∀ k, k < 4 → s.backed (s.descriptorAt f ch + BitVec.ofNat 32 k) = true) :
    exec (.measureChar ch) s = .next (s.setResult (BitVec.ofNat 32 (s.glyphWidth f ch).toNat) true) := by
  rw [← advance_supported h]
  refine exec_measureChar_go hv hf ?_
  rintro a ⟨-, k, hk, rfl⟩
  exact hb k hk

/-! ### MEASURE_CHAR over an unbacked descriptor (R135, 60_exceptions.md R175) -/

/-- Reads of backed bytes change nothing. -/
theorem perform_reads {as : List Word} (h : ∀ a ∈ as, s.backed a = true) : perform (as.map .read) s = .go () s := by
  induction as with
  | nil => rfl
  | cons a as ih =>
    rw [List.map_cons, perform_cons, runAccess, memRead_go (h a List.mem_cons_self), Flow.bind_go, Flow.bind_go]
    exact ih fun b hb => h b (List.mem_cons_of_mem a hb)

/-- A row of reads stops at its first unbacked byte, with nothing changed (20_memory.md R42). -/
theorem perform_reads_trap {as bs : List Word} {a : Word} (h : ∀ b ∈ as, s.backed b = true) (ha : s.backed a = false) :
    perform ((as ++ a :: bs).map .read) s = .trap .busRead a s := by
  have hx : ¬ s.Serves (.read a) := by rw [State.Serves, ha]; decide
  rw [List.map_append, List.map_cons, perform_append, perform_reads h, Flow.bind_go, perform_cons,
    runAccess_fails hx, Flow.bind_trap]
  rfl

/-- The first `k` bytes at `d`, the byte after them, and the rest of the four. -/
theorem fourBytes_split (d : Word) {k : Nat} (hk : k < 4) :
    ∃ rest, (List.range 4).map (fun j => d + BitVec.ofNat 32 j) =
      (List.range k).map (fun j => d + BitVec.ofNat 32 j) ++ (d + BitVec.ofNat 32 k) :: rest := by
  obtain ⟨m, hm⟩ : ∃ m, 4 = k + (1 + m) := ⟨3 - k, by omega⟩
  rw [hm, List.range_add, List.range_add, List.range_one]
  exact ⟨_, by simp only [List.map_append, List.map_cons, List.singleton_append, Nat.add_zero]; rfl⟩

/-- A supported character's width stops at the first unbacked byte of its descriptor (R135). -/
theorem perform_widthAccesses_trap {k : Nat} (h : s.Supports ch) (hk : k < 4)
    (hbefore : ∀ j, j < k → s.backed (s.descriptorAt f ch + BitVec.ofNat 32 j) = true)
    (hfail : s.backed (s.descriptorAt f ch + BitVec.ofNat 32 k) = false) :
    perform (s.widthAccesses f ch) s = .trap .busRead (s.descriptorAt f ch + BitVec.ofNat 32 k) s := by
  obtain ⟨rest, hsplit⟩ := fourBytes_split (s.descriptorAt f ch) hk
  have hreads : s.widthAccesses f ch =
      ((List.range 4).map fun j => s.descriptorAt f ch + BitVec.ofNat 32 j).map .read := by
    rw [State.widthAccesses_supported h, List.map_map]
    rfl
  rw [hreads, hsplit]
  refine perform_reads_trap (fun b hb => ?_) hfail
  obtain ⟨j, hj, rfl⟩ := List.mem_map.mp hb
  exact hbefore j (List.mem_range.mp hj)

/-- A bus error of the width ends the command before it writes RESULT (60_exceptions.md R174, R175). -/
theorem exec_measureChar_trap (hv : s.fvalid = true) (hf : s.fonts[s.fcur]? = some f) {c : FaultCause} {a : Word}
    (h : perform (s.widthAccesses f ch) s = .trap c a s) :
    exec (.measureChar ch) s = .next (raiseFault c a (encode (.measureChar ch)) s) := by
  have hwidth : charWidth f ch s = .trap c a s := by
    rw [charWidth_performs (s := s) (R := fun _ => True) ⟨rfl, fun _ _ => rfl⟩ fun _ _ => trivial, h, Flow.bind_trap]
  rw [exec_measureChar_font hv hf, hwidth, Flow.bind_trap, Flow.finish]

/-! ### MEASURE_STR (R146, R147) -/

theorem exec_measureStr_noFont (h : s.fvalid = false) :
    exec (.measureStr len) s = .next (s.setResult 0 false) := by
  rw [exec, execMeasureStr, if_neg (by rw [h]; decide)]

theorem exec_measureStr_go (hv : s.fvalid = true) (hf : s.fonts[s.fcur]? = some f)
    (hb : ∀ a, s.MeasuredByte f s.a1 len.toNat a → s.backed a = true) :
    exec (.measureStr len) s = .next (s.setResult (BitVec.ofNat 32 (s.measureOf f s.a1 len.toNat)) true) := by
  rw [exec, execMeasureStr, if_pos hv, State.currentFont_eq hf, measure_go hb, Flow.bind_go, Flow.finish]

end

/-! ### The statements about measuring -/

/-- Settles O54: the classes of R134, each by the rule for its reads. -/
theorem measureCharAnswersTheAdvanceWidth : Obligations.MeasureCharAnswersTheAdvanceWidth := by
  refine fun ch => ⟨toNat_commandWord 0x24 ch, fun s f =>
    ⟨exec_measureChar_noFont, exec_measureChar_go, ?space, ?supported, ?unsupported⟩⟩
  case space =>
    rintro hv hf rfl
    rw [exec_measureChar_noGlyph hv hf fun h => h.1 rfl, advance_space, State.setResult]
  case supported =>
    intro hv hf h0 h1 h2 d hd hb
    obtain rfl := State.eq_descriptorAt hd
    rw [exec_measureChar_supported hv hf ⟨h0, h1, h2⟩ hb, State.glyphWidth, State.toNat_halfAt, State.setResult]
  case unsupported =>
    intro hv hf h0 hout
    have hns : ¬ s.Supports ch := fun ⟨_, h1, h2⟩ => by omega
    rw [exec_measureChar_noGlyph hv hf hns, advance_unsupported h0 hns]
    rfl

/-- Settles O55: the reads of the descriptor stop at the first unbacked byte. -/
theorem measureCharFaultsAtTheFirstUnbackedByte : Obligations.MeasureCharFaultsAtTheFirstUnbackedByte := by
  intro ch s f d k hv hf h0 h1 h2 hd hk hbefore hfail
  obtain rfl := State.eq_descriptorAt hd
  rw [exec_measureChar_trap hv hf (perform_widthAccesses_trap ⟨h0, h1, h2⟩ hk hbefore hfail), raiseFault]

/-- Settles O56. -/
theorem measureStrAnswersWidthsPlusGaps : Obligations.MeasureStrAnswersWidthsPlusGaps :=
  fun len => ⟨toNat_commandWord 0x25 len, fun _ _ => ⟨exec_measureStr_noFont, exec_measureStr_go⟩⟩

end Sys2Proof.Machine
end

section
/-!
The text commands (spec 42_glyph_engine.md R150 to R162): where all they read and store is backed and no store hits a
byte they read, they paint the set pixels of the glyph, or of the string from where the command starts it.
-/

namespace Sys2Proof.Machine

theorem AsPoint.coordOf_eq {w : Word} {p : Coord} (h : AsPoint w p) : coordOf w = p := by
  rw [← Machine.pointOf_eq, h.pointOf_eq]

/-! ### DRAW_CHAR (R152) -/

/-- Settles O57: the blit of the character at A0. -/
theorem drawCharPaintsTheGlyph : Obligations.DrawCharPaintsTheGlyph := by
  refine fun ch => ⟨toNat_commandWord 0x28 ch, fun s f p ht hv hf hp hw hr hs ha => ?_⟩
  obtain ⟨t, hglyph, hpaints, -⟩ := drawGlyph_paints hw hr hs ha
  refine ⟨t, ?_, hpaints⟩
  rw [exec, execDrawChar, withText_valid ht hv, State.currentFont_eq hf, hp.coordOf_eq, hglyph, Flow.bind_go,
    Flow.finish]

/-! ### DRAW_STR_L (R156) -/

/-- Settles O58: the string laid out from A0. -/
theorem drawStrLPaintsTheText : Obligations.DrawStrLPaintsTheText := by
  refine fun len => ⟨toNat_commandWord 0x29 len, fun s f p ht hv hf hp hw hr hs ha => ?_⟩
  obtain ⟨t, hstr, hpaints, -⟩ := drawStr_paints hw hr hs ha
  refine ⟨t, ?_, hpaints⟩
  rw [exec, execDrawStrL, withText_valid ht hv, State.currentFont_eq hf, hp.coordOf_eq, hstr, Flow.finish]

/-! ### DRAW_STR_C and DRAW_STR_R (R160, R161) -/

/-- Drawing a string reads every byte that measuring it reads. -/
theorem State.MeasuredByte.textByte {s : State} {f : Font} {addr a : Word} {len : Nat}
    (h : s.MeasuredByte f addr len a) : s.TextByte f addr len a := by
  obtain ⟨i, hi, hstr | hdesc⟩ := h
  · exact ⟨i, hi, .inl hstr⟩
  · exact ⟨i, hi, .inr (.inl hdesc)⟩

/-- Measuring the string in A1 and drawing it from where `start` puts it for that measure. -/
theorem measure_then_drawStr_paints {s : State} {f : Font} {len : Nat} {x0 y0 : Half} {start : Word → Half}
    (hx : start (BitVec.ofNat 32 (s.measureOf f s.a1 len)) = x0) (hw : Memory.wf s.mem = true)
    (hr : ∀ a, s.TextByte f s.a1 len a → s.backed a = true) (hs : s.Storable (s.OnText f x0 y0 s.a1 len))
    (ha : s.Apart (s.OnText f x0 y0 s.a1 len) (s.TextByte f s.a1 len)) :
    ∃ t, ((measure f s.a1 len s).bind fun m u => drawStr f (start m) y0 u.a1 len u) = .go () t ∧
      Paints s (s.OnText f x0 y0 s.a1 len) t := by
  obtain ⟨t, hstr, hpaints, -⟩ := drawStr_paints hw hr hs ha
  refine ⟨t, ?_, hpaints⟩
  rw [measure_go fun a h => hr a h.textByte, Flow.bind_go, hx, hstr]

/-- Settles O59: half the measure left of A0. -/
theorem drawStrCPaintsTheCentredText : Obligations.DrawStrCPaintsTheCentredText := by
  refine fun len => ⟨toNat_commandWord 0x2A len, fun s f p x0 ht hv hf hp hw hx hr hs ha => ?_⟩
  obtain ⟨t, hdraw, hpaints⟩ :=
    measure_then_drawStr_paints (start := centredStart p.x) ((centredStart_eq _ _).trans hx.symm) hw hr hs ha
  refine ⟨t, ?_, hpaints⟩
  rw [exec, execDrawStrC, withText_valid ht hv, State.currentFont_eq hf, hp.coordOf_eq]
  exact congrArg _ hdraw

/-- Settles O60: the whole measure left of A0. -/
theorem drawStrRPaintsTheRightAlignedText : Obligations.DrawStrRPaintsTheRightAlignedText := by
  refine fun len => ⟨toNat_commandWord 0x2B len, fun s f p x0 ht hv hf hp hw hx hr hs ha => ?_⟩
  obtain ⟨t, hdraw, hpaints⟩ :=
    measure_then_drawStr_paints (start := rightStart p.x) ((rightStart_eq _ _).trans hx.symm) hw hr hs ha
  refine ⟨t, ?_, hpaints⟩
  rw [exec, execDrawStrR, withText_valid ht hv, State.currentFont_eq hf, hp.coordOf_eq]
  exact congrArg _ hdraw

end Sys2Proof.Machine
end

section
/-!
The latched fault (spec 60_exceptions.md R176, R177): while one is latched no host access writes FAULT or the three
fault registers, a CMD write being dropped whole, so a step that changes them took a reset.
-/

namespace Sys2Proof.Machine

/-- FAULT and the three fault registers (60_exceptions.md R174). -/
def State.latch (s : State) : Bool × FaultCause × Word × Word := (s.faulted, s.faultCause, s.faultAddr, s.faultCmd)

theorem State.latch_eq_iff {s t : State} : t.latch = s.latch ↔ t.faulted = s.faulted ∧ t.faultCause = s.faultCause ∧
    t.faultAddr = s.faultAddr ∧ t.faultCmd = s.faultCmd := by
  simp only [State.latch, Prod.mk.injEq]

/-- The two resets: the reset input, and a write of SRST to CTRL (70_reset_and_hazards.md R190, R191). -/
def HostAccess.IsReset (a : HostAccess) : Prop :=
  a = .hardReset ∨ ∃ v : Word, v.getLsbD 31 = true ∧ a = .regWrite 0x00 .word v

/-- CTRL lies at offset 0 only (10_state.md R13). -/
theorem offset_of_regAt_ctrl : ∀ {offset : BitVec 7}, regAt offset = some .ctrl → offset = 0x00 := by
  decide

theorem whileUnlocked_latch {s t : State} (h : t.latch = s.latch) : (whileUnlocked s t).latch = s.latch := by
  unfold whileUnlocked
  split
  · exact h
  · exact h
  · rfl
  · rfl

theorem hostStore_latch (a : Word) (w : AccessWidth) (v : Word) (s : State) : (hostStore a w v s).latch = s.latch := by
  rw [hostStore_eq, State.storeBytes_frame]
  rfl

theorem writeCtrl_latch {v : Word} (hv : v.getLsbD 31 = false) (s : State) : (writeCtrl v s).latch = s.latch := by
  rw [writeCtrl, softResets, hv]
  rfl

theorem writeStatus_latch (v : Word) (s : State) : (writeStatus v s).latch = s.latch := by
  unfold writeStatus
  split
  · rfl
  · rfl

theorem writeCmd_latch {w : Word} {s t : State} (hf : s.faulted = true) (h : writeCmd w s = .next t) :
    t.latch = s.latch := by
  rw [writeCmd_latched hf] at h
  cases h
  rfl

/-- Of the registers only CTRL can clear a latched fault, by its bit SRST. -/
theorem regWrite_latch {r : Reg} {v : Word} {s t : State} (hf : s.faulted = true) (h : regWrite r v s = .next t) :
    t.latch = s.latch ∨ (r = .ctrl ∧ v.getLsbD 31 = true) := by
  cases r with
  | ctrl =>
    cases h
    cases hv : v.getLsbD 31 with
    | false => exact .inl (writeCtrl_latch hv s)
    | true => exact .inr ⟨rfl, rfl⟩
  | status => cases h; exact .inl (writeStatus_latch v s)
  | cmd => exact .inl (writeCmd_latch hf h)
  | panelW | panelH | l0buf0 | l0buf1 | l1buf0 | l1buf1 => cases h; exact .inl (whileUnlocked_latch rfl)
  | a0 | a1 | a2 | a3 | a4 | result | color | target | fontsel | scan0 | scan1 | faultCause | faultAddr | faultCmd =>
    cases h; exact .inl rfl

theorem takeAccess_latch {a : HostAccess} {s t : State} (hf : s.faulted = true) (h : takeAccess a s = .next t) :
    t.latch = s.latch ∨ a.IsReset := by
  rcases takeAccess_cases h with ⟨r, rfl⟩ | ⟨offset, r, v, rfl, hr, hw⟩ | ⟨addr, w, v, -, -, rfl⟩ | ⟨rfl, -⟩
  · exact .inl rfl
  · rcases regWrite_latch hf hw with hkept | ⟨rfl, hv⟩
    · exact .inl hkept
    · rw [offset_of_regAt_ctrl hr]
      exact .inr (.inr ⟨v, hv, rfl⟩)
  · exact .inl (hostStore_latch addr w v s)
  · exact .inr (.inl rfl)

theorem step_latch {s t : State} (hf : s.faulted = true) (h : step s = .next t) :
    t.latch = s.latch ∨ ∃ a rest, s.pending = a :: rest ∧ a.IsReset := by
  rcases step_cases h with ⟨-, rfl⟩ | ⟨a, rest, hp, ha⟩
  · exact .inl rfl
  · rcases takeAccess_latch (s := s.accept rest) hf ha with hkept | hreset
    · exact .inl hkept
    · exact .inr ⟨a, rest, hp, hreset⟩

/-- Settles O8: a step that takes no reset keeps the fault latch. -/
theorem onlyResetClearsALatchedFault : Obligations.OnlyResetClearsALatchedFault := by
  intro s t h hf
  rcases step_latch hf h with hkept | ⟨a, rest, hp, rfl | ⟨v, hv, rfl⟩⟩
  · obtain ⟨hfaulted, hregs⟩ := State.latch_eq_iff.mp hkept
    exact .inl ⟨hfaulted.trans hf, hregs⟩
  · exact .inr ⟨rest, .inl hp⟩
  · exact .inr ⟨rest, .inr ⟨v, hv, hp⟩⟩

end Sys2Proof.Machine
end
